-- ==== Sys2Proof/Word.lean ====
section
/-! DEFINITION. The two bit-vector types of the block: the coefficient byte (R11) and the 32-bit bus word (R32). -/

namespace Sys2Proof

/-- A coefficient byte of A, R, C or of a lane (R11, R68). -/
abbrev Byte := BitVec 8

/-- A word of the 32-bit host data bus, a register or a command word (R32, R50). -/
abbrev Word := BitVec 32

end Sys2Proof
end

