-- ==== Sys2Proof/Config.lean ====
section
/-! DEFINITION. What one build of the block fixes (R7, R8, R34), the constants of every build (R9), and the one free
value the spec leaves open (R36, R40). -/

namespace Sys2Proof

/-- The build and platform parameters a model takes as arguments: N and L are build-time constants (R7, R8), BASE_ADDR
is the platform's (R34).  Every statement of the model is about every build; State holds the build, and no step
changes it (log entry 1, DESIGN CHOICE). -/
structure Build where
  /-- N, the ring dimension (R7). -/
  n : Nat
  /-- L, the lane width in bytes (R8). -/
  l : Nat
  /-- BASE_ADDR, the absolute address of offset 0 (R34). -/
  baseAddr : Nat
  deriving DecidableEq, Repr

/-- The spec's default build, N = 512 and L = 32 (R7, R8).  The spec gives BASE_ADDR no default; 0 stands here
(log entry 2, DESIGN CHOICE). -/
def Build.default : Build := { n := 512, l := 32, baseAddr := 0 }

/-- M = N / L, the number of lanes (R10); it means something only where `hasLanes` holds. -/
def Build.m (b : Build) : Nat := b.n / b.l

/-- N mod L = 0: the build has the vectorized engine's lanes (R10, R22, R75). -/
def Build.hasLanes (b : Build) : Bool := decide (b.n % b.l = 0)

namespace Config

/-- The data word of a read the spec calls unspecified, the `k`-th one drawn: "a free value on each read, drawn
independently each time" (R40, and R36 for the data of a read answered ERROR).  It has no body, so nothing can be
proved of its value (log entry 6). -/
opaque freeData : Nat → Word

end Config

end Sys2Proof
end

