-- ==== Sys2Proof/Syntax.lean ====
section
/-! DEFINITION. The block's instructions: the two commands of spec/opcode_table.json (R53).  Neither has an operand
field (R50): each reads A and TERM and writes R and C. -/

namespace Sys2Proof

/-- A command, one constructor per row of the opcode table (R53). -/
inductive Instr where
  /-- REFCONV, command word 0x00000001: the reference engine, general-form b (R69). -/
  | refconv
  /-- VECCONV, command word 0x00000002: the vectorized engine, canonical-form b (R76). -/
  | vecconv
  deriving DecidableEq, Repr

end Sys2Proof
end

