-- ==== Sys2Proof/WellFormed.lean ====
section
/-! DEFINITION. What makes a build legal (R7, R8, R34) and a command well formed (R50). -/

namespace Sys2Proof

/-- The build's parameters lie in the legal ranges: 1 ≤ N ≤ 32768 (R7), 1 ≤ L ≤ 255 (R8), and BASE_ADDR is a multiple
of the aperture's size 0x40000 (R34). -/
def Build.legal (b : Build) : Bool :=
  decide (1 ≤ b.n ∧ b.n ≤ 32768 ∧ 1 ≤ b.l ∧ b.l ≤ 255 ∧ b.baseAddr % 0x40000 = 0)

/-- "No command has an immediate, a register field or a mode field" (R50), so there is no operand a command could hold
wrongly: every command is well formed. -/
def Instr.wellFormed : Instr → Bool
  | .refconv => true
  | .vecconv => true

end Sys2Proof
end

