-- ==== Sys2Proof/Decode.lean ====
section
/-! DEFINITION. The command word (R50, R53): the decoder, total on every word and on any bytes and rejecting by name,
and after it the encoder. -/

namespace Sys2Proof

/-- Why a command word, or a list of bytes, is no command. -/
inductive CmdReject where
  /-- Some bit of RSV = [31:4] is set (R50, R56). -/
  | reservedBits
  /-- OP = [3:0] names no command: 0x0 or 0x3 to 0xF (R53, R56). -/
  | illegalOp (op : BitVec 4)
  /-- Not four bytes: "Every command is one 32-bit word" (R57). -/
  | wrongLength (bytes : Nat)
  deriving DecidableEq, Repr

/-- OP, bits [3:0] of the command word (R50). -/
def opField (v : Word) : BitVec 4 := v.extractLsb' 0 4

/-- RSV, bits [31:4] of the command word (R50). -/
def rsvField (v : Word) : BitVec 28 := v.extractLsb' 4 28

/-- The opcode map (R53), and "A legal command word is exactly 0x00000001 or 0x00000002". -/
def decode (v : Word) : Except CmdReject Instr :=
  if rsvField v ≠ 0#28 then .error .reservedBits
  else if opField v = 0x1#4 then .ok .refconv
  else if opField v = 0x2#4 then .ok .vecconv
  else .error (.illegalOp (opField v))

/-- Decoding from bytes, the lowest address first: the word is little-endian on the bus (R37) and there is one length
only (R57). -/
def decodeBytes : List Byte → Except CmdReject Instr
  | [b0, b1, b2, b3] => decode (b3 ++ b2 ++ b1 ++ b0)
  | bytes => .error (.wrongLength bytes.length)

/-- The four bytes of a word as the bus lays them out, the lowest address first (R37). -/
def wordBytes (v : Word) : List Byte :=
  [v.extractLsb' 0 8, v.extractLsb' 8 8, v.extractLsb' 16 8, v.extractLsb' 24 8]

/-- The command the decoder reads from a word numbered as spec/opcode_table.json numbers it (one 32-bit word, bit 0 its
least significant bit); bits from `nbits` up are 0, and a word longer than 32 bits is no command (R57). -/
def decodeTableWord (nbits w : Nat) : Option Instr :=
  if w % 2 ^ nbits < 2 ^ 32 then (decodeBytes (wordBytes (BitVec.ofNat 32 (w % 2 ^ nbits)))).toOption
  else none

/-- The opcode of a command (R53). -/
def opcode : Instr → BitVec 4
  | .refconv => 0x1#4
  | .vecconv => 0x2#4

/-- The command word: RSV = 0 and OP the opcode (R50, R53). -/
def encode (i : Instr) : Word := 0#28 ++ opcode i

end Sys2Proof
end

