-- ==== Sys2Proof/Machine/State.lean ====
section
/-! DEFINITION. The state of the block as plain data: the sequencer (R16), the status and error registers (R27, R29), the
TERM table (R19), the local memories A, R and C (R18, R20, R21), the vector registers BASE, W and U (R22, R23), the
build's parameters, and the model's own fields (pending inputs, the last bus response, the free-value counter). -/

namespace Sys2Proof.Machine

/-- Which local memory or register file an engine access names (R18, R20, R21, R22). -/
inductive LocalMem where
  | a
  | r
  | c
  | base
  deriving DecidableEq, Repr

/-- Why the machine stops. -/
inductive Fault where
  /-- A command reads a byte of a local memory that nothing has written since reset: "A model should treat a command
  that reads an unwritten A byte as a fault" (R115).  Raised by an engine load (REF_ACC, VEC_BASE, and, in states no
  run reaches, the loads of R).  Safe: hardware goes on with an unknown byte. -/
  | unwrittenRead (mem : LocalMem) (index : Nat)
  /-- An engine access outside its memory.  Raised by an engine load or store in states no run reaches: "No micro-step of
  an accepted command touches R outside [0, 2N−1]" (R87).  Safe. -/
  | engineIndex (mem : LocalMem) (index : Nat)
  deriving DecidableEq, Repr

/-- Why the machine has no meaning for a step. -/
inductive Refusal where
  /-- The command of that name has no meaning in the model.  No arm of exec raises it: both commands are modelled.
  Safe. -/
  | notModelled (mnemonic : String)
  deriving DecidableEq, Repr

/-- STATUS.ERRCODE (R93): the codes 5 to 15 "are never produced". -/
inductive ErrCode where
  | none
  | illegalCmd
  | expRange
  | unsupported
  | busyWrite
  deriving DecidableEq, Repr

/-- The next micro-step of a running REFCONV (R70). -/
inductive RefPos where
  /-- REF_ZERO (R71). -/
  | zero
  /-- REF_ACC(t, j) (R72). -/
  | acc (t : Fin 20) (j : Nat)
  /-- REF_FOLD(i) (R73). -/
  | fold (i : Nat)
  deriving DecidableEq, Repr

/-- The next micro-step of a running VECCONV (R77). -/
inductive VecPos where
  /-- VEC_BASE(j) (R78). -/
  | base (j : Nat)
  /-- VEC_ZERO (R79). -/
  | zero
  /-- VEC_POS(i, j) (R80). -/
  | pos (i : Fin 10) (j : Nat)
  /-- VEC_NEG(i, j) (R81). -/
  | neg (i : Fin 10) (j : Nat)
  /-- VEC_FOLD(j) (R82). -/
  | fold (j : Nat)
  deriving DecidableEq, Repr

/-- The sequencer state SEQ: IDLE, or RUNNING(op, pos) with the op in the constructor (R16). -/
inductive Seq where
  | idle
  | refconv (pos : RefPos)
  | vecconv (pos : VecPos)
  deriving DecidableEq, Repr

/-- What one TERM word stores (R51): EXP in [15:0] and SIGN in [31]; bits [30:16] are "not stored". -/
structure Term where
  exp : BitVec 16
  sign : Bool
  deriving DecidableEq, Repr

/-- A local memory: (index, byte) pairs in rising order of index.  An index that is not listed holds no byte written
since reset: "unspecified" (R31). -/
abbrev Memory := List Host.Cell

/-- What the outside does next: a host transaction at an absolute address (R33, R34), the reset input (R112), or leaving
the turn to the ENGINE (R13, R45). -/
inductive Input where
  /-- BusRead(address − BASE_ADDR, size). -/
  | read (addr size : Nat)
  /-- BusWrite(address − BASE_ADDR, size, data). -/
  | write (addr size : Nat) (data : Word)
  /-- No transaction now: the ENGINE performs its next micro-step, if it has one. -/
  | engine
  /-- The reset input is asserted (R112). -/
  | reset
  deriving DecidableEq, Repr

/-- The block's answer to a transaction (R33).  The data of a read is its bytes, the lowest offset first; the data of a
read answered ERROR is unspecified (R36). -/
inductive Response where
  | okayWrite
  | okayRead (data : List Byte)
  | errorWrite
  | errorRead (data : Word)
  deriving DecidableEq, Repr

/-- The whole state of the block. -/
structure State where
  /-- N, L and BASE_ADDR (R7, R8, R34); no step changes them. -/
  build : Build
  /-- SEQ (R16). -/
  seq : Seq
  /-- STATUS.DONE (R27). -/
  done : Bool
  /-- STATUS.ERR (R27). -/
  err : Bool
  /-- STATUS.ERRCODE (R27, R93). -/
  errCode : ErrCode
  /-- ERRINFO[17:0] (R29). -/
  errInfo : BitVec 18
  /-- TERM[0..19] (R19). -/
  term : Vector Term 20
  /-- A[0..N−1] (R18). -/
  memA : Memory
  /-- R[0..2N−1] (R20). -/
  memR : Memory
  /-- C[0..N−1] (R21). -/
  memC : Memory
  /-- BASE[0..M−1], each of L bytes (R22). -/
  base : List (List Byte)
  /-- W, L bytes (R23). -/
  w : List Byte
  /-- U, L bytes (R23). -/
  u : List Byte
  /-- The model's own: what the outside does next, first first (log entry 3). -/
  inputs : List Input
  /-- The block's answer to the last host transaction since reset (R33; log entry 5). -/
  response : Option Response
  /-- The model's own: how many free values have been drawn (log entry 6). -/
  free : Nat
  deriving DecidableEq, Repr

/-- The state after the reset event in the build `b` (R31, R112): SEQ, STATUS, ERRINFO and TERM as the spec gives them;
A, R and C with nothing written; BASE, W and U, which the spec leaves unspecified, all zero (log entry 4, DESIGN
CHOICE).  BASE exists only when N mod L = 0 (R22). -/
def State.resetOf (b : Build) : State where
  build := b
  seq := .idle
  done := false
  err := false
  errCode := .none
  errInfo := 0#18
  term := Vector.replicate 20 { exp := 0#16, sign := false }
  memA := []
  memR := []
  memC := []
  base := if b.hasLanes then List.replicate b.m (List.replicate b.l 0#8) else []
  w := List.replicate b.l 0#8
  u := List.replicate b.l 0#8
  inputs := []
  response := none
  free := 0

/-- The machine right after reset, in the spec's default build (R7, R8, R31). -/
def State.reset : State := State.resetOf Build.default

end Sys2Proof.Machine
end

