-- ==== Sys2Proof/Machine/Ops.lean ====
section
/-! DEFINITION. The named operations the commands and the bus share: the local memories and their windows (R38, R43), the
byte and lane arithmetic (R62 to R65), recording an error and clearing it (R98, R103), accepting a command and
completing one (R55, R17), and reset (R112). -/

namespace Sys2Proof.Machine

/-! ### Local memories -/

/-- The byte at an index; none where nothing has written it since reset (R31). -/
def Memory.read : Memory → Nat → Option Byte
  | [], _ => none
  | cell :: rest, k => if cell.1 = k then some cell.2 else Memory.read rest k

/-- One byte written, the cells kept in rising order of index. -/
def Memory.write : Memory → Nat → Byte → Memory
  | [], k, v => [(k, v)]
  | cell :: rest, k, v =>
    if k < cell.1 then (k, v) :: cell :: rest
    else if cell.1 = k then (k, v) :: rest
    else cell :: Memory.write rest k v

/-- Bytes written at successive indexes, the first at `k`: byte m of the vector goes to index k + m (R38). -/
def Memory.writeBytes : Memory → Nat → List Byte → Memory
  | mem, _, [] => mem
  | mem, k, v :: vs => Memory.writeBytes (Memory.write mem k v) (k + 1) vs

/-- The `n` bytes from index `k` up, each none where nothing has written it. -/
def Memory.readBytes (mem : Memory) (k : Nat) : Nat → List (Option Byte)
  | 0 => []
  | n + 1 => mem.read k :: Memory.readBytes mem (k + 1) n

/-- A memory of `size` bytes, each 0x00 (R71, R79). -/
def Memory.zeroed (size : Nat) : Memory := (List.range size).map fun k => (k, 0#8)

/-- The one form a memory's list has: indexes strictly rising.  An unlisted index holds no value, so no entry can equal
what an unlisted index reads as. -/
abbrev Memory.wf (mem : Memory) : Prop := mem.Pairwise fun x y => x.1 < y.1

/-- Every listed index lies in a memory of `size` bytes. -/
abbrev Memory.within (mem : Memory) (size : Nat) : Prop := ∀ cell ∈ mem, cell.1 < size

/-- Every index of a memory of `size` bytes has been written. -/
abbrev Memory.full (mem : Memory) (size : Nat) : Prop := ∀ k < size, (mem.read k).isSome

/-! ### Engine accesses -/

/-- The engine reads one byte of the local memory `which`, of `size` bytes (R43, R44): unwritten, it is a fault (R115);
outside the memory there is nothing to read (R87). -/
def loadByte (which : LocalMem) (mem : Memory) (size k : Nat) : Except Fault Byte :=
  if k < size then
    match mem.read k with
    | some v => .ok v
    | none => .error (.unwrittenRead which k)
  else .error (.engineIndex which k)

/-- MemRead(mem, k, n): the bytes k, …, k + n − 1, the byte at `k` first (R38, R43); any start index, aligned or not. -/
def loadWindow (which : LocalMem) (mem : Memory) (size k : Nat) : Nat → Except Fault (List Byte)
  | 0 => .ok []
  | n + 1 =>
    match loadByte which mem size k with
    | .error f => .error f
    | .ok v =>
      match loadWindow which mem size (k + 1) n with
      | .error f => .error f
      | .ok vs => .ok (v :: vs)

/-- MemWrite(mem, k, n, v): byte m of the vector goes to index k + m (R38, R43); nothing is written where the window
leaves the memory (R87). -/
def storeWindow (which : LocalMem) (mem : Memory) (size k : Nat) (vs : List Byte) : Except Fault Memory :=
  if k + vs.length ≤ size then .ok (mem.writeBytes k vs) else .error (.engineIndex which k)

/-! ### Coefficient arithmetic -/

/-- sext_8: a byte read in two's complement (R62). -/
def sext8 (v : Byte) : Int := v.toInt

/-- add8(x, d) = mod256(x + d), x read as unsigned (R64). -/
def add8 (x : Byte) (d : Int) : Byte := BitVec.ofInt 8 ((x.toNat : Int) + d)

/-- sub8(x, y) = mod256(x − y), both read as unsigned (R64). -/
def sub8 (x y : Byte) : Byte := BitVec.ofInt 8 ((x.toNat : Int) - (y.toNat : Int))

/-- X +lane Y: each element by itself, with no carry between elements (R65). -/
def laneAdd (x y : List Byte) : List Byte := List.zipWith (fun a b => add8 a (b.toNat : Int)) x y

/-- X −lane Y: each element by itself, with no borrow between elements (R65). -/
def laneSub (x y : List Byte) : List Byte := List.zipWith sub8 x y

/-! ### The sequencer -/

/-- `SEQ ≠ IDLE`, which is what STATUS.BUSY reads (R16, R27). -/
def State.busy (s : State) : Bool :=
  match s.seq with
  | .idle => false
  | .refconv _ => true
  | .vecconv _ => true

/-- accept(op): SEQ goes to the command's first micro-step and DONE to 0; "STATUS.ERR, STATUS.ERRCODE and ERRINFO are
unchanged" (R55). -/
def accept (first : Seq) (s : State) : State := { s with seq := first, done := false }

/-- The last micro-step's completion: SEQ goes to IDLE and DONE to 1 (R17). -/
def complete (s : State) : State := { s with seq := .idle, done := true }

/-! ### Errors -/

/-- `raise Error(code, info)` (R98), the block's one way to record an error: the first since ERR was cleared is kept. -/
def raiseError (code : ErrCode) (info : BitVec 18) (s : State) : State :=
  if s.err then s else { s with err := true, errCode := code, errInfo := info }

/-- The return from the error state: ERR, ERRCODE and ERRINFO cleared together (R27, R103). -/
def clearError (s : State) : State := { s with err := false, errCode := .none, errInfo := 0#18 }

/-- DONE cleared by the host (R27). -/
def clearDone (s : State) : State := { s with done := false }

/-! ### The bus response and reset -/

/-- The block answers a transaction (R33). -/
def State.answer (s : State) (r : Response) : State := { s with response := some r }

/-- One free value is drawn (R40). -/
def State.drawFree (s : State) : State := { s with free := s.free + 1 }

/-- The reset event (R112, R113): every piece of the block's state as `State.resetOf` gives it, a running command
abandoned; the inputs still to come, and the count of the free values drawn, are no state of the block. -/
def resetBlock (s : State) : State := { State.resetOf s.build with inputs := s.inputs, free := s.free }

end Sys2Proof.Machine
end

