-- ==== Sys2Proof/Machine/Operands.lean ====
section
/-! DEFINITION. Operand assembly: the TERM word's fields (R51), the exponent and sign of a term for each engine (R52), the
dense coefficient's contribution (R63), and the range check on the exponents (R54, R95). -/

namespace Sys2Proof.Machine

/-- What a host write stores of a TERM word: EXP = [15:0] and SIGN = [31]; "reserved bits [30:16] are not stored"
(R39, R51). -/
def Term.ofWord (v : Word) : Term := { exp := v.extractLsb' 0 16, sign := v.getLsbD 31 }

/-- The TERM word as read: SIGN in bit 31, zeros in [30:16], EXP in [15:0] (R40, R51). -/
def Term.toWord (t : Term) : Word := BitVec.ofBool t.sign ++ (0#15 ++ t.exp)

/-- The exponent of term t, `e_t = zext_16(TERM[t][15:0])` (R52). -/
def State.expOf (s : State) (t : Fin 20) : Nat := s.term[t].exp.toNat

/-- REFCONV's sign of term t: +1 where SIGN = 0 and −1 where SIGN = 1 (R52). -/
def State.signOf (s : State) (t : Fin 20) : Int := if s.term[t].sign then -1 else 1

/-- VECCONV's sign of term t, by position: +1 for t ≤ 9 and −1 for t ≥ 10 (R9, R52). -/
def positionSign (t : Fin 20) : Int := if t.val < 10 then 1 else -1

/-- The term a positive micro-step reads: `e_pos[i] = e_i` (R76). -/
def posTerm (i : Fin 10) : Fin 20 := ⟨i.val, by omega⟩

/-- The term a negative micro-step reads: `e_neg[i] = e_(10+i)` (R76). -/
def negTerm (i : Fin 10) : Fin 20 := ⟨10 + i.val, by omega⟩

/-- The first term, in the order t = 0, …, 19, whose exponent is not below N (R54, R95). -/
def firstBadTerm (s : State) : Option (Fin 20) :=
  (List.finRange 20).find? fun t => decide (s.build.n ≤ s.expOf t)

/-- Every exponent passes the check of acceptance: e_t < N (R52). -/
abbrev State.expsInRange (s : State) : Prop := ∀ t : Fin 20, s.expOf t < s.build.n

end Sys2Proof.Machine
end

