-- ==== Sys2Proof/Machine/Flags.lean ====
section
/-! DEFINITION. The control and status registers as the host reads and writes them: STATUS with its flags (R27), ERRINFO
(R29), CONFIG (R25), and the offsets that error records name (R24, R97). -/

namespace Sys2Proof.Machine

/-- The 4-bit code of STATUS[7:4] (R93). -/
def ErrCode.bits : ErrCode → BitVec 4
  | .none => 0#4
  | .illegalCmd => 1#4
  | .expRange => 2#4
  | .unsupported => 3#4
  | .busyWrite => 4#4

/-- STATUS as read: BUSY in [0], DONE in [1], ERR in [2], ERRCODE in [7:4], every other bit 0 (R27). -/
def statusWord (s : State) : Word :=
  0#24 ++ (s.errCode.bits ++ (0#1 ++ (BitVec.ofBool s.err ++ (BitVec.ofBool s.done ++ BitVec.ofBool s.busy))))

/-- A host write of `v` to STATUS: write-1-to-clear of DONE by bit 1 and of ERR, with ERRCODE and ERRINFO, by bit 2;
"Every other bit of v is ignored", in every sequencer state (R27). -/
def writeStatus (v : Word) (s : State) : State :=
  let s1 := if v.getLsbD 1 then clearDone s else s
  if v.getLsbD 2 then clearError s1 else s1

/-- ERRINFO as read: the information word in [17:0] and zeros in [31:18] (R29). -/
def errInfoWord (s : State) : Word := 0#14 ++ s.errInfo

/-- CONFIG as read: N in [15:0], L in [23:16], T = 20 in [31:24] (R25). -/
def configWord (b : Build) : Word := 20#8 ++ (BitVec.ofNat 8 b.l ++ BitVec.ofNat 16 b.n)

/-- The offset of CMD (R24). -/
def cmdOffset : Nat := 0x00004

/-- The information word of BUSY_WRITE: the offset of the dropped write, bits [17:0] (R93, R97). -/
def offsetInfo (off : Nat) : BitVec 18 := BitVec.ofNat 18 off

/-- The information word of EXP_RANGE: the lowest term index with a bad exponent (R93, R95). -/
def termInfo (t : Fin 20) : BitVec 18 := BitVec.ofNat 18 t.val

/-- The information word of ILLEGAL_CMD: the written word's bits [17:0] (R93, R94). -/
def cmdInfo (v : Word) : BitVec 18 := v.extractLsb' 0 18

end Sys2Proof.Machine
end

