-- ==== Sys2Proof/Machine/Issue.lean ====
section
/-! DEFINITION. The checks a CMD write of a command makes, in the order of R54, as one operation both commands use. -/

namespace Sys2Proof.Machine

/-- The checks of R54 after decoding, for a command that starts at the micro-step `first` and that this build has or has
not (R75).  BUSY_WRITE comes before UNSUPPORTED, and that before EXP_RANGE for the lowest t (R99); a refused command
changes nothing but the error record (R100). -/
def issueCommand (first : Seq) (supported : Bool) (s : State) : State :=
  if s.busy then raiseError .busyWrite (offsetInfo cmdOffset) s
  else if !supported then raiseError .unsupported 0#18 s
  else
    match firstBadTerm s with
    | some t => raiseError .expRange (termInfo t) s
    | none => accept first s

end Sys2Proof.Machine
end

