-- ==== Sys2Proof/Machine/Reference.lean ====
section
/-! DEFINITION. The reference engine: the meaning of REFCONV (R69) and its micro-steps (R70 to R73). -/

namespace Sys2Proof.Machine

/-- REFCONV (R69): the CMD write checks and accepts the command (R54, R55); from then on the ENGINE performs its
micro-steps, beginning with REF_ZERO, by `refMicro` and `refNext`. -/
def execRefconv (s : State) : Host.Outcome State Fault Refusal :=
  .next (issueCommand (.refconv .zero) true s)

/-- REF_ZERO: R[k] <- 0x00 for every k in 0..2N−1 (R71). -/
def refZero (s : State) : Except Fault State := .ok { s with memR := Memory.zeroed (2 * s.build.n) }

/-- REF_ACC(t, j): R[j + e_t] <- add8(R[j + e_t], s_t · a_j) (R72). -/
def refAcc (t : Fin 20) (j : Nat) (s : State) : Except Fault State :=
  match loadByte .a s.memA s.build.n j with
  | .error f => .error f
  | .ok a =>
    match loadByte .r s.memR (2 * s.build.n) (j + s.expOf t) with
    | .error f => .error f
    | .ok x => .ok { s with memR := s.memR.write (j + s.expOf t) (add8 x (s.signOf t * sext8 a)) }

/-- REF_FOLD(i): C[i] <- sub8(R[i], R[i + N]) (R73). -/
def refFold (i : Nat) (s : State) : Except Fault State :=
  match loadByte .r s.memR (2 * s.build.n) i with
  | .error f => .error f
  | .ok x =>
    match loadByte .r s.memR (2 * s.build.n) (i + s.build.n) with
    | .error f => .error f
    | .ok y =>
      match storeWindow .c s.memC s.build.n i [sub8 x y] with
      | .error f => .error f
      | .ok mem => .ok { s with memC := mem }

/-- The effect of one micro-step of REFCONV (R70). -/
def refMicro : RefPos → State → Except Fault State
  | .zero, s => refZero s
  | .acc t j, s => refAcc t j s
  | .fold i, s => refFold i s

/-- The micro-step after one of REFCONV's; none after REF_FOLD(N−1), the last (R70). -/
def refNext (n : Nat) : RefPos → Option RefPos
  | .zero => some (.acc 0 0)
  | .acc t j =>
    if j + 1 < n then some (.acc t (j + 1))
    else if h : t.val + 1 < 20 then some (.acc ⟨t.val + 1, h⟩ 0)
    else some (.fold 0)
  | .fold i => if i + 1 < n then some (.fold (i + 1)) else none

end Sys2Proof.Machine
end

