-- ==== Sys2Proof/Machine/Vectorized.lean ====
section
/-! DEFINITION. The vectorized engine: the meaning of VECCONV (R76) and its micro-steps (R77 to R82). -/

namespace Sys2Proof.Machine

/-- VECCONV (R76): the CMD write checks and accepts the command (R54, R55), in a build with N mod L = 0 only (R75); from
then on the ENGINE performs its micro-steps, beginning with VEC_BASE(0), by `vecMicro` and `vecNext`. -/
def execVecconv (s : State) : Host.Outcome State Fault Refusal :=
  .next (issueCommand (.vecconv (.base 0)) s.build.hasLanes s)

/-- VEC_BASE(j): BASE[j] <- MemRead(A, L·j, L) (R78). -/
def vecBase (j : Nat) (s : State) : Except Fault State :=
  match loadWindow .a s.memA s.build.n (s.build.l * j) s.build.l with
  | .error f => .error f
  | .ok lane => .ok { s with base := s.base.set j lane }

/-- VEC_ZERO: R[k] <- 0x00 for every k in 0..2N−1 (R79). -/
def vecZero (s : State) : Except Fault State := .ok { s with memR := Memory.zeroed (2 * s.build.n) }

/-- The window update VEC_POS and VEC_NEG share: W <- MemRead(R, w, L), W <- W op BASE[j], MemWrite(R, w, L, W), with
w = L·j + e_t (R80, R81). -/
def vecAcc (op : List Byte → List Byte → List Byte) (t : Fin 20) (j : Nat) (s : State) : Except Fault State :=
  match loadWindow .r s.memR (2 * s.build.n) (s.build.l * j + s.expOf t) s.build.l with
  | .error f => .error f
  | .ok win =>
    match s.base[j]? with
    | none => .error (.engineIndex .base j)
    | some lane =>
      match storeWindow .r s.memR (2 * s.build.n) (s.build.l * j + s.expOf t) (op win lane) with
      | .error f => .error f
      | .ok mem => .ok { s with memR := mem, w := op win lane }

/-- VEC_POS(i, j): the lane is added at the window of the positive exponent e_i (R80). -/
def vecPos (i : Fin 10) (j : Nat) (s : State) : Except Fault State := vecAcc laneAdd (posTerm i) j s

/-- VEC_NEG(i, j): the lane is subtracted at the window of the negative exponent e_(10+i) (R81). -/
def vecNeg (i : Fin 10) (j : Nat) (s : State) : Except Fault State := vecAcc laneSub (negTerm i) j s

/-- VEC_FOLD(j): W <- MemRead(R, L·j, L), U <- MemRead(R, L·j + N, L), MemWrite(C, L·j, L, W −lane U) (R82). -/
def vecFold (j : Nat) (s : State) : Except Fault State :=
  match loadWindow .r s.memR (2 * s.build.n) (s.build.l * j) s.build.l with
  | .error f => .error f
  | .ok lower =>
    match loadWindow .r s.memR (2 * s.build.n) (s.build.l * j + s.build.n) s.build.l with
    | .error f => .error f
    | .ok upper =>
      match storeWindow .c s.memC s.build.n (s.build.l * j) (laneSub lower upper) with
      | .error f => .error f
      | .ok mem => .ok { s with memC := mem, w := lower, u := upper }

/-- The effect of one micro-step of VECCONV (R77). -/
def vecMicro : VecPos → State → Except Fault State
  | .base j, s => vecBase j s
  | .zero, s => vecZero s
  | .pos i j, s => vecPos i j s
  | .neg i j, s => vecNeg i j s
  | .fold j, s => vecFold j s

/-- The micro-step after one of VECCONV's, with M lanes; none after VEC_FOLD(M−1), the last (R77). -/
def vecNext (m : Nat) : VecPos → Option VecPos
  | .base j => if j + 1 < m then some (.base (j + 1)) else some .zero
  | .zero => some (.pos 0 0)
  | .pos i j =>
    if j + 1 < m then some (.pos i (j + 1))
    else if h : i.val + 1 < 10 then some (.pos ⟨i.val + 1, h⟩ 0)
    else some (.neg 0 0)
  | .neg i j =>
    if j + 1 < m then some (.neg i (j + 1))
    else if h : i.val + 1 < 10 then some (.neg ⟨i.val + 1, h⟩ 0)
    else some (.fold 0)
  | .fold j => if j + 1 < m then some (.fold (j + 1)) else none

end Sys2Proof.Machine
end

