-- ==== Sys2Proof/Machine/Engine.lean ====
section
/-! DEFINITION. The ENGINE agent (R13, R16): one micro-step of the running command, and the sequencer's move to the next
one or to completion (R17, R70, R77). -/

namespace Sys2Proof.Machine

/-- SEQ moves to the next micro-step of a running REFCONV, or the command completes (R16, R17). -/
def advanceRef (p : RefPos) (s : State) : State :=
  match refNext s.build.n p with
  | some q => { s with seq := .refconv q }
  | none => complete s

/-- SEQ moves to the next micro-step of a running VECCONV, or the command completes (R16, R17). -/
def advanceVec (p : VecPos) (s : State) : State :=
  match vecNext s.build.m p with
  | some q => { s with seq := .vecconv q }
  | none => complete s

/-- One step of the ENGINE.  "It has a step only while a command is running" (R13): while SEQ = IDLE nothing changes. -/
def engineStep (s : State) : Host.Outcome State Fault Refusal :=
  match s.seq with
  | .idle => .next s
  | .refconv p =>
    match refMicro p s with
    | .error f => .fault f
    | .ok s' => .next (advanceRef p s')
  | .vecconv p =>
    match vecMicro p s with
    | .error f => .fault f
    | .ok s' => .next (advanceVec p s')

/-- `k` steps of the ENGINE, stopping at a fault: the micro-steps in the order of the running command's sequence
(R119). -/
def engineSteps : Nat → State → Host.Outcome State Fault Refusal
  | 0, s => .next s
  | k + 1, s =>
    match engineStep s with
    | .next s' => engineSteps k s'
    | .fault f => .fault f
    | .refused r => .refused r

end Sys2Proof.Machine
end

