-- ==== Sys2Proof/Machine/Bus.lean ====
section
/-! DEFINITION. The HOST agent's transactions on the memory-mapped port: the address map (R34), the conditions of an
ERROR response (R36), the byte order (R37), and the effect of every OKAY write and read (R39, R40). -/

namespace Sys2Proof.Machine

/-- What a mapped offset belongs to (R34). -/
inductive Target where
  | config
  | cmd
  | status
  | errInfo
  | term (t : Fin 20)
  | a (i : Nat)
  | c (i : Nat)
  | r (k : Nat)
  deriving DecidableEq, Repr

/-- The region an offset lies in; none where it is unmapped (R24, R34). -/
def byteTarget (b : Build) (off : Nat) : Option Target :=
  if off < 0x00004 then some .config
  else if off < 0x00008 then some .cmd
  else if off < 0x0000C then some .status
  else if off < 0x00010 then some .errInfo
  else if h : 0x00100 ≤ off ∧ off < 0x00150 then some (.term ⟨(off - 0x00100) / 4, by omega⟩)
  else if 0x10000 ≤ off ∧ off < 0x10000 + b.n then some (.a (off - 0x10000))
  else if 0x20000 ≤ off ∧ off < 0x20000 + b.n then some (.c (off - 0x20000))
  else if 0x30000 ≤ off ∧ off < 0x30000 + 2 * b.n then some (.r (off - 0x30000))
  else none

/-- Every byte off .. off + size − 1 is mapped. -/
def allMapped (b : Build) (off size : Nat) : Bool :=
  (List.range size).all fun m => (byteTarget b (off + m)).isSome

/-- None of the four conditions of R36 holds, so the transaction is answered OKAY. -/
def busOkay (b : Build) (off size : Nat) : Bool :=
  decide (size = 1 ∨ size = 2 ∨ size = 4) && decide (off % size = 0) && allMapped b off size
    && decide (0x10000 ≤ off ∨ size = 4)

/-- What a transaction reaches; none where it is answered ERROR (R36). -/
def busTarget (b : Build) (off size : Nat) : Option Target :=
  if busOkay b off size then byteTarget b off else none

/-- `off = address − BASE_ADDR` (R34); an address below BASE_ADDR has no offset in the aperture. -/
def hostOffset (b : Build) (addr : Nat) : Option Nat :=
  if b.baseAddr ≤ addr then some (addr - b.baseAddr) else none

/-- What an absolute address and a size reach; none where the transaction is answered ERROR (R34, R36). -/
def hostTarget (b : Build) (addr size : Nat) : Option Target :=
  match hostOffset b addr with
  | none => none
  | some off => busTarget b off size

/-- The first `size` bytes of a data word, bits [8m+7 : 8m] being byte m (R37). -/
def dataBytes (size : Nat) (v : Word) : List Byte := (wordBytes v).take size

/-! ### Writes -/

/-- A CMD write of a word that is no command: BUSY_WRITE while a command runs, else ILLEGAL_CMD (R54, R94). -/
def rejectCmd (v : Word) (s : State) : State :=
  if s.busy then raiseError .busyWrite (offsetInfo cmdOffset) s else raiseError .illegalCmd (cmdInfo v) s

/-- A write to TERM[t] at offset `off`: stored while IDLE, else dropped with BUSY_WRITE (R39, R97). -/
def writeTerm (t : Fin 20) (off : Nat) (v : Word) (s : State) : State :=
  if s.busy then raiseError .busyWrite (offsetInfo off) s else { s with term := s.term.set t (Term.ofWord v) }

/-- A write to A[i], A[i+1], … at offset `off`: stored while IDLE, else dropped with BUSY_WRITE (R37, R39, R97). -/
def writeA (i size off : Nat) (v : Word) (s : State) : State :=
  if s.busy then raiseError .busyWrite (offsetInfo off) s
  else { s with memA := s.memA.writeBytes i (dataBytes size v) }

/-- What a turn of the machine comes to: a command word to run by exec, or an outcome. -/
inductive Move where
  | command (i : Instr) (s : State)
  | finished (o : Host.Outcome State Fault Refusal)

/-- BusWrite(off, size, data), with the target its address reaches (R39).  A write answered ERROR changes nothing (R36);
one to CONFIG, ERRINFO, C or R is ignored; one to CMD is decoded (R54). -/
def busWrite (target : Option Target) (off size : Nat) (v : Word) (s : State) : Move :=
  match target with
  | none => .finished (.next (s.answer .errorWrite))
  | some .config => .finished (.next (s.answer .okayWrite))
  | some .cmd =>
    match decode v with
    | .ok i => .command i (s.answer .okayWrite)
    | .error _ => .finished (.next (rejectCmd v (s.answer .okayWrite)))
  | some .status => .finished (.next (writeStatus v (s.answer .okayWrite)))
  | some .errInfo => .finished (.next (s.answer .okayWrite))
  | some (.term t) => .finished (.next (writeTerm t off v (s.answer .okayWrite)))
  | some (.a i) => .finished (.next (writeA i size off v (s.answer .okayWrite)))
  | some (.c _) => .finished (.next (s.answer .okayWrite))
  | some (.r _) => .finished (.next (s.answer .okayWrite))

/-! ### Reads -/

/-- The bytes of a read, each unspecified one taken from the free word at the same place (R40). -/
def fillBytes : List (Option Byte) → List Byte → List Byte
  | some v :: rest, _ :: frees => v :: fillBytes rest frees
  | none :: rest, f :: frees => f :: fillBytes rest frees
  | _, _ => []

/-- A read of a register's word, which has no side effect (R40, R41). -/
def readWord (v : Word) (s : State) : State := s.answer (.okayRead (wordBytes v))

/-- A read of bytes of which `none` are unspecified: a free value is drawn only where there is one (R40). -/
def readMem (bytes : List (Option Byte)) (s : State) : State :=
  if bytes.all Option.isSome then s.answer (.okayRead (fillBytes bytes (wordBytes 0#32)))
  else (s.answer (.okayRead (fillBytes bytes (wordBytes (Config.freeData s.free))))).drawFree

/-- A read of `size` bytes of A, C or R: while a command runs every byte is unspecified; while IDLE a byte nothing has
written since reset is (R40). -/
def readLocal (mem : Memory) (i size : Nat) (s : State) : State :=
  if s.busy then readMem (List.replicate size none) s else readMem (mem.readBytes i size) s

/-- BusRead(off, size), with the target its address reaches (R40); the data of a read answered ERROR is unspecified
(R36). -/
def busRead (target : Option Target) (size : Nat) (s : State) : State :=
  match target with
  | none => (s.answer (.errorRead (Config.freeData s.free))).drawFree
  | some .config => readWord (configWord s.build) s
  | some .cmd => readWord 0#32 s
  | some .status => readWord (statusWord s) s
  | some .errInfo => readWord (errInfoWord s) s
  | some (.term t) =>
    if s.busy then readMem (List.replicate size none) s else readWord s.term[t].toWord s
  | some (.a i) => readLocal s.memA i size s
  | some (.c i) => readLocal s.memC i size s
  | some (.r k) => readLocal s.memR k size s

end Sys2Proof.Machine
end

