-- ==== Sys2Proof/Machine/Agents.lean ====
section
/-! DEFINITION. Which agent moves (R13, R45): the inputs still to come say it, and where none is left the ENGINE moves,
so that an accepted command completes (R17, R121). -/

namespace Sys2Proof.Machine

/-- One event of the global order (R45): the next input, or a micro-step of the ENGINE. -/
def nextMove (s : State) : Move :=
  match s.inputs with
  | [] => .finished (engineStep s)
  | .engine :: rest => .finished (engineStep { s with inputs := rest })
  | .reset :: rest => .finished (.next (resetBlock { s with inputs := rest }))
  | .read addr size :: rest =>
    .finished (.next (busRead (hostTarget s.build addr size) size { s with inputs := rest }))
  | .write addr size v :: rest =>
    busWrite (hostTarget s.build addr size) (addr - s.build.baseAddr) size v { s with inputs := rest }

/-- The inputs with a CMD write of the word `w` before them: one aligned 32-bit write at offset 0x00004 (R50), the
bits of the word above `nbits` zero. -/
def issueInput (b : Build) (nbits w : Nat) : Input :=
  .write (b.baseAddr + cmdOffset) 4 (BitVec.ofNat 32 (w % 2 ^ nbits))

end Sys2Proof.Machine
end

