-- ==== Sys2Proof/Machine/Dispatch.lean ====
section
/-! DEFINITION. One arm per command. -/

namespace Sys2Proof.Machine

-- Each command's meaning, one call an arm.
def exec (i : Instr) (s : State) : Host.Outcome State Fault Refusal :=
  match i with
  | .refconv => Sys2Proof.Machine.execRefconv s
  | .vecconv => Sys2Proof.Machine.execVecconv s

end Sys2Proof.Machine
end

