-- ==== Sys2Proof/Machine/Step.lean ====
section
/-! DEFINITION. One step of the block: the next event, with a command word run by exec. -/

namespace Sys2Proof.Machine

/-- One event of the global order (R45): a command the host writes to CMD is exec of that command (R50, R54); every
other event is what `nextMove` says. -/
def step (s : State) : Host.Outcome State Fault Refusal :=
  match nextMove s with
  | .command i s' => exec i s'
  | .finished o => o

/-- The state with a write of the command word to CMD as the very next input (log entry 8): the block fetches nothing,
and a command is one write to CMD (R15, R50). -/
def State.withFetchWord (s : State) (nbits w : Nat) : State :=
  { s with inputs := issueInput s.build nbits w :: s.inputs }

end Sys2Proof.Machine
end

