-- ==== Sys2Proof/Machine/HostScript.lean ====
section
/-! DEFINITION. The host's script notation (R61) as abstract syntax: its basic operations, its pseudo-instructions with
their exact expansions, and a host that runs a script against the block in closed loop (R13, R47). -/

namespace Sys2Proof.Machine

/-- A line of a host script: one bus transaction, or a label (R61). -/
inductive HostOp where
  /-- `rd8 off`, `rd16 off`, `rd32 off`: BusRead(off, 1/2/4); the data goes to `$v`. -/
  | rd (off size : Nat)
  /-- `wr8 off, d`, `wr16 off, d`, `wr32 off, d`: BusWrite(off, 1/2/4, d). -/
  | wr (off size : Nat) (d : Word)
  /-- `bnz32 off, mask, label`: BusRead(off, 4), then a jump where `data & mask ≠ 0`. -/
  | bnz32 (off : Nat) (mask : Word) (label : Nat)
  /-- `expect off, d`: `rd32 off`, its data to `$v`, with the harness's check that the data equals d. -/
  | expect (off : Nat) (d : Word)
  /-- `label:`, a position in the script; no transaction. -/
  | label (name : Nat)
  deriving DecidableEq, Repr

/-- A pseudo-instruction of the script notation (R61).  R61 gives `lda i, w` its meaning for i a multiple of 4 only and says
nothing of another i: the model expands it alike, and the bus answers that misaligned write ERROR (R36; log entry 14,
DESIGN CHOICE). -/
inductive Pseudo where
  | refconv
  | vecconv
  /-- `term t, e, +` (negative = false) or `term t, e, -` (negative = true). -/
  | term (t : Fin 20) (e : BitVec 16) (negative : Bool)
  | poll
  | clrst
  | lda (i : Nat) (w : Word)
  | rdc (i : Nat)
  | rdr (k : Nat)
  deriving DecidableEq, Repr

/-- The expansion of a pseudo-instruction into basic operations, with `fresh` the label a `poll` stands on (R61). -/
def Pseudo.expand (fresh : Nat) : Pseudo → List HostOp
  | .refconv => [.wr 0x00004 4 0x00000001#32]
  | .vecconv => [.wr 0x00004 4 0x00000002#32]
  | .term t e false => [.wr (0x00100 + 4 * t.val) 4 (e.setWidth 32)]
  | .term t e true => [.wr (0x00100 + 4 * t.val) 4 (0x80000000#32 + e.setWidth 32)]
  | .poll => [.label fresh, .bnz32 0x00008 0x00000001#32 fresh]
  | .clrst => [.wr 0x00008 4 0x00000006#32]
  | .lda i w => [.wr (0x10000 + i) 4 w]
  | .rdc i => [.rd (0x20000 + i) 4]
  | .rdr k => [.rd (0x30000 + k) 4]

/-- A line of a script as it is written: a basic operation, or a pseudo-instruction (R61). -/
inductive ScriptLine where
  | op (o : HostOp)
  | pseudo (p : Pseudo)
  deriving DecidableEq, Repr

/-- The first number above every label a written line stands on or jumps to. -/
def ScriptLine.labelBound : ScriptLine → Nat
  | .op (.rd _ _) => 0
  | .op (.wr _ _ _) => 0
  | .op (.bnz32 _ _ name) => name + 1
  | .op (.expect _ _) => 0
  | .op (.label name) => name + 1
  | .pseudo _ => 0

/-- The first number that is no label of the script. -/
def firstFresh : List ScriptLine → Nat
  | [] => 0
  | line :: rest => max line.labelBound (firstFresh rest)

/-- The lines expanded in order, each pseudo-instruction with the next unused number as its fresh label. -/
def assembleFrom : Nat → List ScriptLine → List HostOp
  | _, [] => []
  | fresh, .op o :: rest => o :: assembleFrom fresh rest
  | fresh, .pseudo p :: rest => p.expand fresh ++ assembleFrom (fresh + 1) rest

/-- A script as basic operations; every `poll` stands on "a fresh label L" (R61). -/
def assemble (src : List ScriptLine) : List HostOp := assembleFrom (firstFresh src) src

/-- The bus transaction of a line; a label has none. -/
def HostOp.input (b : Build) : HostOp → Option Input
  | .rd off size => some (.read (b.baseAddr + off) size)
  | .wr off size d => some (.write (b.baseAddr + off) size d)
  | .bnz32 off _ _ => some (.read (b.baseAddr + off) 4)
  | .expect off _ => some (.read (b.baseAddr + off) 4)
  | .label _ => none

/-- A host running a script: its next line, its scratch value `$v`, and whether every `expect` so far agreed. -/
structure ScriptHost where
  lines : List HostOp
  next : Nat
  v : Nat
  passed : Bool
  deriving DecidableEq, Repr

/-- One host and one block. -/
structure Platform where
  host : ScriptHost
  block : State
  deriving DecidableEq, Repr

/-- The number a list of bytes holds, the lowest address first (R37). -/
def bytesNat : List Byte → Nat
  | [] => 0
  | v :: rest => v.toNat + 256 * bytesNat rest

/-- The data a read's response carries; on ERROR it is the unspecified word of R36 (log entry 9). -/
def responseData : Option Response → Nat
  | some (.okayRead data) => bytesNat data
  | some (.errorRead data) => data.toNat
  | some .okayWrite => 0
  | some .errorWrite => 0
  | none => 0

/-- The line a jump to a label goes to: the label's own line.  R61 does not say what a label means that stands on two lines
or on none: the model takes the first of two, and a jump to none leaves the script, which stops (log entry 14, DESIGN
CHOICE). -/
def labelLine (lines : List HostOp) (name : Nat) : Nat := lines.findIdx fun op => decide (op = .label name)

/-- What the host does with a transaction's response (R61).  `expect` is `rd32`, so its data goes to `$v` too; `bnz32` only
tests its data. -/
def ScriptHost.take (h : ScriptHost) (op : HostOp) (data : Nat) : ScriptHost :=
  match op with
  | .rd _ _ => { h with next := h.next + 1, v := data }
  | .wr _ _ _ => { h with next := h.next + 1 }
  | .bnz32 _ mask name =>
    if BitVec.ofNat 32 data &&& mask ≠ 0#32 then { h with next := labelLine h.lines name }
    else { h with next := h.next + 1 }
  | .expect _ d => { h with next := h.next + 1, v := data, passed := h.passed && decide (data = d.toNat) }
  | .label _ => { h with next := h.next + 1 }

/-- The host performs its next line: its transaction is the block's next event (R42, R45). -/
def Platform.hostTurn (p : Platform) : Host.Outcome Platform Fault Refusal :=
  match p.host.lines[p.host.next]? with
  | none => .next p
  | some op =>
    match op.input p.block.build with
    | none => .next { p with host := p.host.take op 0 }
    | some input =>
      match step { p.block with inputs := input :: p.block.inputs } with
      | .next block => .next { host := p.host.take op (responseData block.response), block := block }
      | .fault f => .fault f
      | .refused r => .refused r

/-- The ENGINE performs its next micro-step, if it has one (R13). -/
def Platform.engineTurn (p : Platform) : Host.Outcome Platform Fault Refusal :=
  match step { p.block with inputs := .engine :: p.block.inputs } with
  | .next block => .next { p with block := block }
  | .fault f => .fault f
  | .refused r => .refused r

/-! ### Which agent moves, in closed loop (R45, R121) -/

/-- The agents that take turns (R13). -/
inductive Turn where
  | host
  | engine
  deriving DecidableEq, Repr

/-- One turn of an agent. -/
def Platform.turn (p : Platform) : Turn → Host.Outcome Platform Fault Refusal
  | .host => p.hostTurn
  | .engine => p.engineTurn

/-- The turns of a list in order, stopping at a fault. -/
def Platform.turns : List Turn → Platform → Host.Outcome Platform Fault Refusal
  | [], p => .next p
  | a :: rest, p =>
    match p.turn a with
    | .next q => Platform.turns rest q
    | .fault f => .fault f
    | .refused r => .refused r

/-- The first `n` turns of an endless schedule. -/
def firstTurns (schedule : Nat → Turn) : Nat → List Turn
  | 0 => []
  | n + 1 => schedule 0 :: firstTurns (fun k => schedule (k + 1)) n

/-- The agent always has another turn to come: weak fairness to it (R121). -/
def FairTo (agent : Turn) (schedule : Nat → Turn) : Prop := ∀ n, ∃ m, n ≤ m ∧ schedule m = agent

end Sys2Proof.Machine
end

