-- ==== Sys2Proof/Safety.lean ====
section
/-! DEFINITION. What counts as a safe state and a safe run, and the closed form of a command's result (R84), in the terms
the statements use. -/

namespace Sys2Proof.Machine

/-! ### The invariant -/

/-- The position of a running command lies in its sequence (R70, R77). -/
def Seq.inSequence (b : Build) : Seq → Prop
  | .idle => True
  | .refconv .zero => True
  | .refconv (.acc _ j) => j < b.n
  | .refconv (.fold i) => i < b.n
  | .vecconv (.base j) => j < b.m
  | .vecconv .zero => True
  | .vecconv (.pos _ j) => j < b.m
  | .vecconv (.neg _ j) => j < b.m
  | .vecconv (.fold j) => j < b.m

/-- The command running is a VECCONV. -/
def Seq.isVec : Seq → Bool
  | .idle => false
  | .refconv _ => false
  | .vecconv _ => true

/-- The running command has zeroed R (R71, R79). -/
def Seq.afterZero : Seq → Bool
  | .idle => false
  | .refconv .zero => false
  | .refconv (.acc _ _) => true
  | .refconv (.fold _) => true
  | .vecconv (.base _) => false
  | .vecconv .zero => false
  | .vecconv (.pos _ _) => true
  | .vecconv (.neg _ _) => true
  | .vecconv (.fold _) => true

/-- How many of the lanes 0, 1, … of BASE the running VECCONV has loaded: `j` before VEC_BASE(j), all M after the last
one (R77, R78). -/
def Seq.lanesLoaded (b : Build) : Seq → Nat
  | .idle => 0
  | .refconv _ => 0
  | .vecconv (.base j) => j
  | .vecconv .zero => b.m
  | .vecconv (.pos _ _) => b.m
  | .vecconv (.neg _ _) => b.m
  | .vecconv (.fold _) => b.m

/-- A, R and C hold bytes only at their own indexes, listed once each in rising order (R18, R20, R21). -/
structure State.MemoryShape (s : State) : Prop where
  aWf : s.memA.wf
  aWithin : s.memA.within s.build.n
  rWf : s.memR.wf
  rWithin : s.memR.within (2 * s.build.n)
  cWf : s.memC.wf
  cWithin : s.memC.within s.build.n

/-- BASE is M registers of L bytes where N mod L = 0 and none otherwise, and W and U are L bytes each (R22, R23). -/
structure State.LaneShape (s : State) : Prop where
  baseCount : s.base.length = if s.build.hasLanes then s.build.m else 0
  baseWidth : ∀ lane ∈ s.base, lane.length = s.build.l
  wWidth : s.w.length = s.build.l
  uWidth : s.u.length = s.build.l

/-- The offset of a write that BUSY_WRITE can name: CMD, a TERM word or a byte of A (R97). -/
def busyWriteOffset (b : Build) (off : Nat) : Prop :=
  off = 0x00004 ∨ (0x00100 ≤ off ∧ off < 0x00150 ∧ off % 4 = 0) ∨ (0x10000 ≤ off ∧ off < 0x10000 + b.n)

/-- What ERRINFO holds beside each error code (R93). -/
def errInfoMeans (b : Build) (info : BitVec 18) : ErrCode → Prop
  | .none => info = 0#18
  | .illegalCmd => True
  | .expRange => info.toNat < 20
  | .unsupported => info = 0#18
  | .busyWrite => busyWriteOffset b info.toNat

/-- The error record: ERRCODE is 0 exactly while ERR = 0, and ERRINFO is what the code says (R27, R29, R93). -/
structure State.ErrorRecord (s : State) : Prop where
  codeNone : s.errCode = .none ↔ s.err = false
  info : errInfoMeans s.build s.errInfo s.errCode

/-- What holds while a command runs: it was accepted with every exponent in range (R52), in a build that has it (R75),
DONE is 0 since its acceptance (R55), its position lies in its sequence, R is zeroed once the sequence has passed the
zeroing (R71, R79), and the lanes loaded so far are A's (R78). -/
structure State.Running (s : State) : Prop where
  inSequence : s.seq.inSequence s.build
  exps : s.expsInRange
  hasLanes : s.seq.isVec = true → s.build.hasLanes = true
  notDone : s.done = false
  scratch : s.seq.afterZero = true → s.memR.full (2 * s.build.n)
  lanes : ∀ j < s.seq.lanesLoaded s.build, s.base[j]?.map (List.map some) = some (s.memA.readBytes (s.build.l * j) s.build.l)

/-- The invariant of the block: a legal build, the shapes of the memories and the vector registers, the error record,
and what holds while a command runs. -/
structure State.Inv (s : State) : Prop where
  build : s.build.legal = true
  memories : s.MemoryShape
  lanes : s.LaneShape
  errors : s.ErrorRecord
  running : s.seq ≠ .idle → s.Running

/-- Every byte of A has been written since reset, as R114 asks of the host before a command. -/
abbrev State.aWritten (s : State) : Prop := s.memA.full s.build.n

/-! ### A whole command -/

end Sys2Proof.Machine

namespace Sys2Proof

/-- The build has the command: VECCONV needs N mod L = 0 (R74, R75). -/
def Instr.supported (b : Build) : Instr → Bool
  | .refconv => true
  | .vecconv => b.hasLanes

/-- The SEQ a command is accepted into: its first micro-step (R55). -/
def Instr.first : Instr → Machine.Seq
  | .refconv => .refconv .zero
  | .vecconv => .vecconv (.base 0)

/-- The number of micro-steps of a command: 1 + 21·N for REFCONV and 22·M + 1 for VECCONV (R70, R77, R121). -/
def Instr.microSteps (b : Build) : Instr → Nat
  | .refconv => 1 + 21 * b.n
  | .vecconv => 22 * b.m + 1

end Sys2Proof

namespace Sys2Proof.Machine

/-- A state in which the command `i` is accepted and completes with a defined result (R54, R114): a state of the
invariant, IDLE, every exponent below N, every byte of A written, in a build that has the command. -/
structure State.Ready (i : Instr) (s : State) : Prop where
  inv : s.Inv
  idle : s.seq = .idle
  exps : s.expsInRange
  aWritten : s.aWritten
  supported : i.supported s.build = true

/-- `u` is the state in which the command `i`, issued in `s`, completes: the state exec leaves, after all the command's
micro-steps (R69, R76). -/
def Completes (i : Instr) (s u : State) : Prop :=
  ∃ t, exec i s = .next t ∧ engineSteps (i.microSteps s.build) t = .next u

/-! ### The closed form (R84) -/

/-- The dense coefficient `a_j = sext_8(A[j])` (R62); it is used only of a byte that has been written. -/
def State.coeff (s : State) (j : Nat) : Int := sext8 ((s.memA.read j).getD 0#8)

end Sys2Proof.Machine

namespace Sys2Proof

/-- The sign a command gives term t (R52). -/
def Instr.sign : Instr → Machine.State → Fin 20 → Int
  | .refconv, s, t => s.signOf t
  | .vecconv, _, t => Machine.positionSign t

end Sys2Proof

namespace Sys2Proof.Machine

/-- The sum of R84 for R[k]: over the terms t with 0 ≤ k − e_t ≤ N − 1, of s_t · a_(k − e_t). -/
def scratchSum (n : Nat) (e : Fin 20 → Nat) (sg : Fin 20 → Int) (a : Nat → Int) (k : Nat) : Int :=
  ∑ t : Fin 20, if e t ≤ k ∧ k - e t < n then sg t * a (k - e t) else 0

/-- contrib(e, s, i) of R84: s · a_(i − e) where i ≥ e, and −s · a_(i − e + N) where i < e. -/
def contrib (n : Nat) (a : Nat → Int) (e : Nat) (sg : Int) (i : Nat) : Int :=
  if e ≤ i then sg * a (i - e) else -sg * a (i + n - e)

/-- The sum of R84 for C[i]: over all the terms, of contrib(e_t, s_t, i). -/
def resultSum (n : Nat) (e : Fin 20 → Nat) (sg : Fin 20 → Int) (a : Nat → Int) (i : Nat) : Int :=
  ∑ t : Fin 20, contrib n a (e t) (sg t) i

/-- R[k] of R84 for the command `i` issued in `s`. -/
def State.scratchOf (s : State) (i : Instr) (k : Nat) : Int := scratchSum s.build.n s.expOf (i.sign s) s.coeff k

/-- C[k] of R84 for the command `i` issued in `s`. -/
def State.resultOf (s : State) (i : Instr) (k : Nat) : Int := resultSum s.build.n s.expOf (i.sign s) s.coeff k

/-- `u` holds what R84 says the command `i`, issued in `s`, leaves in R and C. -/
structure HoldsResult (i : Instr) (s u : State) : Prop where
  scratch : ∀ k < 2 * s.build.n, u.memR.read k = some (BitVec.ofInt 8 (s.scratchOf i k))
  result : ∀ k < s.build.n, u.memC.read k = some (BitVec.ofInt 8 (s.resultOf i k))

/-- A canonical table: SIGN = 0 for t ≤ 9 and SIGN = 1 for t ≥ 10 (R88). -/
def State.canonical (s : State) : Prop := ∀ t : Fin 20, s.term[t].sign = decide (10 ≤ t.val)

/-! ### What the ENGINE works on -/

/-- The part of the state the ENGINE reads and writes (R43): a host transaction while a command runs changes none of it
(R39). -/
def State.engineView (s : State) : Build × Seq × Vector Term 20 × (Memory × Memory × Memory) × List (List Byte) × List Byte × List Byte :=
  (s.build, s.seq, s.term, (s.memA, s.memR, s.memC), s.base, s.w, s.u)

/-- What the host can know of the block while a command runs (R30): its build, that it runs, STATUS and ERRINFO. -/
def State.busyView (s : State) : Build × Bool × Bool × Bool × ErrCode × BitVec 18 :=
  (s.build, s.busy, s.done, s.err, s.errCode, s.errInfo)

end Sys2Proof.Machine
end

