-- ==== Sys2Proof/Certificates/Slice0/Obligations.lean ====
section
/-! DEFINITION. The statements for the provers, one `def Obligations.<Name> : Prop` each. -/

open Sys2Proof Sys2Proof.Machine

/-! ### Encoding and operand formats -/

/-- R53, with R56: 0x00000001 decodes to REFCONV, 0x00000002 to VECCONV, and every other word is illegal. -/
def Obligations.OnlyTwoWordsAreCommands : Prop :=
  ∀ v : Word,
    (decode v = .ok .refconv ↔ v = 0x00000001#32) ∧ (decode v = .ok .vecconv ↔ v = 0x00000002#32) ∧
    ((∃ r, decode v = .error r) ↔ v ≠ 0x00000001#32 ∧ v ≠ 0x00000002#32)

/-- Every command word of the table of spec/95_test_vectors.md section 2.2 decodes to what it stands for, as a word and as
its four bytes, the lowest address first (R37). -/
def Obligations.SpecWordsDecode : Prop :=
  decode 0x00000001#32 = .ok .refconv ∧ decodeBytes [0x01#8, 0x00#8, 0x00#8, 0x00#8] = .ok .refconv ∧
  decode 0x00000002#32 = .ok .vecconv ∧ decodeBytes [0x02#8, 0x00#8, 0x00#8, 0x00#8] = .ok .vecconv ∧
  decode 0x00000000#32 = .error (.illegalOp 0x0#4) ∧
  decodeBytes [0x00#8, 0x00#8, 0x00#8, 0x00#8] = .error (.illegalOp 0x0#4) ∧
  decode 0x00000003#32 = .error (.illegalOp 0x3#4) ∧
  decodeBytes [0x03#8, 0x00#8, 0x00#8, 0x00#8] = .error (.illegalOp 0x3#4) ∧
  decode 0x0000000F#32 = .error (.illegalOp 0xF#4) ∧
  decodeBytes [0x0F#8, 0x00#8, 0x00#8, 0x00#8] = .error (.illegalOp 0xF#4) ∧
  decode 0x00000011#32 = .error .reservedBits ∧
  decodeBytes [0x11#8, 0x00#8, 0x00#8, 0x00#8] = .error .reservedBits ∧
  decode 0x80000001#32 = .error .reservedBits ∧
  decodeBytes [0x01#8, 0x00#8, 0x00#8, 0x80#8] = .error .reservedBits ∧
  decode 0x00012345#32 = .error .reservedBits ∧
  decodeBytes [0x45#8, 0x23#8, 0x01#8, 0x00#8] = .error .reservedBits ∧
  decode 0xFFFFFFFF#32 = .error .reservedBits ∧
  decodeBytes [0xFF#8, 0xFF#8, 0xFF#8, 0xFF#8] = .error .reservedBits

/-- Decoding an encoded command gives it back, from its word, its bytes and the table's numbering (R50, R53, R57). -/
def Obligations.DecodeOfEncode : Prop :=
  ∀ i : Instr, i.wellFormed = true →
    decode (encode i) = .ok i ∧ decodeBytes (wordBytes (encode i)) = .ok i ∧
    decodeTableWord 32 (encode i).toNat = some i

/-- R51, R39: a TERM word stores EXP = [15:0] and SIGN = [31], reads bits [30:16] as 0, and what is read back is the
written word masked with 0x8000FFFF. -/
def Obligations.TermWordKeepsExpAndSign : Prop :=
  (∀ v : Word, (Term.ofWord v).exp.toNat = v.toNat % 65536 ∧ (Term.ofWord v).sign = v.getLsbD 31 ∧
    (Term.ofWord v).toWord = v &&& 0x8000FFFF#32) ∧
  (∀ t : Term, t.toWord = (if t.sign then 0x80000000#32 else 0x00000000#32) + t.exp.setWidth 32 ∧
    Term.ofWord t.toWord = t)

/-! ### Coefficient arithmetic -/

/-- R64: add8 and sub8 are the integer sum and difference modulo 256. -/
def Obligations.ByteArithmeticWraps : Prop :=
  (∀ (x : Byte) (d : Int), ((add8 x d).toNat : Int) = ((x.toNat : Int) + d) % 256) ∧
  (∀ x y : Byte, ((sub8 x y).toNat : Int) = ((x.toNat : Int) - (y.toNat : Int)) % 256)

/-- R62: a byte read as a coefficient is its two's-complement value, in [−128, 127] (log entry 13, PRESUMED).  Its product
with the sign −1 is in [−127, 128], R63's range, and with the sign +1 in [−128, 127]; so with either sign it is in
R64's range [−128, 128] (log entry 21, DEDUCED). -/
def Obligations.CoefficientsAreTwosComplement : Prop :=
  ∀ v : Byte, sext8 v = (if v.toNat < 128 then (v.toNat : Int) else (v.toNat : Int) - 256) ∧
    (-128 ≤ sext8 v ∧ sext8 v ≤ 127) ∧ (-127 ≤ -1 * sext8 v ∧ -1 * sext8 v ≤ 128) ∧
    (-128 ≤ 1 * sext8 v ∧ 1 * sext8 v ≤ 127) ∧
    ∀ sg : Int, sg = 1 ∨ sg = -1 → -128 ≤ sg * sext8 v ∧ sg * sext8 v ≤ 128

/-- R65: a lane add or subtract acts on each element separately, whatever the lane width, and its result is the same
whether the second vector's bytes are read as unsigned or as signed. -/
def Obligations.LanesActPerElement : Prop :=
  ∀ (x y : List Byte), x.length = y.length →
    (laneAdd x y).length = x.length ∧ (laneSub x y).length = x.length ∧
    ∀ (k : Nat) (a b : Byte), x[k]? = some a → y[k]? = some b →
      (laneAdd x y)[k]? = some (BitVec.ofInt 8 ((a.toNat : Int) + (b.toNat : Int))) ∧
      (laneAdd x y)[k]? = some (BitVec.ofInt 8 ((a.toNat : Int) + b.toInt)) ∧
      (laneSub x y)[k]? = some (BitVec.ofInt 8 ((a.toNat : Int) - (b.toNat : Int))) ∧
      (laneSub x y)[k]? = some (BitVec.ofInt 8 ((a.toNat : Int) - b.toInt))

/-! ### Step and its agents -/

/-- A step runs the decoded command (R50, R54): where the next input writes the word `v` to CMD and `v` decodes to `i`,
the step is exec of `i` at the state with the input taken and the write answered OKAY.  `withFetchWord` places exactly
such an input (log entry 8, DESIGN CHOICE). -/
def Obligations.StepRunsTheIssuedCommand : Prop :=
  (∀ (s : State) (v : Word) (i : Instr) (rest : List Input),
    s.inputs = .write (s.build.baseAddr + 0x00004) 4 v :: rest → decode v = .ok i → i.wellFormed = true →
    step s = exec i { s with inputs := rest, response := some .okayWrite }) ∧
  (∀ (s : State) (w : Nat) (i : Instr), decodeTableWord 32 w = some i →
    step (s.withFetchWord 32 w) = exec i { s with response := some .okayWrite })

/-- R13, R45 and log entry 3 (DESIGN CHOICE): an `engine` input, or no input at all, is a step of the ENGINE, which does
nothing while SEQ = IDLE. -/
def Obligations.StepGivesTheEngineItsTurn : Prop :=
  (∀ s : State, s.inputs = [] → step s = engineStep s) ∧
  (∀ (s : State) (rest : List Input), s.inputs = .engine :: rest → step s = engineStep { s with inputs := rest }) ∧
  (∀ s : State, s.seq = .idle → engineStep s = .next s)

/-- No step changes N, L or BASE_ADDR (R7, R8, R34: build and platform parameters). -/
def Obligations.BuildNeverChanges : Prop :=
  ∀ s t : State, step s = .next t → t.build = s.build

/-! ### Issuing a command -/

/-- R55: an accepted command moves SEQ to its first micro-step and DONE to 0, BUSY reads 1 from then on, and nothing else
changes. -/
def Obligations.AcceptedCommandStarts : Prop :=
  ∀ s : State, s.seq = .idle → (∀ t : Fin 20, s.expOf t < s.build.n) →
    exec .refconv s = .next { s with seq := .refconv .zero, done := false } ∧
    (s.build.n % s.build.l = 0 → exec .vecconv s = .next { s with seq := .vecconv (.base 0), done := false }) ∧
    (∀ (q : Seq), q ≠ .idle → (statusWord { s with seq := q, done := false }).getLsbD 0 = true)

/-- R54: the checks of a CMD write, in their order; the first that fails records its error and ends the write. -/
def Obligations.CmdWriteChecksInOrder : Prop :=
  ∀ (s : State) (v : Word) (rest : List Input), s.inputs = .write (s.build.baseAddr + 0x00004) 4 v :: rest →
    (s.seq ≠ .idle →
      step s = .next (raiseError .busyWrite 0x00004#18 { s with inputs := rest, response := some .okayWrite })) ∧
    (s.seq = .idle → (v.extractLsb' 4 28 ≠ 0#28 ∨ (v.extractLsb' 0 4 ≠ 1#4 ∧ v.extractLsb' 0 4 ≠ 2#4)) →
      step s = .next (raiseError .illegalCmd (v.extractLsb' 0 18)
        { s with inputs := rest, response := some .okayWrite })) ∧
    (s.seq = .idle → v = 0x00000002#32 → s.build.n % s.build.l ≠ 0 →
      step s = .next (raiseError .unsupported 0#18 { s with inputs := rest, response := some .okayWrite })) ∧
    (∀ t : Fin 20, s.seq = .idle → (v = 0x00000001#32 ∨ (v = 0x00000002#32 ∧ s.build.n % s.build.l = 0)) →
      s.build.n ≤ s.term[t].exp.toNat → (∀ t' < t, s.term[t'].exp.toNat < s.build.n) →
      step s = .next (raiseError .expRange (BitVec.ofNat 18 t.val)
        { s with inputs := rest, response := some .okayWrite })) ∧
    (s.seq = .idle → (v = 0x00000001#32 ∨ (v = 0x00000002#32 ∧ s.build.n % s.build.l = 0)) →
      (∀ t : Fin 20, s.term[t].exp.toNat < s.build.n) →
      step s = .next { s with inputs := rest, response := some .okayWrite, done := false,
                              seq := if v = 0x00000001#32 then .refconv .zero else .vecconv (.base 0) })

/-- The frame of both commands (R55, R100): exec always answers a next state in which A, TERM, R, C, BASE, W, U, the
build and the model's own fields are as before; either SEQ and DONE are too, or the command is accepted and the error
record is as before. -/
def Obligations.CommandFrame : Prop :=
  ∀ (i : Instr) (s : State), ∃ t, exec i s = .next t ∧
    t.memA = s.memA ∧ t.term = s.term ∧ t.memR = s.memR ∧ t.memC = s.memC ∧ t.base = s.base ∧ t.w = s.w ∧ t.u = s.u ∧
    t.build = s.build ∧ t.inputs = s.inputs ∧ t.response = s.response ∧ t.free = s.free ∧
    ((t.seq = s.seq ∧ t.done = s.done) ∨
      (s.seq = .idle ∧ t.seq = i.first ∧ t.done = false ∧ t.err = s.err ∧ t.errCode = s.errCode ∧
        t.errInfo = s.errInfo))

/-! ### Errors and STATUS -/

/-- R98: raise Error records the first error since ERR was last 0, and changes nothing else. -/
def Obligations.RaiseErrorKeepsTheFirst : Prop :=
  ∀ (code : ErrCode) (info : BitVec 18) (s : State),
    (s.err = false → raiseError code info s = { s with err := true, errCode := code, errInfo := info }) ∧
    (s.err = true → raiseError code info s = s)

/-- R27's layout: BUSY in bit 0, DONE in bit 1, ERR in bit 2, ERRCODE in [7:4], every other bit 0; and R93's codes. -/
def Obligations.StatusWordLayout : Prop :=
  ∀ s : State, (statusWord s).toNat =
    (if s.seq = .idle then 0 else 1) + 2 * s.done.toNat + 4 * s.err.toNat + 16 *
      (match s.errCode with
       | .none => 0
       | .illegalCmd => 1
       | .expRange => 2
       | .unsupported => 3
       | .busyWrite => 4)

/-- R27: a host write of `v` to STATUS clears DONE where v[1] = 1 and ERR, ERRCODE and ERRINFO where v[2] = 1, in every
sequencer state, ignores every other bit, and records no error. -/
def Obligations.StatusWriteOneToClear : Prop :=
  ∀ (s : State) (v : Word) (rest : List Input), s.inputs = .write (s.build.baseAddr + 0x00008) 4 v :: rest →
    step s = .next { s with
      inputs := rest, response := some .okayWrite,
      done := if v.getLsbD 1 then false else s.done,
      err := if v.getLsbD 2 then false else s.err,
      errCode := if v.getLsbD 2 then .none else s.errCode,
      errInfo := if v.getLsbD 2 then 0#18 else s.errInfo }

/-- R97: while a command runs, an OKAY write to CMD, to a TERM word or to bytes of A is dropped and records BUSY_WRITE
with its offset; writes to CONFIG, ERRINFO, C and R are ignored and one to STATUS is performed, none of them recording
an error. -/
def Obligations.BusyWriteIsDropped : Prop :=
  ∀ (s : State) (off size : Nat) (v : Word) (rest : List Input), s.build.legal = true → s.seq ≠ .idle →
    s.inputs = .write (s.build.baseAddr + off) size v :: rest →
    (off = 0x00004 → size = 4 →
      step s = .next (raiseError .busyWrite (BitVec.ofNat 18 off) { s with inputs := rest, response := some .okayWrite })) ∧
    (∀ t : Fin 20, off = 0x00100 + 4 * t.val → size = 4 →
      step s = .next (raiseError .busyWrite (BitVec.ofNat 18 off) { s with inputs := rest, response := some .okayWrite })) ∧
    ((size = 1 ∨ size = 2 ∨ size = 4) → off % size = 0 → 0x10000 ≤ off → off + size ≤ 0x10000 + s.build.n →
      step s = .next (raiseError .busyWrite (BitVec.ofNat 18 off) { s with inputs := rest, response := some .okayWrite })) ∧
    ((off = 0x00000 ∨ off = 0x0000C) → size = 4 →
      step s = .next { s with inputs := rest, response := some .okayWrite }) ∧
    ((size = 1 ∨ size = 2 ∨ size = 4) → off % size = 0 →
      ((0x20000 ≤ off ∧ off + size ≤ 0x20000 + s.build.n) ∨
        (0x30000 ≤ off ∧ off + size ≤ 0x30000 + 2 * s.build.n)) →
      step s = .next { s with inputs := rest, response := some .okayWrite }) ∧
    (off = 0x00008 → size = 4 →
      step s = .next { s with
        inputs := rest, response := some .okayWrite,
        done := if v.getLsbD 1 then false else s.done,
        err := if v.getLsbD 2 then false else s.err,
        errCode := if v.getLsbD 2 then .none else s.errCode,
        errInfo := if v.getLsbD 2 then 0#18 else s.errInfo })

/-- A whole-machine rule (R28, R17, R55, R98): DONE goes from 0 to 1 only where a running command becomes IDLE, at no
host transaction; ERR goes from 0 to 1 only at a host write. -/
def Obligations.FlagsAreSetOnlyByTheirEvents : Prop :=
  ∀ s t : State, step s = .next t →
    (s.done = false → t.done = true →
      s.seq ≠ .idle ∧ t.seq = .idle ∧ (s.inputs = [] ∨ ∃ rest, s.inputs = .engine :: rest)) ∧
    (s.err = false → t.err = true → ∃ addr size v rest, s.inputs = .write addr size v :: rest)

/-! ### The bus -/

/-- R36: the four conditions of an ERROR response; such a transaction changes no state of the block (after a read, only the
model's own count of free values can differ, log entry 6), and every other transaction is answered OKAY. -/
def Obligations.BusErrorChangesNothing : Prop :=
  ∀ (s : State) (off size : Nat) (rest : List Input),
    let mapped := fun o : Nat => o < 0x10 ∨ (0x100 ≤ o ∧ o < 0x150) ∨ (0x10000 ≤ o ∧ o < 0x10000 + s.build.n) ∨
      (0x20000 ≤ o ∧ o < 0x20000 + s.build.n) ∨ (0x30000 ≤ o ∧ o < 0x30000 + 2 * s.build.n)
    let bad := ¬(size = 1 ∨ size = 2 ∨ size = 4) ∨ off % size ≠ 0 ∨ (∃ m < size, ¬mapped (off + m)) ∨
      (off < 0x10000 ∧ size ≠ 4)
    (∀ v, s.inputs = .write (s.build.baseAddr + off) size v :: rest →
      (bad → step s = .next { s with inputs := rest, response := some .errorWrite }) ∧
      (¬bad → ∃ t, step s = .next t ∧ t.response = some .okayWrite)) ∧
    (s.inputs = .read (s.build.baseAddr + off) size :: rest →
      (bad → ∃ t data, step s = .next t ∧
        t = { s with inputs := rest, response := some (.errorRead data), free := t.free }) ∧
      (¬bad → ∃ t data, step s = .next t ∧ t.response = some (.okayRead data) ∧ data.length = size))

/-- The block decodes an aperture of 0x40000 bytes from BASE_ADDR (R34); that a transaction at any other address is answered
ERROR is the model's choice (log entry 15, DESIGN CHOICE). -/
def Obligations.OutsideTheApertureIsError : Prop :=
  ∀ (s : State) (addr size : Nat) (rest : List Input), s.build.legal = true →
    (addr < s.build.baseAddr ∨ s.build.baseAddr + 0x40000 ≤ addr) →
    (∀ v, s.inputs = .write addr size v :: rest →
      step s = .next { s with inputs := rest, response := some .errorWrite }) ∧
    (s.inputs = .read addr size :: rest → ∃ t d, step s = .next t ∧ t.response = some (.errorRead d))

/-- R25, R26, R27, R29, R40: reads of the four control registers, in every sequencer state; the bytes little-endian
(R37). -/
def Obligations.RegisterReads : Prop :=
  ∀ (s : State) (rest : List Input), s.build.legal = true →
    (s.inputs = .read (s.build.baseAddr + 0x00000) 4 :: rest →
      step s = .next { s with inputs := rest, response := some (.okayRead
        [BitVec.ofNat 8 (s.build.n % 256), BitVec.ofNat 8 (s.build.n / 256), BitVec.ofNat 8 s.build.l, 20#8]) }) ∧
    (s.inputs = .read (s.build.baseAddr + 0x00004) 4 :: rest →
      step s = .next { s with inputs := rest, response := some (.okayRead [0#8, 0#8, 0#8, 0#8]) }) ∧
    (s.inputs = .read (s.build.baseAddr + 0x00008) 4 :: rest →
      step s = .next { s with inputs := rest, response := some (.okayRead (wordBytes (statusWord s))) }) ∧
    (s.inputs = .read (s.build.baseAddr + 0x0000C) 4 :: rest →
      step s = .next { s with inputs := rest, response := some (.okayRead
        (wordBytes (BitVec.ofNat 32 s.errInfo.toNat))) })

/-- R25: CONFIG holds N, L and T = 20 in their fields, 0x14200200 in the default build and 0x14080020 in the small build
of spec/95_test_vectors.md; a read returns it and a write to it is ignored and records no error, in every sequencer
state. -/
def Obligations.ConfigReportsTheBuild : Prop :=
  (∀ b : Build, b.legal = true → (configWord b).toNat = b.n + 65536 * b.l + 16777216 * 20) ∧
  configWord Build.default = 0x14200200#32 ∧
  configWord { n := 32, l := 8, baseAddr := 0 } = 0x14080020#32 ∧
  (∀ (s : State) (rest : List Input), s.inputs = .read (s.build.baseAddr + 0x00000) 4 :: rest →
    step s = .next { s with inputs := rest, response := some (.okayRead (wordBytes (configWord s.build))) }) ∧
  (∀ (s : State) (v : Word) (rest : List Input), s.inputs = .write (s.build.baseAddr + 0x00000) 4 v :: rest →
    step s = .next { s with inputs := rest, response := some .okayWrite })

/-- R39, the IDLE column: a write to TERM[t] stores EXP and SIGN; one to A stores exactly its bytes, little-endian (R37);
one to CONFIG, ERRINFO, C or R is ignored. -/
def Obligations.IdleWriteEffects : Prop :=
  ∀ (s : State) (off size : Nat) (v : Word) (rest : List Input), s.build.legal = true → s.seq = .idle →
    s.inputs = .write (s.build.baseAddr + off) size v :: rest →
    (∀ t : Fin 20, off = 0x00100 + 4 * t.val → size = 4 →
      step s = .next { s with inputs := rest, response := some .okayWrite,
                              term := s.term.set t { exp := v.extractLsb' 0 16, sign := v.getLsbD 31 } }) ∧
    ((size = 1 ∨ size = 2 ∨ size = 4) → off % size = 0 → 0x10000 ≤ off → off + size ≤ 0x10000 + s.build.n →
      ∃ mem, step s = .next { s with inputs := rest, response := some .okayWrite, memA := mem } ∧
        ∀ k, mem.read k = if off - 0x10000 ≤ k ∧ k < off - 0x10000 + size
          then some (v.extractLsb' (8 * (k - (off - 0x10000))) 8) else s.memA.read k) ∧
    ((off = 0x00000 ∨ off = 0x0000C) → size = 4 →
      step s = .next { s with inputs := rest, response := some .okayWrite }) ∧
    ((size = 1 ∨ size = 2 ∨ size = 4) → off % size = 0 →
      ((0x20000 ≤ off ∧ off + size ≤ 0x20000 + s.build.n) ∨
        (0x30000 ≤ off ∧ off + size ≤ 0x30000 + 2 * s.build.n)) →
      step s = .next { s with inputs := rest, response := some .okayWrite })

/-- R37, R40, the IDLE column: a read of bytes of A, C or R that have all been written returns them, the lowest offset
first, and a read of TERM[t] returns its word; nothing else changes. -/
def Obligations.IdleReadsReturnWhatIsStored : Prop :=
  ∀ (s : State) (i size : Nat) (rest : List Input) (bytes : List Byte), s.build.legal = true → s.seq = .idle →
    (size = 1 ∨ size = 2 ∨ size = 4) → i % size = 0 → bytes.length = size →
    (s.inputs = .read (s.build.baseAddr + (0x10000 + i)) size :: rest → i + size ≤ s.build.n →
      (∀ m < size, s.memA.read (i + m) = bytes[m]?) →
      step s = .next { s with inputs := rest, response := some (.okayRead bytes) }) ∧
    (s.inputs = .read (s.build.baseAddr + (0x20000 + i)) size :: rest → i + size ≤ s.build.n →
      (∀ m < size, s.memC.read (i + m) = bytes[m]?) →
      step s = .next { s with inputs := rest, response := some (.okayRead bytes) }) ∧
    (s.inputs = .read (s.build.baseAddr + (0x30000 + i)) size :: rest → i + size ≤ 2 * s.build.n →
      (∀ m < size, s.memR.read (i + m) = bytes[m]?) →
      step s = .next { s with inputs := rest, response := some (.okayRead bytes) }) ∧
    (∀ t : Fin 20, s.inputs = .read (s.build.baseAddr + (0x100 + 4 * t.val)) 4 :: rest →
      step s = .next { s with inputs := rest, response := some (.okayRead (wordBytes s.term[t].toWord)) })

/-- R40, the SEQ ≠ IDLE column: a read of TERM, A, C or R draws a fresh free value and returns it; nothing else changes.
The stream of free values is the model's (log entry 6, DESIGN CHOICE). -/
def Obligations.BusyReadsReturnAFreshFreeValue : Prop :=
  ∀ (s : State) (off size : Nat) (rest : List Input), s.build.legal = true → s.seq ≠ .idle →
    s.inputs = .read (s.build.baseAddr + off) size :: rest →
    (size = 1 ∨ size = 2 ∨ size = 4) → off % size = 0 →
    (((∃ t : Fin 20, off = 0x100 + 4 * t.val) ∧ size = 4) ∨
      (0x10000 ≤ off ∧ off + size ≤ 0x10000 + s.build.n) ∨ (0x20000 ≤ off ∧ off + size ≤ 0x20000 + s.build.n) ∨
      (0x30000 ≤ off ∧ off + size ≤ 0x30000 + 2 * s.build.n)) →
    step s = .next { s with
      inputs := rest, response := some (.okayRead ((wordBytes (Config.freeData s.free)).take size)),
      free := s.free + 1 }

/-- R40, the IDLE column: a read of 1, 2 or 4 bytes of A, C or R of which some byte has not been written since reset draws
one free word; each written byte of it reads as stored, and each byte m that is not reads as byte m of the free word
(log entries 6 and 10, DESIGN CHOICE). -/
def Obligations.UnwrittenByteReadsAsFree : Prop :=
  ∀ (s : State) (i size : Nat) (rest : List Input), s.build.legal = true → s.seq = .idle →
    (size = 1 ∨ size = 2 ∨ size = 4) → i % size = 0 →
    let answers := fun mem : Memory => (∃ m < size, mem.read (i + m) = none) →
      ∃ data, step s = .next { s with inputs := rest, free := s.free + 1, response := some (.okayRead data) } ∧
        data.length = size ∧
        ∀ m < size, data[m]? = some ((mem.read (i + m)).getD ((Config.freeData s.free).extractLsb' (8 * m) 8))
    (s.inputs = .read (s.build.baseAddr + (0x10000 + i)) size :: rest → i + size ≤ s.build.n → answers s.memA) ∧
    (s.inputs = .read (s.build.baseAddr + (0x20000 + i)) size :: rest → i + size ≤ s.build.n → answers s.memC) ∧
    (s.inputs = .read (s.build.baseAddr + (0x30000 + i)) size :: rest → i + size ≤ 2 * s.build.n → answers s.memR)

/-- R41: no read has a side effect: only the response, the inputs still to come and the model's count of free values
drawn can differ. -/
def Obligations.ReadsHaveNoSideEffect : Prop :=
  ∀ (s : State) (addr size : Nat) (rest : List Input), s.inputs = .read addr size :: rest →
    ∃ t, step s = .next t ∧ t = { s with inputs := rest, response := t.response, free := t.free }

/-- R30, R40: while a command runs, a host read tells nothing of A, TERM, R, C, BASE, W, U or the position: two busy
states alike in what the host may know (build, STATUS, ERRINFO), in which as many free values have been drawn
(`s.free = s'.free`), give the same response to the same read and stay so alike.  That equal counters draw equal free
values is the model's (log entry 6, DESIGN CHOICE): the value drawn depends on the counter alone. -/
def Obligations.BusyReadsLeakNothing : Prop :=
  ∀ (s s' t t' : State) (addr size : Nat) (rest rest' : List Input), s.seq ≠ .idle → s.busyView = s'.busyView →
    s.free = s'.free → s.inputs = .read addr size :: rest → s'.inputs = .read addr size :: rest' →
    step s = .next t → step s' = .next t' → t.response = t'.response ∧ t.busyView = t'.busyView ∧ t.free = t'.free

/-- R39, R20, R21, R22: no host transaction writes R, C, BASE, W or U, and none but a write to A or TERM changes
those. -/
def Obligations.HostCannotWriteResults : Prop :=
  ∀ (s t : State) (rest : List Input), step s = .next t →
    ((∃ addr size, s.inputs = .read addr size :: rest) ∨ (∃ addr size v, s.inputs = .write addr size v :: rest)) →
    t.memR = s.memR ∧ t.memC = s.memC ∧ t.base = s.base ∧ t.w = s.w ∧ t.u = s.u ∧
    (t.memA ≠ s.memA → ∃ off size v, s.inputs = .write (s.build.baseAddr + off) size v :: rest ∧
      0x10000 ≤ off ∧ off < 0x10000 + s.build.n) ∧
    (t.term ≠ s.term → ∃ (i : Fin 20) (v : Word), s.inputs = .write (s.build.baseAddr + (0x100 + 4 * i.val)) 4 v :: rest)

/-- R39, R120: a host transaction while a command runs leaves all the ENGINE works on as it was. -/
def Obligations.BusyTransactionsLeaveTheEngineAlone : Prop :=
  ∀ (s : State) (rest : List Input), s.seq ≠ .idle →
    ((∃ addr size, s.inputs = .read addr size :: rest) ∨ (∃ addr size v, s.inputs = .write addr size v :: rest)) →
    ∃ t, step s = .next t ∧ t.engineView = s.engineView

/-! ### Reset -/

/-- R31: the values the spec gives for reset, in every build; A, R and C hold nothing written.  (BASE, W and U are
unspecified after reset; that the model starts them at zero is log entry 4, and no statement rests on it.) -/
def Obligations.ResetValues : Prop :=
  ∀ b : Build, (State.resetOf b).seq = .idle ∧ statusWord (State.resetOf b) = 0x00000000#32 ∧
    errInfoWord (State.resetOf b) = 0x00000000#32 ∧ configWord (State.resetOf b).build = configWord b ∧
    (∀ t : Fin 20, (State.resetOf b).term[t].toWord = 0x00000000#32) ∧
    (∀ k, (State.resetOf b).memA.read k = none ∧ (State.resetOf b).memR.read k = none ∧
      (State.resetOf b).memC.read k = none)

/-- R112, R113: the reset event, in any state, sets the block to the state after reset: SEQ is IDLE, STATUS and ERRINFO
read 0, every TERM word is 0, and A, R and C are unspecified again; a running command does not complete.  The inputs
still to come are kept (log entry 17, DESIGN CHOICE). -/
def Obligations.ResetEventAbandonsTheCommand : Prop :=
  ∀ (s : State) (rest : List Input), s.inputs = .reset :: rest →
    ∃ t, step s = .next t ∧ t.build = s.build ∧ t.inputs = rest ∧ t.seq = .idle ∧ t.done = false ∧
      statusWord t = 0x00000000#32 ∧ errInfoWord t = 0x00000000#32 ∧
      (∀ i : Fin 20, t.term[i].toWord = 0x00000000#32) ∧
      (∀ k, t.memA.read k = none ∧ t.memR.read k = none ∧ t.memC.read k = none)

/-! ### Micro-steps of REFCONV -/

/-- R71: REF_ZERO sets R[k] to 0x00 for every k in 0..2N−1, and the next micro-step is REF_ACC(0, 0). -/
def Obligations.RefZeroClearsScratch : Prop :=
  ∀ s : State, s.seq = .refconv .zero →
    ∃ mem, engineStep s = .next { s with memR := mem, seq := .refconv (.acc 0 0) } ∧
      (∀ k < 2 * s.build.n, mem.read k = some 0x00#8) ∧ (∀ k, 2 * s.build.n ≤ k → mem.read k = none)

/-- R72, and R70's order: REF_ACC(t, j) adds s_t · a_j to R[j + e_t] modulo 256 and changes nothing else; j runs inside
t, and REF_FOLD(0) follows the last. -/
def Obligations.RefAccAddsOneProduct : Prop :=
  ∀ (s : State) (t : Fin 20) (j : Nat) (a x : Byte), s.seq = .refconv (.acc t j) → j < s.build.n →
    s.term[t].exp.toNat < s.build.n → s.memA.read j = some a → s.memR.read (j + s.term[t].exp.toNat) = some x →
    ∃ mem, engineStep s = .next { s with
        memR := mem,
        seq := if j + 1 < s.build.n then .refconv (.acc t (j + 1))
          else if h : t.val + 1 < 20 then .refconv (.acc ⟨t.val + 1, h⟩ 0)
          else .refconv (.fold 0) } ∧
      mem.read (j + s.term[t].exp.toNat) =
        some (BitVec.ofInt 8 ((x.toNat : Int) + (if s.term[t].sign then -1 else 1) * a.toInt)) ∧
      (∀ k, k ≠ j + s.term[t].exp.toNat → mem.read k = s.memR.read k) ∧
      j + s.term[t].exp.toNat ≤ 2 * s.build.n - 2

/-- R73, R17: REF_FOLD(i) writes C[i] = R[i] − R[i + N] modulo 256 and changes nothing else; the last one, i = N − 1,
completes the command, with SEQ IDLE and DONE 1. -/
def Obligations.RefFoldWritesOneResult : Prop :=
  ∀ (s : State) (i : Nat) (x y : Byte), s.seq = .refconv (.fold i) → i < s.build.n →
    s.memR.read i = some x → s.memR.read (i + s.build.n) = some y →
    ∃ mem, engineStep s = .next { s with
        memC := mem,
        seq := if i + 1 < s.build.n then .refconv (.fold (i + 1)) else .idle,
        done := if i + 1 < s.build.n then s.done else true } ∧
      mem.read i = some (BitVec.ofInt 8 ((x.toNat : Int) - (y.toNat : Int))) ∧
      (∀ k, k ≠ i → mem.read k = s.memC.read k) ∧ i + s.build.n ≤ 2 * s.build.n - 1

/-! ### Micro-steps of VECCONV -/

/-- R78: VEC_BASE(j) loads A[L·j .. L·j + L − 1] into BASE[j] and writes nothing else; VEC_ZERO follows the last lane
(R77). -/
def Obligations.VecBaseLoadsOneLane : Prop :=
  ∀ (s : State) (j : Nat) (lane : List Byte), s.seq = .vecconv (.base j) → s.build.l * j + s.build.l ≤ s.build.n →
    lane.length = s.build.l → (∀ k < s.build.l, s.memA.read (s.build.l * j + k) = lane[k]?) →
    engineStep s = .next { s with
      base := s.base.set j lane,
      seq := if j + 1 < s.build.m then .vecconv (.base (j + 1)) else .vecconv .zero }

/-- R79: VEC_ZERO sets R[k] to 0x00 for every k in 0..2N−1, and the next micro-step is VEC_POS(0, 0). -/
def Obligations.VecZeroClearsScratch : Prop :=
  ∀ s : State, s.seq = .vecconv .zero →
    ∃ mem, engineStep s = .next { s with memR := mem, seq := .vecconv (.pos 0 0) } ∧
      (∀ k < 2 * s.build.n, mem.read k = some 0x00#8) ∧ (∀ k, 2 * s.build.n ≤ k → mem.read k = none)

/-- R80: VEC_POS(i, j) adds BASE[j] to the window of R at L·j + e_i, element by element modulo 256, leaves W holding the
stored window, and changes nothing else. -/
def Obligations.VecPosAddsOneLane : Prop :=
  ∀ (s : State) (i : Fin 10) (j : Nat) (lane win : List Byte), s.seq = .vecconv (.pos i j) →
    let start := s.build.l * j + s.term[i.val].exp.toNat
    start + s.build.l ≤ 2 * s.build.n → s.base[j]? = some lane → lane.length = s.build.l → win.length = s.build.l →
    (∀ k < s.build.l, s.memR.read (start + k) = win[k]?) →
    ∃ mem out, engineStep s = .next { s with
        memR := mem, w := out,
        seq := if j + 1 < s.build.m then .vecconv (.pos i (j + 1))
          else if h : i.val + 1 < 10 then .vecconv (.pos ⟨i.val + 1, h⟩ 0)
          else .vecconv (.neg 0 0) } ∧
      out.length = s.build.l ∧
      (∀ (k : Nat) (x y : Byte), win[k]? = some x → lane[k]? = some y → out[k]? = some (BitVec.ofInt 8 ((x.toNat : Int) + y.toInt))) ∧
      (∀ k < s.build.l, mem.read (start + k) = out[k]?) ∧
      (∀ k, k < start ∨ start + s.build.l ≤ k → mem.read k = s.memR.read k)

/-- R81: VEC_NEG(i, j) subtracts BASE[j] from the window of R at L·j + e_(10+i), element by element modulo 256, leaves W
holding the stored window, and changes nothing else. -/
def Obligations.VecNegSubtractsOneLane : Prop :=
  ∀ (s : State) (i : Fin 10) (j : Nat) (lane win : List Byte), s.seq = .vecconv (.neg i j) →
    let start := s.build.l * j + s.term[10 + i.val].exp.toNat
    start + s.build.l ≤ 2 * s.build.n → s.base[j]? = some lane → lane.length = s.build.l → win.length = s.build.l →
    (∀ k < s.build.l, s.memR.read (start + k) = win[k]?) →
    ∃ mem out, engineStep s = .next { s with
        memR := mem, w := out,
        seq := if j + 1 < s.build.m then .vecconv (.neg i (j + 1))
          else if h : i.val + 1 < 10 then .vecconv (.neg ⟨i.val + 1, h⟩ 0)
          else .vecconv (.fold 0) } ∧
      out.length = s.build.l ∧
      (∀ (k : Nat) (x y : Byte), win[k]? = some x → lane[k]? = some y →
        out[k]? = some (BitVec.ofInt 8 ((x.toNat : Int) - y.toNat)) ∧
        out[k]? = some (BitVec.ofInt 8 ((x.toNat : Int) + -y.toInt))) ∧
      (∀ k < s.build.l, mem.read (start + k) = out[k]?) ∧
      (∀ k, k < start ∨ start + s.build.l ≤ k → mem.read k = s.memR.read k)

/-- R82, R17: VEC_FOLD(j) writes C[L·j + k] = R[L·j + k] − R[L·j + k + N] modulo 256 for every k below L, W and U holding
the two windows, and changes nothing else; the last one, j = M − 1, completes the command. -/
def Obligations.VecFoldWritesOneLane : Prop :=
  ∀ (s : State) (j : Nat) (lower upper : List Byte), s.seq = .vecconv (.fold j) →
    s.build.l * j + s.build.l ≤ s.build.n → lower.length = s.build.l → upper.length = s.build.l →
    (∀ k < s.build.l, s.memR.read (s.build.l * j + k) = lower[k]?) →
    (∀ k < s.build.l, s.memR.read (s.build.l * j + s.build.n + k) = upper[k]?) →
    ∃ mem, engineStep s = .next { s with
        memC := mem, w := lower, u := upper,
        seq := if j + 1 < s.build.m then .vecconv (.fold (j + 1)) else .idle,
        done := if j + 1 < s.build.m then s.done else true } ∧
      (∀ (k : Nat) (x y : Byte), lower[k]? = some x → upper[k]? = some y →
        mem.read (s.build.l * j + k) = some (BitVec.ofInt 8 ((x.toNat : Int) - (y.toNat : Int)))) ∧
      (∀ k, k < s.build.l * j ∨ s.build.l * j + s.build.l ≤ k → mem.read k = s.memC.read k)

/-- A micro-step that reads a byte of A nothing has written since reset is a fault that names the byte: the treatment R115
gives a model, where the hardware computes with an unspecified value (log entry 7, DEDUCED). -/
def Obligations.UnwrittenOperandFaults : Prop :=
  (∀ (s : State) (t : Fin 20) (j : Nat), s.seq = .refconv (.acc t j) → j < s.build.n → s.memA.read j = none →
    engineStep s = .fault (.unwrittenRead .a j)) ∧
  (∀ (s : State) (j k : Nat), s.seq = .vecconv (.base j) → s.build.l * j + s.build.l ≤ s.build.n → k < s.build.l →
    s.memA.read (s.build.l * j + k) = none → (∀ m < k, (s.memA.read (s.build.l * j + m)).isSome = true) →
    engineStep s = .fault (.unwrittenRead .a (s.build.l * j + k)))

/-- R43, R17: a step of the ENGINE never changes A, TERM, the error record or the build, whatever its position; where
it leaves SEQ IDLE after a running command, DONE is 1. -/
def Obligations.EngineLeavesOperandsAndErrors : Prop :=
  ∀ s t : State, engineStep s = .next t →
    t.memA = s.memA ∧ t.term = s.term ∧ t.err = s.err ∧ t.errCode = s.errCode ∧ t.errInfo = s.errInfo ∧
    t.build = s.build ∧ t.inputs = s.inputs ∧ t.response = s.response ∧ t.free = s.free ∧
    (s.seq ≠ .idle → t.seq = .idle → t.done = true) ∧
    (t.seq ≠ .idle → t.done = s.done) ∧
    (∀ p, s.seq = .refconv p → t.base = s.base ∧ t.w = s.w ∧ t.u = s.u)

/-! ### Invariants -/

/-- The state after reset has the invariant, in every legal build and in the default one. -/
def Obligations.ResetHasTheInvariant : Prop :=
  (∀ b : Build, b.legal = true → (State.resetOf b).Inv) ∧ State.reset.Inv

/-- Every step keeps the invariant: the memories' canonical form and bounds, the vector registers' shapes, the error
record's meaning (R93), and what holds while a command runs. -/
def Obligations.StepKeepsTheInvariant : Prop :=
  ∀ s t : State, s.Inv → step s = .next t → t.Inv

/-- R87, R100, R115: from a state of the invariant the only stop is the fault of a command that reads an A byte nothing
has written since reset (log entry 7, DEDUCED); no step is refused, and none faults once A is written. -/
def Obligations.OnlyAnUnwrittenOperandStops : Prop :=
  ∀ s : State, s.Inv →
    (∀ r, step s ≠ .refused r) ∧
    (∀ f, step s = .fault f → s.seq ≠ .idle ∧ ∃ j < s.build.n, f = .unwrittenRead .a j ∧ s.memA.read j = none) ∧
    (s.aWritten → ∃ t, step s = .next t)

/-! ### Whole commands -/

/-- R17, R70, R77, R121: an accepted command always completes, after exactly its number of micro-steps (1 + 21·N for
REFCONV, 22·M + 1 for VECCONV): it is still running before the last one, and then SEQ is IDLE and DONE is 1. -/
def Obligations.AcceptedCommandCompletes : Prop :=
  ∀ (i : Instr) (s : State), s.Ready i →
    ∃ t u, exec i s = .next t ∧ engineSteps (i.microSteps s.build) t = .next u ∧ u.seq = .idle ∧ u.done = true ∧
      ∀ k < i.microSteps s.build, ∃ v, engineSteps k t = .next v ∧ v.seq ≠ .idle

/-- R84 for REFCONV: the closed form of every R and C byte, A and TERM unchanged, and (R74) BASE, W and U too; the error
record unchanged (R17). -/
def Obligations.RefconvClosedForm : Prop :=
  ∀ s : State, s.Ready .refconv →
    ∃ u, Completes .refconv s u ∧ HoldsResult .refconv s u ∧
      u.memA = s.memA ∧ u.term = s.term ∧ u.base = s.base ∧ u.w = s.w ∧ u.u = s.u ∧
      u.seq = .idle ∧ u.done = true ∧ u.err = s.err ∧ u.errCode = s.errCode ∧ u.errInfo = s.errInfo ∧
      u.build = s.build ∧ u.inputs = s.inputs ∧ u.response = s.response ∧ u.free = s.free

/-- R84 for VECCONV: the closed form of every R and C byte with the signs by position, A and TERM unchanged, and BASE[j]
holding A's lane j; the error record unchanged (R17). -/
def Obligations.VecconvClosedForm : Prop :=
  ∀ s : State, s.Ready .vecconv →
    ∃ u, Completes .vecconv s u ∧ HoldsResult .vecconv s u ∧
      u.memA = s.memA ∧ u.term = s.term ∧
      (∀ j < s.build.m, ∃ lane, u.base[j]? = some lane ∧ lane.length = s.build.l ∧
        ∀ k < s.build.l, lane[k]? = s.memA.read (s.build.l * j + k)) ∧
      u.seq = .idle ∧ u.done = true ∧ u.err = s.err ∧ u.errCode = s.errCode ∧ u.errInfo = s.errInfo ∧
      u.build = s.build ∧ u.inputs = s.inputs ∧ u.response = s.response ∧ u.free = s.free

/-- R88: VECCONV leaves in R and C, byte for byte, what REFCONV leaves on the table `tbl`, the same table with its SIGN bits
replaced by the canonical ones; where the table is canonical, `tbl` is the table itself. -/
def Obligations.EnginesAgreeOnCanonicalTables : Prop :=
  ∀ (s : State) (tbl : Vector Term 20), s.Ready .vecconv →
    (∀ t : Fin 20, tbl[t].exp = s.term[t].exp ∧ tbl[t].sign = decide (10 ≤ t.val)) →
    (s.canonical → tbl = s.term) ∧
    ∃ u v, Completes .vecconv s u ∧ Completes .refconv { s with term := tbl } v ∧
      (∀ k < 2 * s.build.n, u.memR.read k = v.memR.read k) ∧ (∀ k < s.build.n, u.memC.read k = v.memC.read k)

/-- R91: permuting the 20 words of TERM leaves REFCONV's R and C unchanged, and a permutation that keeps each half leaves
VECCONV's. -/
def Obligations.ResultIgnoresTermOrder : Prop :=
  ∀ (i : Instr) (s : State) (tbl : Vector Term 20) (σ : Equiv.Perm (Fin 20)), s.Ready i →
    (∀ t : Fin 20, tbl[t] = s.term[σ t]) → (i = .vecconv → ∀ t, (σ t).val < 10 ↔ t.val < 10) →
    ∃ u v, Completes i s u ∧ Completes i { s with term := tbl } v ∧
      (∀ k < 2 * s.build.n, u.memR.read k = v.memR.read k) ∧ (∀ k < s.build.n, u.memC.read k = v.memC.read k)

/-- R86: where every coefficient lies in [−6, 6] no sum wraps, so C read signed is the exact integer; where A is binary,
every R and C byte read signed lies in [−20, 20]. -/
def Obligations.SmallCoefficientsAreExact : Prop :=
  ∀ (i : Instr) (s : State), s.Ready i →
    ((∀ j < s.build.n, -6 ≤ s.coeff j ∧ s.coeff j ≤ 6) →
      ∃ u, Completes i s u ∧ ∀ k < s.build.n, ∃ v, u.memC.read k = some v ∧ v.toInt = s.resultOf i k ∧
        -120 ≤ v.toInt ∧ v.toInt ≤ 120) ∧
    ((∀ j < s.build.n, s.coeff j = 0 ∨ s.coeff j = 1) →
      ∃ u, Completes i s u ∧
        (∀ k < 2 * s.build.n, ∃ v, u.memR.read k = some v ∧ -20 ≤ v.toInt ∧ v.toInt ≤ 20) ∧
        (∀ k < s.build.n, ∃ v, u.memC.read k = some v ∧ -20 ≤ v.toInt ∧ v.toInt ≤ 20))

/-- R92's first sentence: where every byte of A is 0x00, every R and C byte is 0x00 after a command, whatever TERM
holds. -/
def Obligations.ZeroOperandGivesZero : Prop :=
  ∀ (i : Instr) (s : State), s.Ready i → (∀ j < s.build.n, s.memA.read j = some 0x00#8) →
    ∃ u, Completes i s u ∧ (∀ k < 2 * s.build.n, u.memR.read k = some 0x00#8) ∧
      (∀ k < s.build.n, u.memC.read k = some 0x00#8)

/-- R89 in the terms: two tables that differ only at term t differ in C, modulo 256, by that term's two
contributions. -/
def Obligations.ResultIsLinearInTheTerms : Prop :=
  ∀ (i : Instr) (s : State) (t : Fin 20) (x : Term), s.Ready i → x.exp.toNat < s.build.n →
    ∃ u v, Completes i s u ∧ Completes i { s with term := s.term.set t x } v ∧
      ∀ k < s.build.n, ∃ a b : Byte, u.memC.read k = some a ∧ v.memC.read k = some b ∧
        a - b = BitVec.ofInt 8 (contrib s.build.n s.coeff (s.expOf t) (i.sign s t) k -
          contrib s.build.n s.coeff x.exp.toNat (i.sign { s with term := s.term.set t x } t) k)

/-- R89 in a: with the same table, C of a byte-wise sum of two operands is the byte-wise sum of their Cs, modulo 256. -/
def Obligations.ResultIsLinearInTheOperand : Prop :=
  ∀ (i : Instr) (s : State) (mem mem' : Memory), s.Ready i →
    State.Ready i { s with memA := mem } → State.Ready i { s with memA := mem' } →
    (∀ j < s.build.n, ∃ a a', mem.read j = some a ∧ mem'.read j = some a' ∧ s.memA.read j = some (a + a')) →
    ∃ u v v', Completes i s u ∧ Completes i { s with memA := mem } v ∧ Completes i { s with memA := mem' } v' ∧
      ∀ k < s.build.n, ∃ c c', v.memC.read k = some c ∧ v'.memC.read k = some c' ∧ u.memC.read k = some (c + c')

/-- R85: C holds, modulo 256, the coefficients of a·b in Z[x]/(x^N + 1): there is an integer polynomial of degree below N
that differs from a·b by a multiple of x^N + 1 and whose coefficients C holds modulo 256. -/
def Obligations.ResultIsTheRingProduct : Prop :=
  ∀ (i : Instr) (s : State), s.Ready i →
    ∃ (u : State) (c : Polynomial ℤ), Completes i s u ∧ c.degree < s.build.n ∧
      (Polynomial.X ^ s.build.n + 1) ∣
        (∑ j ∈ Finset.range s.build.n, Polynomial.C (s.coeff j) * Polynomial.X ^ j) *
          (∑ t : Fin 20, Polynomial.C (i.sign s t) * Polynomial.X ^ s.expOf t) - c ∧
      ∀ k < s.build.n, u.memC.read k = some (BitVec.ofInt 8 (c.coeff k))

/-- R83: the M micro-steps of one VECCONV term add (or subtract) a_m at R[e + m] for every m below N, once each, and touch
no other byte of R. -/
def Obligations.OneTermsWindowsCoverTheShiftOnce : Prop :=
  ∀ (s : State) (i : Fin 10), s.Inv → s.aWritten →
    (s.seq = .vecconv (.pos i 0) →
      ∃ t, engineSteps s.build.m s = .next t ∧ ∀ k < 2 * s.build.n, ∃ x, s.memR.read k = some x ∧
        t.memR.read k = some (if s.expOf (posTerm i) ≤ k ∧ k - s.expOf (posTerm i) < s.build.n
          then add8 x (s.coeff (k - s.expOf (posTerm i))) else x)) ∧
    (s.seq = .vecconv (.neg i 0) →
      ∃ t, engineSteps s.build.m s = .next t ∧ ∀ k < 2 * s.build.n, ∃ x, s.memR.read k = some x ∧
        t.memR.read k = some (if s.expOf (negTerm i) ≤ k ∧ k - s.expOf (negTerm i) < s.build.n
          then add8 x (-s.coeff (k - s.expOf (negTerm i))) else x))

/-- R45, R119, R120: however the host's transactions fall between the ENGINE's micro-steps, the command runs as if it
were alone: after any inputs without a reset, all the ENGINE works on is what its micro-steps alone make it, as long as
the command has not completed. -/
def Obligations.HostTransactionsDoNotDisturbACommand : Prop :=
  ∀ (ins : List Input) (s v : State), .reset ∉ ins →
    engineSteps (ins.countP fun x => decide (x = .engine)) s = .next v → v.seq ≠ .idle →
    ∃ u, Host.Core.run Sys2Proof.core ins.length { s with inputs := ins } = .next u ∧ u.engineView = v.engineView

/-- R114: from reset, in every legal build, the host's writes alone can load any operand and any table with exponents in
range, and then leave the block ready for every command the build has. -/
def Obligations.HostCanLoadAnyOperands : Prop :=
  ∀ (b : Build) (a : Nat → Byte) (tbl : Fin 20 → Term), b.legal = true → (∀ t, (tbl t).exp.toNat < b.n) →
    ∃ (ins : List Input) (s : State), (∀ x ∈ ins, ∃ addr size v, x = .write addr size v) ∧
      Host.Core.run Sys2Proof.core ins.length { State.resetOf b with inputs := ins } = .next s ∧
      (∀ i : Instr, i.supported b = true → s.Ready i) ∧ (∀ j < b.n, s.memA.read j = some (a j)) ∧ (∀ t : Fin 20, s.term[t] = tbl t)

/-! ### The host script -/

/-- R61, R47: `poll`.  In an assembled script it is its label's line and its `bnz32` of STATUS, and its label is fresh: no
other line stands on it.  Wherever those two lines stand, and the label on no line before them, the host's turn at the
`bnz32` goes back to the label's line while a command runs and past the `poll` while SEQ = IDLE, changing nothing the
ENGINE works on; and the turn at the label's line goes on to the `bnz32`, leaving the block as it is.  R121: from a state
of the invariant with A written, whatever the host's script, in every schedule that is fair to the ENGINE a running
command completes after finitely many turns; and in every schedule fair to both, a host at its `poll` is past it after
finitely many turns, with SEQ = IDLE, and with DONE = 1 where a command was running.  Where a line after the `poll`
stands on its label too, as none does in an assembled script, R61 says nothing of the jump: that it goes back to the `poll`,
and so what is said of such a script's host, is the model's choice of the first of two lines (log entry 14, DESIGN CHOICE). -/
def Obligations.PollWaitsForIdle : Prop :=
  (∀ pre post : List ScriptLine,
    let lines := assemble (pre ++ .pseudo .poll :: post)
    ∃ k name, lines[k]? = some (.label name) ∧ lines[k + 1]? = some (.bnz32 0x00008 0x00000001#32 name) ∧
      k = (assemble pre).length ∧ ∀ j, j ≠ k → lines[j]? ≠ some (.label name)) ∧
  (∀ (p : Platform) (name k : Nat), p.host.lines[k]? = some (.label name) →
    p.host.lines[k + 1]? = some (.bnz32 0x00008 0x00000001#32 name) →
    (∀ j < k, p.host.lines[j]? ≠ some (.label name)) →
    (p.host.next = k + 1 →
      ∃ q, p.hostTurn = .next q ∧ q.block.engineView = p.block.engineView ∧ q.host.lines = p.host.lines ∧
        q.host.next = if p.block.seq = .idle then k + 2 else k) ∧
    (p.host.next = k →
      p.hostTurn = .next { p with host := { p.host with next := k + 1 } }) ∧
    (∀ schedule : Nat → Turn, FairTo .engine schedule → FairTo .host schedule → p.block.Inv → p.block.aWritten →
      p.host.next = k ∨ p.host.next = k + 1 →
      ∃ n q, p.turns (firstTurns schedule n) = .next q ∧ q.host.next = k + 2 ∧ q.block.seq = .idle ∧
        (p.block.seq ≠ .idle → q.block.done = true))) ∧
  (∀ (p : Platform) (schedule : Nat → Turn), FairTo .engine schedule → p.block.Inv → p.block.aWritten →
    p.block.seq ≠ .idle →
    ∃ n q, p.turns (firstTurns schedule n) = .next q ∧ q.block.seq = .idle ∧ q.block.done = true ∧
      ∀ m < n, ∃ r, p.turns (firstTurns schedule m) = .next r ∧ r.block.seq ≠ .idle)

/-- R61: the lines `refconv` and `vecconv` expand to issue the command: the host's turn is exec of it in the block. -/
def Obligations.ScriptCommandsIssueTheCommand : Prop :=
  ∀ (p : Platform) (i : Instr) (op : HostOp) (fresh : Nat),
    (match i with
     | .refconv => Pseudo.expand fresh .refconv
     | .vecconv => Pseudo.expand fresh .vecconv) = [op] →
    p.host.lines[p.host.next]? = some op →
    ∃ q, p.hostTurn = .next q ∧ exec i { p.block with response := some .okayWrite } = .next q.block ∧
      q.host.next = p.host.next + 1
end

