-- ==== Sys2Proof/Laws/State.lean ====
section
/-! SUPPORT. One lemma per field per named update of the state, so that no proof unfolds a record update. -/

namespace Sys2Proof.Machine

/-! ### accept -/

@[simp] theorem accept_build (first : Seq) (s : State) : (accept first s).build = s.build := rfl
@[simp] theorem accept_seq (first : Seq) (s : State) : (accept first s).seq = first := rfl
@[simp] theorem accept_done (first : Seq) (s : State) : (accept first s).done = false := rfl
@[simp] theorem accept_err (first : Seq) (s : State) : (accept first s).err = s.err := rfl
@[simp] theorem accept_errCode (first : Seq) (s : State) : (accept first s).errCode = s.errCode := rfl
@[simp] theorem accept_errInfo (first : Seq) (s : State) : (accept first s).errInfo = s.errInfo := rfl
@[simp] theorem accept_term (first : Seq) (s : State) : (accept first s).term = s.term := rfl
@[simp] theorem accept_memA (first : Seq) (s : State) : (accept first s).memA = s.memA := rfl
@[simp] theorem accept_memR (first : Seq) (s : State) : (accept first s).memR = s.memR := rfl
@[simp] theorem accept_memC (first : Seq) (s : State) : (accept first s).memC = s.memC := rfl
@[simp] theorem accept_base (first : Seq) (s : State) : (accept first s).base = s.base := rfl
@[simp] theorem accept_w (first : Seq) (s : State) : (accept first s).w = s.w := rfl
@[simp] theorem accept_u (first : Seq) (s : State) : (accept first s).u = s.u := rfl
@[simp] theorem accept_inputs (first : Seq) (s : State) : (accept first s).inputs = s.inputs := rfl
@[simp] theorem accept_response (first : Seq) (s : State) : (accept first s).response = s.response := rfl
@[simp] theorem accept_free (first : Seq) (s : State) : (accept first s).free = s.free := rfl

/-! ### complete -/

@[simp] theorem complete_build (s : State) : (complete s).build = s.build := rfl
@[simp] theorem complete_seq (s : State) : (complete s).seq = .idle := rfl
@[simp] theorem complete_done (s : State) : (complete s).done = true := rfl
@[simp] theorem complete_err (s : State) : (complete s).err = s.err := rfl
@[simp] theorem complete_errCode (s : State) : (complete s).errCode = s.errCode := rfl
@[simp] theorem complete_errInfo (s : State) : (complete s).errInfo = s.errInfo := rfl
@[simp] theorem complete_term (s : State) : (complete s).term = s.term := rfl
@[simp] theorem complete_memA (s : State) : (complete s).memA = s.memA := rfl
@[simp] theorem complete_memR (s : State) : (complete s).memR = s.memR := rfl
@[simp] theorem complete_memC (s : State) : (complete s).memC = s.memC := rfl
@[simp] theorem complete_base (s : State) : (complete s).base = s.base := rfl
@[simp] theorem complete_w (s : State) : (complete s).w = s.w := rfl
@[simp] theorem complete_u (s : State) : (complete s).u = s.u := rfl
@[simp] theorem complete_inputs (s : State) : (complete s).inputs = s.inputs := rfl
@[simp] theorem complete_response (s : State) : (complete s).response = s.response := rfl
@[simp] theorem complete_free (s : State) : (complete s).free = s.free := rfl

/-! ### clearError -/

@[simp] theorem clearError_build (s : State) : (clearError s).build = s.build := rfl
@[simp] theorem clearError_seq (s : State) : (clearError s).seq = s.seq := rfl
@[simp] theorem clearError_done (s : State) : (clearError s).done = s.done := rfl
@[simp] theorem clearError_err (s : State) : (clearError s).err = false := rfl
@[simp] theorem clearError_errCode (s : State) : (clearError s).errCode = .none := rfl
@[simp] theorem clearError_errInfo (s : State) : (clearError s).errInfo = 0#18 := rfl
@[simp] theorem clearError_term (s : State) : (clearError s).term = s.term := rfl
@[simp] theorem clearError_memA (s : State) : (clearError s).memA = s.memA := rfl
@[simp] theorem clearError_memR (s : State) : (clearError s).memR = s.memR := rfl
@[simp] theorem clearError_memC (s : State) : (clearError s).memC = s.memC := rfl
@[simp] theorem clearError_base (s : State) : (clearError s).base = s.base := rfl
@[simp] theorem clearError_w (s : State) : (clearError s).w = s.w := rfl
@[simp] theorem clearError_u (s : State) : (clearError s).u = s.u := rfl
@[simp] theorem clearError_inputs (s : State) : (clearError s).inputs = s.inputs := rfl
@[simp] theorem clearError_response (s : State) : (clearError s).response = s.response := rfl
@[simp] theorem clearError_free (s : State) : (clearError s).free = s.free := rfl

/-! ### clearDone -/

@[simp] theorem clearDone_build (s : State) : (clearDone s).build = s.build := rfl
@[simp] theorem clearDone_seq (s : State) : (clearDone s).seq = s.seq := rfl
@[simp] theorem clearDone_done (s : State) : (clearDone s).done = false := rfl
@[simp] theorem clearDone_err (s : State) : (clearDone s).err = s.err := rfl
@[simp] theorem clearDone_errCode (s : State) : (clearDone s).errCode = s.errCode := rfl
@[simp] theorem clearDone_errInfo (s : State) : (clearDone s).errInfo = s.errInfo := rfl
@[simp] theorem clearDone_term (s : State) : (clearDone s).term = s.term := rfl
@[simp] theorem clearDone_memA (s : State) : (clearDone s).memA = s.memA := rfl
@[simp] theorem clearDone_memR (s : State) : (clearDone s).memR = s.memR := rfl
@[simp] theorem clearDone_memC (s : State) : (clearDone s).memC = s.memC := rfl
@[simp] theorem clearDone_base (s : State) : (clearDone s).base = s.base := rfl
@[simp] theorem clearDone_w (s : State) : (clearDone s).w = s.w := rfl
@[simp] theorem clearDone_u (s : State) : (clearDone s).u = s.u := rfl
@[simp] theorem clearDone_inputs (s : State) : (clearDone s).inputs = s.inputs := rfl
@[simp] theorem clearDone_response (s : State) : (clearDone s).response = s.response := rfl
@[simp] theorem clearDone_free (s : State) : (clearDone s).free = s.free := rfl

/-! ### answer -/

@[simp] theorem answer_build (s : State) (r : Response) : (s.answer r).build = s.build := rfl
@[simp] theorem answer_seq (s : State) (r : Response) : (s.answer r).seq = s.seq := rfl
@[simp] theorem answer_done (s : State) (r : Response) : (s.answer r).done = s.done := rfl
@[simp] theorem answer_err (s : State) (r : Response) : (s.answer r).err = s.err := rfl
@[simp] theorem answer_errCode (s : State) (r : Response) : (s.answer r).errCode = s.errCode := rfl
@[simp] theorem answer_errInfo (s : State) (r : Response) : (s.answer r).errInfo = s.errInfo := rfl
@[simp] theorem answer_term (s : State) (r : Response) : (s.answer r).term = s.term := rfl
@[simp] theorem answer_memA (s : State) (r : Response) : (s.answer r).memA = s.memA := rfl
@[simp] theorem answer_memR (s : State) (r : Response) : (s.answer r).memR = s.memR := rfl
@[simp] theorem answer_memC (s : State) (r : Response) : (s.answer r).memC = s.memC := rfl
@[simp] theorem answer_base (s : State) (r : Response) : (s.answer r).base = s.base := rfl
@[simp] theorem answer_w (s : State) (r : Response) : (s.answer r).w = s.w := rfl
@[simp] theorem answer_u (s : State) (r : Response) : (s.answer r).u = s.u := rfl
@[simp] theorem answer_inputs (s : State) (r : Response) : (s.answer r).inputs = s.inputs := rfl
@[simp] theorem answer_response (s : State) (r : Response) : (s.answer r).response = some r := rfl
@[simp] theorem answer_free (s : State) (r : Response) : (s.answer r).free = s.free := rfl

/-! ### drawFree -/

@[simp] theorem drawFree_build (s : State) : (s.drawFree).build = s.build := rfl
@[simp] theorem drawFree_seq (s : State) : (s.drawFree).seq = s.seq := rfl
@[simp] theorem drawFree_done (s : State) : (s.drawFree).done = s.done := rfl
@[simp] theorem drawFree_err (s : State) : (s.drawFree).err = s.err := rfl
@[simp] theorem drawFree_errCode (s : State) : (s.drawFree).errCode = s.errCode := rfl
@[simp] theorem drawFree_errInfo (s : State) : (s.drawFree).errInfo = s.errInfo := rfl
@[simp] theorem drawFree_term (s : State) : (s.drawFree).term = s.term := rfl
@[simp] theorem drawFree_memA (s : State) : (s.drawFree).memA = s.memA := rfl
@[simp] theorem drawFree_memR (s : State) : (s.drawFree).memR = s.memR := rfl
@[simp] theorem drawFree_memC (s : State) : (s.drawFree).memC = s.memC := rfl
@[simp] theorem drawFree_base (s : State) : (s.drawFree).base = s.base := rfl
@[simp] theorem drawFree_w (s : State) : (s.drawFree).w = s.w := rfl
@[simp] theorem drawFree_u (s : State) : (s.drawFree).u = s.u := rfl
@[simp] theorem drawFree_inputs (s : State) : (s.drawFree).inputs = s.inputs := rfl
@[simp] theorem drawFree_response (s : State) : (s.drawFree).response = s.response := rfl
@[simp] theorem drawFree_free (s : State) : (s.drawFree).free = s.free + 1 := rfl

/-! ### raiseError: only ERR, ERRCODE and ERRINFO can change (R98) -/

@[simp] theorem raiseError_build (c : ErrCode) (x : BitVec 18) (s : State) : (raiseError c x s).build = s.build := by
  unfold raiseError; split <;> rfl
@[simp] theorem raiseError_seq (c : ErrCode) (x : BitVec 18) (s : State) : (raiseError c x s).seq = s.seq := by
  unfold raiseError; split <;> rfl
@[simp] theorem raiseError_done (c : ErrCode) (x : BitVec 18) (s : State) : (raiseError c x s).done = s.done := by
  unfold raiseError; split <;> rfl
@[simp] theorem raiseError_term (c : ErrCode) (x : BitVec 18) (s : State) : (raiseError c x s).term = s.term := by
  unfold raiseError; split <;> rfl
@[simp] theorem raiseError_memA (c : ErrCode) (x : BitVec 18) (s : State) : (raiseError c x s).memA = s.memA := by
  unfold raiseError; split <;> rfl
@[simp] theorem raiseError_memR (c : ErrCode) (x : BitVec 18) (s : State) : (raiseError c x s).memR = s.memR := by
  unfold raiseError; split <;> rfl
@[simp] theorem raiseError_memC (c : ErrCode) (x : BitVec 18) (s : State) : (raiseError c x s).memC = s.memC := by
  unfold raiseError; split <;> rfl
@[simp] theorem raiseError_base (c : ErrCode) (x : BitVec 18) (s : State) : (raiseError c x s).base = s.base := by
  unfold raiseError; split <;> rfl
@[simp] theorem raiseError_w (c : ErrCode) (x : BitVec 18) (s : State) : (raiseError c x s).w = s.w := by
  unfold raiseError; split <;> rfl
@[simp] theorem raiseError_u (c : ErrCode) (x : BitVec 18) (s : State) : (raiseError c x s).u = s.u := by
  unfold raiseError; split <;> rfl
@[simp] theorem raiseError_inputs (c : ErrCode) (x : BitVec 18) (s : State) : (raiseError c x s).inputs = s.inputs := by
  unfold raiseError; split <;> rfl
@[simp] theorem raiseError_response (c : ErrCode) (x : BitVec 18) (s : State) : (raiseError c x s).response = s.response := by
  unfold raiseError; split <;> rfl
@[simp] theorem raiseError_free (c : ErrCode) (x : BitVec 18) (s : State) : (raiseError c x s).free = s.free := by
  unfold raiseError; split <;> rfl

@[simp] theorem raiseError_err (c : ErrCode) (x : BitVec 18) (s : State) : (raiseError c x s).err = true := by
  unfold raiseError; split <;> simp_all

theorem raiseError_of_err (c : ErrCode) (x : BitVec 18) {s : State} (h : s.err = true) : raiseError c x s = s := by
  simp [raiseError, h]

theorem raiseError_of_clear (c : ErrCode) (x : BitVec 18) {s : State} (h : s.err = false) :
    raiseError c x s = { s with err := true, errCode := c, errInfo := x } := by
  simp [raiseError, h]

/-! ### resetBlock: the block's fields as `State.resetOf` gives them (R112) -/

@[simp] theorem resetBlock_build (s : State) : (resetBlock s).build = s.build := rfl
@[simp] theorem resetBlock_seq (s : State) : (resetBlock s).seq = (State.resetOf s.build).seq := rfl
@[simp] theorem resetBlock_done (s : State) : (resetBlock s).done = (State.resetOf s.build).done := rfl
@[simp] theorem resetBlock_err (s : State) : (resetBlock s).err = (State.resetOf s.build).err := rfl
@[simp] theorem resetBlock_errCode (s : State) : (resetBlock s).errCode = (State.resetOf s.build).errCode := rfl
@[simp] theorem resetBlock_errInfo (s : State) : (resetBlock s).errInfo = (State.resetOf s.build).errInfo := rfl
@[simp] theorem resetBlock_term (s : State) : (resetBlock s).term = (State.resetOf s.build).term := rfl
@[simp] theorem resetBlock_memA (s : State) : (resetBlock s).memA = (State.resetOf s.build).memA := rfl
@[simp] theorem resetBlock_memR (s : State) : (resetBlock s).memR = (State.resetOf s.build).memR := rfl
@[simp] theorem resetBlock_memC (s : State) : (resetBlock s).memC = (State.resetOf s.build).memC := rfl
@[simp] theorem resetBlock_base (s : State) : (resetBlock s).base = (State.resetOf s.build).base := rfl
@[simp] theorem resetBlock_w (s : State) : (resetBlock s).w = (State.resetOf s.build).w := rfl
@[simp] theorem resetBlock_u (s : State) : (resetBlock s).u = (State.resetOf s.build).u := rfl
@[simp] theorem resetBlock_inputs (s : State) : (resetBlock s).inputs = s.inputs := rfl
@[simp] theorem resetBlock_response (s : State) : (resetBlock s).response = (State.resetOf s.build).response := rfl
@[simp] theorem resetBlock_free (s : State) : (resetBlock s).free = s.free := rfl

/-! ### writeStatus: only DONE and the error record can change (R27) -/

@[simp] theorem writeStatus_build (v : Word) (s : State) : (writeStatus v s).build = s.build := by
  simp only [writeStatus]; split <;> split <;> rfl
@[simp] theorem writeStatus_seq (v : Word) (s : State) : (writeStatus v s).seq = s.seq := by
  simp only [writeStatus]; split <;> split <;> rfl
@[simp] theorem writeStatus_term (v : Word) (s : State) : (writeStatus v s).term = s.term := by
  simp only [writeStatus]; split <;> split <;> rfl
@[simp] theorem writeStatus_memA (v : Word) (s : State) : (writeStatus v s).memA = s.memA := by
  simp only [writeStatus]; split <;> split <;> rfl
@[simp] theorem writeStatus_memR (v : Word) (s : State) : (writeStatus v s).memR = s.memR := by
  simp only [writeStatus]; split <;> split <;> rfl
@[simp] theorem writeStatus_memC (v : Word) (s : State) : (writeStatus v s).memC = s.memC := by
  simp only [writeStatus]; split <;> split <;> rfl
@[simp] theorem writeStatus_base (v : Word) (s : State) : (writeStatus v s).base = s.base := by
  simp only [writeStatus]; split <;> split <;> rfl
@[simp] theorem writeStatus_w (v : Word) (s : State) : (writeStatus v s).w = s.w := by
  simp only [writeStatus]; split <;> split <;> rfl
@[simp] theorem writeStatus_u (v : Word) (s : State) : (writeStatus v s).u = s.u := by
  simp only [writeStatus]; split <;> split <;> rfl
@[simp] theorem writeStatus_inputs (v : Word) (s : State) : (writeStatus v s).inputs = s.inputs := by
  simp only [writeStatus]; split <;> split <;> rfl
@[simp] theorem writeStatus_response (v : Word) (s : State) : (writeStatus v s).response = s.response := by
  simp only [writeStatus]; split <;> split <;> rfl
@[simp] theorem writeStatus_free (v : Word) (s : State) : (writeStatus v s).free = s.free := by
  simp only [writeStatus]; split <;> split <;> rfl

/-! ### Reading memory: only the response and the free-value counter can change (R41) -/

@[simp] theorem readMem_build (bs : List (Option Byte)) (s : State) : (readMem bs s).build = s.build := by
  unfold readMem; split <;> rfl
@[simp] theorem readMem_seq (bs : List (Option Byte)) (s : State) : (readMem bs s).seq = s.seq := by
  unfold readMem; split <;> rfl
@[simp] theorem readMem_done (bs : List (Option Byte)) (s : State) : (readMem bs s).done = s.done := by
  unfold readMem; split <;> rfl
@[simp] theorem readMem_err (bs : List (Option Byte)) (s : State) : (readMem bs s).err = s.err := by
  unfold readMem; split <;> rfl
@[simp] theorem readMem_errCode (bs : List (Option Byte)) (s : State) : (readMem bs s).errCode = s.errCode := by
  unfold readMem; split <;> rfl
@[simp] theorem readMem_errInfo (bs : List (Option Byte)) (s : State) : (readMem bs s).errInfo = s.errInfo := by
  unfold readMem; split <;> rfl
@[simp] theorem readMem_term (bs : List (Option Byte)) (s : State) : (readMem bs s).term = s.term := by
  unfold readMem; split <;> rfl
@[simp] theorem readMem_memA (bs : List (Option Byte)) (s : State) : (readMem bs s).memA = s.memA := by
  unfold readMem; split <;> rfl
@[simp] theorem readMem_memR (bs : List (Option Byte)) (s : State) : (readMem bs s).memR = s.memR := by
  unfold readMem; split <;> rfl
@[simp] theorem readMem_memC (bs : List (Option Byte)) (s : State) : (readMem bs s).memC = s.memC := by
  unfold readMem; split <;> rfl
@[simp] theorem readMem_base (bs : List (Option Byte)) (s : State) : (readMem bs s).base = s.base := by
  unfold readMem; split <;> rfl
@[simp] theorem readMem_w (bs : List (Option Byte)) (s : State) : (readMem bs s).w = s.w := by
  unfold readMem; split <;> rfl
@[simp] theorem readMem_u (bs : List (Option Byte)) (s : State) : (readMem bs s).u = s.u := by
  unfold readMem; split <;> rfl
@[simp] theorem readMem_inputs (bs : List (Option Byte)) (s : State) : (readMem bs s).inputs = s.inputs := by
  unfold readMem; split <;> rfl

/-! ### The sequencer -/

@[simp] theorem busy_eq_false {s : State} : s.busy = false ↔ s.seq = .idle := by
  unfold State.busy; split <;> simp_all

@[simp] theorem busy_eq_true {s : State} : s.busy = true ↔ s.seq ≠ .idle := by
  unfold State.busy; split <;> simp_all

theorem busy_of_seq_eq {s t : State} (h : s.seq = t.seq) : s.busy = t.busy := by
  unfold State.busy; rw [h]

end Sys2Proof.Machine
end

