-- ==== Sys2Proof/Laws/Memory.lean ====
section
/-! SUPPORT. What the memory operations do: reading after writing, and the canonical form each keeps. -/

namespace Sys2Proof.Machine.Memory

/-! ### One byte -/

@[simp] theorem read_nil (k : Nat) : Memory.read [] k = none := rfl

theorem read_write_same (mem : Memory) (k : Nat) (v : Byte) : (mem.write k v).read k = some v := by
  induction mem with
  | nil => simp [Memory.write, Memory.read]
  | cons cell rest ih =>
    unfold Memory.write
    split
    · simp [Memory.read]
    · split
      · simp [Memory.read]
      · rename_i _ hne; simp [Memory.read, hne, ih]

theorem read_write_other (mem : Memory) {k j : Nat} (v : Byte) (h : j ≠ k) : (mem.write k v).read j = mem.read j := by
  induction mem with
  | nil => simp [Memory.write, Memory.read, h.symm]
  | cons cell rest ih =>
    unfold Memory.write
    split
    · simp [Memory.read, h.symm]
    · split
      · rename_i _ heq; subst heq; simp [Memory.read, h.symm]
      · simp [Memory.read, ih]

theorem read_write (mem : Memory) (k j : Nat) (v : Byte) :
    (mem.write k v).read j = if j = k then some v else mem.read j := by
  split
  · rename_i h; subst h; exact read_write_same mem j v
  · rename_i h; exact read_write_other mem v h

/-- A written memory lists what it listed, and the written index. -/
theorem mem_write {mem : Memory} {k : Nat} {v : Byte} {cell : Host.Cell} (h : cell ∈ mem.write k v) :
    cell = (k, v) ∨ cell ∈ mem := by
  induction mem with
  | nil => simpa [Memory.write] using h
  | cons c rest ih =>
    unfold Memory.write at h
    split at h
    · simpa using h
    · split at h
      · rcases List.mem_cons.1 h with h | h
        · exact .inl h
        · exact .inr (List.mem_cons_of_mem _ h)
      · rcases List.mem_cons.1 h with h | h
        · exact .inr (h ▸ List.mem_cons_self)
        · exact (ih h).imp id (List.mem_cons_of_mem _)

theorem within_write {mem : Memory} {size k : Nat} (v : Byte) (h : mem.within size) (hk : k < size) :
    (mem.write k v).within size := by
  intro cell hc
  rcases mem_write hc with rfl | hc
  · exact hk
  · exact h cell hc

theorem wf_write {mem : Memory} (k : Nat) (v : Byte) (h : mem.wf) : (mem.write k v).wf := by
  induction mem with
  | nil => simp [Memory.write]
  | cons c rest ih =>
    have hr : ∀ x ∈ rest, c.1 < x.1 := (List.pairwise_cons.1 h).1
    have hw : Memory.wf rest := (List.pairwise_cons.1 h).2
    unfold Memory.write
    split
    · rename_i hlt
      refine List.pairwise_cons.2 ⟨?_, h⟩
      intro x hx
      rcases List.mem_cons.1 hx with rfl | hx
      · exact hlt
      · exact Nat.lt_trans hlt (hr x hx)
    · split
      · rename_i _ heq
        exact List.pairwise_cons.2 ⟨fun x hx => heq ▸ hr x hx, hw⟩
      · rename_i hge hne
        refine List.pairwise_cons.2 ⟨?_, ih hw⟩
        intro x hx
        rcases mem_write hx with rfl | hx
        · show c.1 < k; omega
        · exact hr x hx

theorem isSome_write {mem : Memory} {j : Nat} (k : Nat) (v : Byte) (h : (mem.read j).isSome) :
    ((mem.write k v).read j).isSome := by
  rw [read_write]; split <;> simp [h]

theorem full_write {mem : Memory} {size : Nat} (k : Nat) (v : Byte) (h : mem.full size) : (mem.write k v).full size :=
  fun j hj => isSome_write k v (h j hj)

/-- A memory within its size holds nothing at or beyond it. -/
theorem read_of_within {mem : Memory} {size k : Nat} (h : mem.within size) (hk : size ≤ k) : mem.read k = none := by
  induction mem with
  | nil => rfl
  | cons c rest ih =>
    have hc := h c List.mem_cons_self
    have hne : c.1 ≠ k := by omega
    simp only [Memory.read, hne, if_false]
    exact ih fun x hx => h x (List.mem_cons_of_mem _ hx)

/-! ### A vector of bytes -/

theorem read_writeBytes (mem : Memory) (k j : Nat) (vs : List Byte) :
    (mem.writeBytes k vs).read j = if k ≤ j ∧ j < k + vs.length then vs[j - k]? else mem.read j := by
  induction vs generalizing mem k with
  | nil =>
    have : ¬(k ≤ j ∧ j < k + ([] : List Byte).length) := by simp
    rw [if_neg this]; rfl
  | cons v rest ih =>
    simp only [Memory.writeBytes, ih, List.length_cons, read_write]
    by_cases h1 : k + 1 ≤ j ∧ j < k + 1 + rest.length
    · have h2 : k ≤ j ∧ j < k + (rest.length + 1) := by omega
      have h3 : j - k = j - (k + 1) + 1 := by omega
      rw [if_pos h1, if_pos h2, h3, List.getElem?_cons_succ]
    · rw [if_neg h1]
      by_cases h2 : j = k
      · subst h2; simp
      · have h3 : ¬(k ≤ j ∧ j < k + (rest.length + 1)) := by omega
        rw [if_neg h2, if_neg h3]

theorem wf_writeBytes {mem : Memory} (k : Nat) (vs : List Byte) (h : mem.wf) : (mem.writeBytes k vs).wf := by
  induction vs generalizing mem k with
  | nil => exact h
  | cons v rest ih => exact ih (k + 1) (wf_write k v h)

theorem within_writeBytes {mem : Memory} {size k : Nat} {vs : List Byte} (h : mem.within size)
    (hk : k + vs.length ≤ size) : (mem.writeBytes k vs).within size := by
  induction vs generalizing mem k with
  | nil => exact h
  | cons v rest ih =>
    simp only [List.length_cons] at hk
    exact ih (within_write v h (by omega)) (by omega)

theorem full_writeBytes {mem : Memory} {size : Nat} (k : Nat) (vs : List Byte) (h : mem.full size) :
    (mem.writeBytes k vs).full size := by
  induction vs generalizing mem k with
  | nil => exact h
  | cons v rest ih => exact ih (k + 1) (full_write k v h)

@[simp] theorem length_readBytes (mem : Memory) (k n : Nat) : (mem.readBytes k n).length = n := by
  induction n generalizing k with
  | zero => rfl
  | succ n ih => simp [Memory.readBytes, ih]

theorem getElem?_readBytes (mem : Memory) (k n m : Nat) :
    (mem.readBytes k n)[m]? = if m < n then some (mem.read (k + m)) else none := by
  induction n generalizing k m with
  | zero => simp [Memory.readBytes]
  | succ n ih =>
    cases m with
    | zero => simp [Memory.readBytes]
    | succ m =>
      simp only [Memory.readBytes, List.getElem?_cons_succ, ih]
      have : k + 1 + m = k + (m + 1) := by omega
      simp [this]

/-! ### A zeroed memory -/

theorem mem_zeroed {size : Nat} {cell : Host.Cell} : cell ∈ Memory.zeroed size ↔ cell.1 < size ∧ cell.2 = 0#8 := by
  obtain ⟨k, v⟩ := cell
  simp only [Memory.zeroed, List.mem_map, List.mem_range, Prod.mk.injEq]
  constructor
  · rintro ⟨a, ha, rfl, rfl⟩; exact ⟨ha, rfl⟩
  · rintro ⟨h, rfl⟩; exact ⟨k, h, rfl, rfl⟩

theorem within_zeroed (size : Nat) : (Memory.zeroed size).within size := fun _ h => (mem_zeroed.1 h).1

theorem wf_zeroed (size : Nat) : (Memory.zeroed size).wf := by
  unfold Memory.wf Memory.zeroed
  rw [List.pairwise_map]
  exact List.pairwise_lt_range

/-- What a memory that lists an index reads there is one of its entries. -/
theorem read_map_const (ks : List Nat) (v : Byte) (j : Nat) :
    Memory.read (ks.map fun k => (k, v)) j = if j ∈ ks then some v else none := by
  induction ks with
  | nil => simp
  | cons k rest ih =>
    simp only [List.map_cons, Memory.read, ih, List.mem_cons]
    by_cases h : k = j
    · simp [h]
    · simp [h, Ne.symm h]

theorem read_zeroed (size k : Nat) : (Memory.zeroed size).read k = if k < size then some 0#8 else none := by
  simp [Memory.zeroed, read_map_const]

theorem full_zeroed (size : Nat) : (Memory.zeroed size).full size := by
  intro k hk; simp [read_zeroed, hk]

end Sys2Proof.Machine.Memory
end

