-- ==== Sys2Proof/Laws/Engine.lean ====
section
/-! SUPPORT. What an engine access answers, and what each micro-step does: one inversion lemma and one forward lemma
each. -/

namespace Sys2Proof.Machine

/-! ### Loads and stores -/

theorem loadByte_ok {which : LocalMem} {mem : Memory} {size k : Nat} {v : Byte} :
    loadByte which mem size k = .ok v ↔ k < size ∧ mem.read k = some v := by
  unfold loadByte
  by_cases h : k < size
  · cases hr : mem.read k <;> simp [h]
  · simp [h]

theorem loadByte_error {which : LocalMem} {mem : Memory} {size k : Nat} {f : Fault} :
    loadByte which mem size k = .error f ↔
      (k < size ∧ mem.read k = none ∧ f = .unwrittenRead which k) ∨ (size ≤ k ∧ f = .engineIndex which k) := by
  unfold loadByte
  by_cases h : k < size
  · cases hr : mem.read k <;> simp [h, Nat.not_le.2 h, eq_comm]
  · simp [h, Nat.not_lt.1 h, eq_comm]

theorem loadWindow_ok {which : LocalMem} {mem : Memory} {size k n : Nat} {vs : List Byte} :
    loadWindow which mem size k n = .ok vs ↔ (n = 0 ∨ k + n ≤ size) ∧ mem.readBytes k n = vs.map some := by
  induction n generalizing k vs with
  | zero => cases vs <;> simp [loadWindow, Memory.readBytes]
  | succ n ih =>
    unfold loadWindow
    cases hb : loadByte which mem size k with
    | error f =>
      refine iff_of_false (by simp) ?_
      rintro ⟨hk, hr⟩
      rcases loadByte_error.1 hb with ⟨_, hn, _⟩ | ⟨hle, _⟩
      · rw [Memory.readBytes, hn] at hr
        cases vs <;> simp at hr
      · omega
    | ok v =>
      obtain ⟨hk, hv⟩ := loadByte_ok.1 hb
      cases hw : loadWindow which mem size (k + 1) n with
      | error f =>
        refine iff_of_false (by simp) ?_
        rintro ⟨hle, hr⟩
        cases vs with
        | nil => simp [Memory.readBytes] at hr
        | cons w ws =>
          simp only [Memory.readBytes, List.map_cons, List.cons.injEq] at hr
          have := ih.2 (⟨by omega, hr.2⟩ : _ ∧ mem.readBytes (k + 1) n = ws.map some)
          rw [hw] at this; cases this
      | ok ws =>
        obtain ⟨hle, hr⟩ := ih.1 hw
        simp only [Except.ok.injEq, Memory.readBytes, hv, hr]
        constructor
        · rintro rfl; exact ⟨by omega, rfl⟩
        · rintro ⟨_, h⟩
          cases vs with
          | nil => simp at h
          | cons x xs =>
            simp only [List.map_cons, List.cons.injEq, Option.some.injEq] at h
            rw [h.1, (List.map_injective_iff.2 (Option.some_injective _)) h.2]

theorem loadWindow_length {which : LocalMem} {mem : Memory} {size k n : Nat} {vs : List Byte}
    (h : loadWindow which mem size k n = .ok vs) : vs.length = n := by
  have := congrArg List.length (loadWindow_ok.1 h).2
  simpa using this.symm

/-- Byte m of a loaded window is the byte at the window's start plus m (R38). -/
theorem loadWindow_getElem {which : LocalMem} {mem : Memory} {size k n : Nat} {vs : List Byte}
    (h : loadWindow which mem size k n = .ok vs) {m : Nat} (hm : m < n) : mem.read (k + m) = vs[m]? := by
  have h1 : (mem.readBytes k n)[m]? = (vs.map some)[m]? := by rw [(loadWindow_ok.1 h).2]
  have h2 := loadWindow_length h
  rw [Memory.getElem?_readBytes, if_pos hm, List.getElem?_map] at h1
  cases hv : vs[m]? <;> simp_all

/-- A window whose every byte has been written loads. -/
theorem loadWindow_exists {which : LocalMem} {mem : Memory} {size k n : Nat} (hk : k + n ≤ size)
    (hw : ∀ m < n, (mem.read (k + m)).isSome) : ∃ vs, loadWindow which mem size k n = .ok vs := by
  induction n generalizing k with
  | zero => exact ⟨[], rfl⟩
  | succ n ih =>
    obtain ⟨v, hv⟩ := Option.isSome_iff_exists.1 (hw 0 (by omega))
    rw [Nat.add_zero] at hv
    obtain ⟨vs, hvs⟩ := ih (k := k + 1) (by omega) fun m hm => by
      have h1 := hw (m + 1) (by omega)
      have : k + 1 + m = k + (m + 1) := by omega
      rwa [this]
    refine ⟨v :: vs, ?_⟩
    rw [loadWindow, (loadByte_ok (which := which)).2 ⟨by omega, hv⟩]
    simp [hvs]

/-- A window that does not load names a byte of it: one not written, or one outside the memory. -/
theorem loadWindow_error {which : LocalMem} {mem : Memory} {size k n : Nat} {f : Fault}
    (h : loadWindow which mem size k n = .error f) :
    ∃ m < n, (k + m < size ∧ mem.read (k + m) = none ∧ f = .unwrittenRead which (k + m)) ∨
      (size ≤ k + m ∧ f = .engineIndex which (k + m)) := by
  induction n generalizing k with
  | zero => simp [loadWindow] at h
  | succ n ih =>
    unfold loadWindow at h
    cases hb : loadByte which mem size k with
    | error g =>
      rw [hb] at h; simp only [Except.error.injEq] at h; subst h
      exact ⟨0, by omega, by simpa using loadByte_error.1 hb⟩
    | ok v =>
      rw [hb] at h
      cases hw : loadWindow which mem size (k + 1) n with
      | ok ws => rw [hw] at h; simp at h
      | error g =>
        rw [hw] at h; simp only [Except.error.injEq] at h; subst h
        obtain ⟨m, hm, hf⟩ := ih hw
        have : k + (m + 1) = k + 1 + m := by omega
        exact ⟨m + 1, by omega, by rw [this]; exact hf⟩

theorem storeWindow_ok {which : LocalMem} {mem mem' : Memory} {size k : Nat} {vs : List Byte} :
    storeWindow which mem size k vs = .ok mem' ↔ k + vs.length ≤ size ∧ mem' = mem.writeBytes k vs := by
  unfold storeWindow
  split
  · rename_i h; simp only [Except.ok.injEq, h, true_and]; exact eq_comm
  · rename_i h; simp [h]

theorem storeWindow_error {which : LocalMem} {mem : Memory} {size k : Nat} {vs : List Byte} {f : Fault} :
    storeWindow which mem size k vs = .error f ↔ size < k + vs.length ∧ f = .engineIndex which k := by
  unfold storeWindow
  split
  · rename_i h; simp [Nat.not_lt.2 h]
  · rename_i h; simp only [Except.error.injEq, Nat.not_le.1 h, true_and]; exact eq_comm

/-! ### Lanes -/

@[simp] theorem length_laneAdd (x y : List Byte) : (laneAdd x y).length = min x.length y.length := by simp [laneAdd]

@[simp] theorem length_laneSub (x y : List Byte) : (laneSub x y).length = min x.length y.length := by simp [laneSub]

/-- mod256 of an integer, as a number (R64). -/
theorem ofInt8_toNat (z : Int) : ((BitVec.ofInt 8 z).toNat : Int) = z % 256 := by
  rw [BitVec.toNat_ofInt]; omega

/-- A byte and a second reading of it with the same residue add alike: the result "is the same whether Y's bytes are
read as signed or as unsigned" (R65). -/
theorem add8_congr (x : Byte) {d e : Int} (h : d % 256 = e % 256) : add8 x d = add8 x e := by
  apply BitVec.eq_of_toNat_eq
  have h1 := ofInt8_toNat ((x.toNat : Int) + d)
  have h2 := ofInt8_toNat ((x.toNat : Int) + e)
  unfold add8; omega

theorem toInt_emod (v : Byte) : v.toInt % 256 = (v.toNat : Int) % 256 := by
  rw [BitVec.toInt_eq_toNat_bmod]; exact Int.bmod_emod

theorem add8_toNat_eq_sext (x v : Byte) : add8 x (v.toNat : Int) = add8 x (sext8 v) :=
  add8_congr x (toInt_emod v).symm

theorem sub8_eq_add8_neg (x v : Byte) : sub8 x v = add8 x (-sext8 v) := by
  have h : sub8 x v = add8 x (-(v.toNat : Int)) := by unfold sub8 add8; congr 1
  rw [h]
  apply add8_congr
  have := toInt_emod v
  unfold sext8; omega

/-! ### Micro-steps of REFCONV -/

theorem refAcc_ok {t : Fin 20} {j : Nat} {s s' : State} :
    refAcc t j s = .ok s' ↔ ∃ a x, j < s.build.n ∧ s.memA.read j = some a ∧ j + s.expOf t < 2 * s.build.n ∧
      s.memR.read (j + s.expOf t) = some x ∧
      s' = { s with memR := s.memR.write (j + s.expOf t) (add8 x (s.signOf t * sext8 a)) } := by
  unfold refAcc
  cases ha : loadByte .a s.memA s.build.n j with
  | error f =>
    simp only [reduceCtorEq, false_iff]
    rintro ⟨a, x, hj, hr, -⟩
    rw [loadByte_ok.2 ⟨hj, hr⟩] at ha; cases ha
  | ok a =>
    obtain ⟨hj, hra⟩ := loadByte_ok.1 ha
    cases hx : loadByte .r s.memR (2 * s.build.n) (j + s.expOf t) with
    | error f =>
      simp only [reduceCtorEq, false_iff]
      rintro ⟨a', x, -, -, hk, hr, -⟩
      rw [loadByte_ok.2 ⟨hk, hr⟩] at hx; cases hx
    | ok x =>
      obtain ⟨hk, hrx⟩ := loadByte_ok.1 hx
      simp only [Except.ok.injEq]
      constructor
      · rintro rfl; exact ⟨a, x, hj, hra, hk, hrx, rfl⟩
      · rintro ⟨a', x', -, ha', -, hx', rfl⟩
        rw [hra] at ha'; rw [hrx] at hx'
        cases ha'; cases hx'; rfl

theorem refFold_ok {i : Nat} {s s' : State} :
    refFold i s = .ok s' ↔ ∃ x y, i < s.build.n ∧ s.memR.read i = some x ∧ s.memR.read (i + s.build.n) = some y ∧
      s' = { s with memC := s.memC.write i (sub8 x y) } := by
  unfold refFold
  cases hx : loadByte .r s.memR (2 * s.build.n) i with
  | error f =>
    simp only [reduceCtorEq, false_iff]
    rintro ⟨x, y, hi, hr, -⟩
    rw [loadByte_ok.2 ⟨by omega, hr⟩] at hx; cases hx
  | ok x =>
    obtain ⟨_, hrx⟩ := loadByte_ok.1 hx
    cases hy : loadByte .r s.memR (2 * s.build.n) (i + s.build.n) with
    | error f =>
      simp only [reduceCtorEq, false_iff]
      rintro ⟨x', y, hi, -, hr, -⟩
      rw [loadByte_ok.2 ⟨by omega, hr⟩] at hy; cases hy
    | ok y =>
      obtain ⟨hi, hry⟩ := loadByte_ok.1 hy
      have hst : storeWindow .c s.memC s.build.n i [sub8 x y] = .ok (s.memC.write i (sub8 x y)) :=
        storeWindow_ok.2 ⟨by simp; omega, rfl⟩
      simp only [hst, Except.ok.injEq]
      constructor
      · rintro rfl; exact ⟨x, y, by omega, hrx, hry, rfl⟩
      · rintro ⟨x', y', -, hx', hy', rfl⟩
        rw [hrx] at hx'; rw [hry] at hy'
        cases hx'; cases hy'; rfl

/-! ### Micro-steps of VECCONV -/

theorem vecBase_ok {j : Nat} {s s' : State} :
    vecBase j s = .ok s' ↔ ∃ lane, loadWindow .a s.memA s.build.n (s.build.l * j) s.build.l = .ok lane ∧
      s' = { s with base := s.base.set j lane } := by
  unfold vecBase
  cases hl : loadWindow .a s.memA s.build.n (s.build.l * j) s.build.l with
  | error f => simp
  | ok lane => simp [eq_comm]

theorem vecAcc_ok {op : List Byte → List Byte → List Byte} {t : Fin 20} {j : Nat} {s s' : State} :
    vecAcc op t j s = .ok s' ↔ ∃ win lane,
      loadWindow .r s.memR (2 * s.build.n) (s.build.l * j + s.expOf t) s.build.l = .ok win ∧
      s.base[j]? = some lane ∧ s.build.l * j + s.expOf t + (op win lane).length ≤ 2 * s.build.n ∧
      s' = { s with memR := s.memR.writeBytes (s.build.l * j + s.expOf t) (op win lane), w := op win lane } := by
  unfold vecAcc
  cases hw : loadWindow .r s.memR (2 * s.build.n) (s.build.l * j + s.expOf t) s.build.l with
  | error f => simp
  | ok win =>
    cases hb : s.base[j]? with
    | none => simp
    | some lane =>
      cases hs : storeWindow .r s.memR (2 * s.build.n) (s.build.l * j + s.expOf t) (op win lane) with
      | error f =>
        refine iff_of_false (by simp [hs]) ?_
        rintro ⟨win', lane', h1, h2, h3, -⟩
        cases h1; cases h2
        have := storeWindow_error.1 hs; omega
      | ok mem =>
        obtain ⟨hle, rfl⟩ := storeWindow_ok.1 hs
        simp only [hs, Except.ok.injEq]
        constructor
        · rintro rfl; exact ⟨win, lane, rfl, rfl, hle, rfl⟩
        · rintro ⟨_, _, rfl, h2, -, rfl⟩; cases h2; rfl

theorem vecFold_ok {j : Nat} {s s' : State} :
    vecFold j s = .ok s' ↔ ∃ lower upper,
      loadWindow .r s.memR (2 * s.build.n) (s.build.l * j) s.build.l = .ok lower ∧
      loadWindow .r s.memR (2 * s.build.n) (s.build.l * j + s.build.n) s.build.l = .ok upper ∧
      s.build.l * j + s.build.l ≤ s.build.n ∧
      s' = { s with memC := s.memC.writeBytes (s.build.l * j) (laneSub lower upper), w := lower, u := upper } := by
  unfold vecFold
  cases hl : loadWindow .r s.memR (2 * s.build.n) (s.build.l * j) s.build.l with
  | error f => simp
  | ok lower =>
    cases hu : loadWindow .r s.memR (2 * s.build.n) (s.build.l * j + s.build.n) s.build.l with
    | error f => simp
    | ok upper =>
      have hlen : (laneSub lower upper).length = s.build.l := by
        simp [loadWindow_length hl, loadWindow_length hu]
      cases hs : storeWindow .c s.memC s.build.n (s.build.l * j) (laneSub lower upper) with
      | error f =>
        refine iff_of_false (by simp [hs]) ?_
        rintro ⟨_, _, -, -, h3, -⟩
        have := storeWindow_error.1 hs; omega
      | ok mem =>
        obtain ⟨hle, rfl⟩ := storeWindow_ok.1 hs
        simp only [hs, Except.ok.injEq]
        constructor
        · rintro rfl; exact ⟨lower, upper, rfl, rfl, by omega, rfl⟩
        · rintro ⟨_, _, rfl, rfl, -, rfl⟩; rfl

/-! ### What a micro-step leaves alone -/

/-- What no micro-step changes: the build, SEQ, the flags and the error record, TERM, A and the model's own fields; SEQ
and DONE are the sequencer's (R17, R43). -/
structure SameOperands (s t : State) : Prop where
  build : t.build = s.build
  err : t.err = s.err
  errCode : t.errCode = s.errCode
  errInfo : t.errInfo = s.errInfo
  term : t.term = s.term
  memA : t.memA = s.memA
  inputs : t.inputs = s.inputs
  response : t.response = s.response
  free : t.free = s.free

theorem SameOperands.trans {s t v : State} (h : SameOperands s t) (g : SameOperands t v) : SameOperands s v where
  build := g.build.trans h.build
  err := g.err.trans h.err
  errCode := g.errCode.trans h.errCode
  errInfo := g.errInfo.trans h.errInfo
  term := g.term.trans h.term
  memA := g.memA.trans h.memA
  inputs := g.inputs.trans h.inputs
  response := g.response.trans h.response
  free := g.free.trans h.free

theorem refMicro_same {p : RefPos} {s t : State} (h : refMicro p s = .ok t) :
    SameOperands s t ∧ t.seq = s.seq ∧ t.done = s.done := by
  cases p with
  | zero => cases h; exact ⟨by constructor <;> rfl, rfl, rfl⟩
  | acc t' j =>
    obtain ⟨a, x, -, -, -, -, rfl⟩ := refAcc_ok.1 h
    exact ⟨by constructor <;> rfl, rfl, rfl⟩
  | fold i =>
    obtain ⟨x, y, -, -, -, rfl⟩ := refFold_ok.1 h
    exact ⟨by constructor <;> rfl, rfl, rfl⟩

theorem vecMicro_same {p : VecPos} {s t : State} (h : vecMicro p s = .ok t) :
    SameOperands s t ∧ t.seq = s.seq ∧ t.done = s.done := by
  cases p with
  | base j =>
    obtain ⟨lane, -, rfl⟩ := vecBase_ok.1 h
    exact ⟨by constructor <;> rfl, rfl, rfl⟩
  | zero => cases h; exact ⟨by constructor <;> rfl, rfl, rfl⟩
  | pos i j =>
    obtain ⟨win, lane, -, -, -, rfl⟩ := vecAcc_ok.1 h
    exact ⟨by constructor <;> rfl, rfl, rfl⟩
  | neg i j =>
    obtain ⟨win, lane, -, -, -, rfl⟩ := vecAcc_ok.1 h
    exact ⟨by constructor <;> rfl, rfl, rfl⟩
  | fold j =>
    obtain ⟨lower, upper, -, -, -, rfl⟩ := vecFold_ok.1 h
    exact ⟨by constructor <;> rfl, rfl, rfl⟩

theorem advanceRef_same (p : RefPos) (s : State) : SameOperands s (advanceRef p s) := by
  unfold advanceRef; split <;> constructor <;> rfl

theorem advanceVec_same (p : VecPos) (s : State) : SameOperands s (advanceVec p s) := by
  unfold advanceVec; split <;> constructor <;> rfl

/-- Everything one step of the ENGINE can do: nothing while IDLE, a micro-step and the sequencer's move while a command
runs, or a fault of the micro-step. -/
theorem engineStep_cases (s : State) :
    (s.seq = .idle ∧ engineStep s = .next s) ∨
    (∃ p, s.seq = .refconv p ∧ ((∃ f, refMicro p s = .error f ∧ engineStep s = .fault f) ∨
      ∃ t, refMicro p s = .ok t ∧ engineStep s = .next (advanceRef p t))) ∨
    (∃ p, s.seq = .vecconv p ∧ ((∃ f, vecMicro p s = .error f ∧ engineStep s = .fault f) ∨
      ∃ t, vecMicro p s = .ok t ∧ engineStep s = .next (advanceVec p t))) := by
  unfold engineStep
  cases hs : s.seq with
  | idle => exact .inl ⟨rfl, rfl⟩
  | refconv p =>
    refine .inr (.inl ⟨p, rfl, ?_⟩)
    cases hm : refMicro p s with
    | error f => exact .inl ⟨f, rfl, by simp [hm]⟩
    | ok t => exact .inr ⟨t, rfl, by simp [hm]⟩
  | vecconv p =>
    refine .inr (.inr ⟨p, rfl, ?_⟩)
    cases hm : vecMicro p s with
    | error f => exact .inl ⟨f, rfl, by simp [hm]⟩
    | ok t => exact .inr ⟨t, rfl, by simp [hm]⟩

/-- A step of the ENGINE leaves the operands, the error record and the model's own fields alone (R17, R43). -/
theorem engineStep_same {s t : State} (h : engineStep s = .next t) : SameOperands s t := by
  rcases engineStep_cases s with ⟨_, h1⟩ | ⟨p, _, ⟨f, _, h1⟩ | ⟨s', hm, h1⟩⟩ | ⟨p, _, ⟨f, _, h1⟩ | ⟨s', hm, h1⟩⟩ <;>
    rw [h1] at h <;> simp only [Host.Outcome.next.injEq, reduceCtorEq] at h
  · subst h; constructor <;> rfl
  · subst h; exact (refMicro_same hm).1.trans (advanceRef_same p s')
  · subst h; exact (vecMicro_same hm).1.trans (advanceVec_same p s')

/-- The ENGINE never refuses. -/
theorem engineStep_not_refused (s : State) (r : Refusal) : engineStep s ≠ .refused r := by
  rcases engineStep_cases s with ⟨_, h1⟩ | ⟨p, _, ⟨f, _, h1⟩ | ⟨s', hm, h1⟩⟩ | ⟨p, _, ⟨f, _, h1⟩ | ⟨s', hm, h1⟩⟩ <;>
    rw [h1] <;> simp

/-- While IDLE the ENGINE has no step (R13). -/
theorem engineSteps_idle (k : Nat) {s : State} (h : s.seq = .idle) : engineSteps k s = .next s := by
  induction k with
  | zero => rfl
  | succ k ih => simp [engineSteps, engineStep, h, ih]

theorem engineSteps_add (a b : Nat) (s : State) {t : State} (h : engineSteps a s = .next t) :
    engineSteps (a + b) s = engineSteps b t := by
  induction a generalizing s with
  | zero => cases h; simp
  | succ a ih =>
    rw [Nat.succ_add, engineSteps]
    rw [engineSteps] at h
    cases hs : engineStep s with
    | next s' => rw [hs] at h; exact ih s' h
    | fault f => rw [hs] at h; cases h
    | refused r => rw [hs] at h; cases h

end Sys2Proof.Machine
end

