-- ==== Sys2Proof/Laws/Bus.lean ====
section
/-! SUPPORT. The address map and what a transaction reaches, and what a write or a read can change. -/

namespace Sys2Proof.Machine

theorem legal_bounds {b : Build} (h : b.legal = true) :
    1 ≤ b.n ∧ b.n ≤ 32768 ∧ 1 ≤ b.l ∧ b.l ≤ 255 ∧ b.baseAddr % 0x40000 = 0 := by
  simpa [Build.legal] using h

/-! ### The map (R34) -/

/-- An offset is mapped exactly where R34 lists it. -/
theorem byteTarget_isSome {b : Build} {off : Nat} :
    (byteTarget b off).isSome ↔ off < 0x10 ∨ (0x100 ≤ off ∧ off < 0x150) ∨ (0x10000 ≤ off ∧ off < 0x10000 + b.n) ∨
      (0x20000 ≤ off ∧ off < 0x20000 + b.n) ∨ (0x30000 ≤ off ∧ off < 0x30000 + 2 * b.n) := by
  unfold byteTarget
  split_ifs <;> simp <;> omega

theorem byteTarget_a {b : Build} {off i : Nat} :
    byteTarget b off = some (.a i) ↔ 0x10000 ≤ off ∧ off < 0x10000 + b.n ∧ i = off - 0x10000 := by
  unfold byteTarget
  split_ifs <;> simp <;> omega

theorem byteTarget_c {b : Build} {off i : Nat} (hn : b.n ≤ 32768) :
    byteTarget b off = some (.c i) ↔ 0x20000 ≤ off ∧ off < 0x20000 + b.n ∧ i = off - 0x20000 := by
  unfold byteTarget
  split_ifs <;> simp <;> omega

theorem byteTarget_r {b : Build} {off k : Nat} (hn : b.n ≤ 32768) :
    byteTarget b off = some (.r k) ↔ 0x30000 ≤ off ∧ off < 0x30000 + 2 * b.n ∧ k = off - 0x30000 := by
  unfold byteTarget
  split_ifs <;> simp <;> omega

theorem byteTarget_term {b : Build} {off : Nat} {t : Fin 20} :
    byteTarget b off = some (.term t) ↔ 0x100 ≤ off ∧ off < 0x150 ∧ t.val = (off - 0x100) / 4 := by
  unfold byteTarget
  split_ifs <;> simp [Fin.ext_iff] <;> omega

theorem byteTarget_cmd {b : Build} {off : Nat} : byteTarget b off = some .cmd ↔ 4 ≤ off ∧ off < 8 := by
  unfold byteTarget
  split_ifs <;> simp <;> omega

theorem byteTarget_config {b : Build} {off : Nat} : byteTarget b off = some .config ↔ off < 4 := by
  unfold byteTarget
  split_ifs <;> simp <;> omega

theorem byteTarget_status {b : Build} {off : Nat} : byteTarget b off = some .status ↔ 8 ≤ off ∧ off < 12 := by
  unfold byteTarget
  split_ifs <;> simp <;> omega

theorem byteTarget_errInfo {b : Build} {off : Nat} : byteTarget b off = some .errInfo ↔ 12 ≤ off ∧ off < 16 := by
  unfold byteTarget
  split_ifs <;> simp <;> omega

/-! ### What a transaction reaches (R36) -/

theorem busOkay_iff {b : Build} {off size : Nat} :
    busOkay b off size = true ↔ (size = 1 ∨ size = 2 ∨ size = 4) ∧ off % size = 0 ∧
      (∀ m < size, (byteTarget b (off + m)).isSome) ∧ (0x10000 ≤ off ∨ size = 4) := by
  simp only [busOkay, allMapped, Bool.and_eq_true, decide_eq_true_eq, List.all_eq_true, List.mem_range]
  tauto

theorem busTarget_some {b : Build} {off size : Nat} {tgt : Target} :
    busTarget b off size = some tgt ↔ busOkay b off size = true ∧ byteTarget b off = some tgt := by
  unfold busTarget
  split <;> simp_all

theorem busTarget_none {b : Build} {off size : Nat} : busTarget b off size = none ↔ busOkay b off size = false := by
  unfold busTarget
  split
  · rename_i h
    have h0 := (busOkay_iff.1 h).2.2.1 0 (by rcases (busOkay_iff.1 h).1 with h | h | h <;> omega)
    rw [Nat.add_zero] at h0
    simp [h, Option.isSome_iff_ne_none.1 h0]
  · rename_i h; simp [Bool.not_eq_true _ ▸ h]

theorem hostTarget_at (b : Build) (off size : Nat) : hostTarget b (b.baseAddr + off) size = busTarget b off size := by
  simp [hostTarget, hostOffset]

/-- A transaction that reaches A lies whole in it (R34, R36). -/
theorem busTarget_a {b : Build} {off size i : Nat} (hn : b.n ≤ 32768) (h : busTarget b off size = some (.a i)) :
    0x10000 ≤ off ∧ off = 0x10000 + i ∧ i + size ≤ b.n ∧ (size = 1 ∨ size = 2 ∨ size = 4) := by
  obtain ⟨hok, ht⟩ := busTarget_some.1 h
  obtain ⟨hs, -, hm, -⟩ := busOkay_iff.1 hok
  obtain ⟨h1, h2, h3⟩ := byteTarget_a.1 ht
  have h4 := byteTarget_isSome.1 (hm (size - 1) (by omega))
  omega

/-- A transaction of registers or of TERM is a 4-byte one (R36). -/
theorem busTarget_word {b : Build} {off size : Nat} {tgt : Target} (h : busTarget b off size = some tgt)
    (hlow : off < 0x10000) : size = 4 ∧ off % 4 = 0 := by
  obtain ⟨hs, ha, -, hw⟩ := busOkay_iff.1 (busTarget_some.1 h).1
  have : size = 4 := by omega
  subst this; exact ⟨rfl, ha⟩

theorem hostTarget_some {b : Build} {addr size : Nat} {tgt : Target} :
    hostTarget b addr size = some tgt ↔ b.baseAddr ≤ addr ∧ busTarget b (addr - b.baseAddr) size = some tgt := by
  unfold hostTarget hostOffset
  split <;> split at * <;> simp_all

/-! ### Issuing a command -/

theorem firstBadTerm_none {s : State} : firstBadTerm s = none ↔ s.expsInRange := by
  simp [firstBadTerm, List.find?_eq_none]

theorem firstBadTerm_some {s : State} {t : Fin 20} :
    firstBadTerm s = some t ↔ s.build.n ≤ s.expOf t ∧ ∀ t' < t, s.expOf t' < s.build.n := by
  constructor
  · intro h
    have h1 := List.find?_some h
    refine ⟨by simpa using h1, fun t' ht' => ?_⟩
    obtain ⟨_, as, bs, heq, has⟩ := List.find?_eq_some_iff_append.1 h
    by_contra hc
    have hmem : t' ∈ as := by
      have h2 : t' ∈ List.finRange 20 := List.mem_finRange t'
      rw [heq, List.mem_append] at h2
      rcases h2 with h2 | h2
      · exact h2
      · exfalso
        have hp : (List.finRange 20).Pairwise (· < ·) := List.pairwise_lt_finRange 20
        rw [heq, List.pairwise_append] at hp
        have h3 := (List.pairwise_cons.1 hp.2.1).1
        rcases List.mem_cons.1 h2 with rfl | h2
        · exact absurd ht' (lt_irrefl _)
        · exact absurd (h3 t' h2) (not_lt.2 ht'.le)
    have := has t' hmem
    simp at this; omega
  · rintro ⟨h1, h2⟩
    cases hf : firstBadTerm s with
    | none => exact absurd (firstBadTerm_none.1 hf t) (by omega)
    | some t' =>
      have h3 := List.find?_some hf
      simp only [decide_eq_true_eq] at h3
      by_contra hne
      have hne' : t' ≠ t := fun h => hne (by rw [h])
      rcases lt_or_gt_of_ne hne' with hlt | hgt
      · exact absurd (h2 t' hlt) (by omega)
      · obtain ⟨_, as, bs, heq, has⟩ := List.find?_eq_some_iff_append.1 hf
        have hmem : t ∈ List.finRange 20 := List.mem_finRange t
        rw [heq, List.mem_append] at hmem
        have hp : (List.finRange 20).Pairwise (· < ·) := List.pairwise_lt_finRange 20
        rw [heq, List.pairwise_append] at hp
        rcases hmem with hm | hm
        · have := has t hm; simp at this; omega
        · rcases List.mem_cons.1 hm with rfl | hm
          · exact hne' rfl
          · exact absurd ((List.pairwise_cons.1 hp.2.1).1 t hm) (not_lt.2 hgt.le)

/-- Everything an issue can do: record one error, or accept the command (R54, R55). -/
theorem issueCommand_cases (first : Seq) (sup : Bool) (s : State) :
    (s.seq ≠ .idle ∧ issueCommand first sup s = raiseError .busyWrite (offsetInfo cmdOffset) s) ∨
    (s.seq = .idle ∧ sup = false ∧ issueCommand first sup s = raiseError .unsupported 0#18 s) ∨
    (s.seq = .idle ∧ sup = true ∧ ∃ t, firstBadTerm s = some t ∧
      issueCommand first sup s = raiseError .expRange (termInfo t) s) ∨
    (s.seq = .idle ∧ sup = true ∧ s.expsInRange ∧ issueCommand first sup s = accept first s) := by
  unfold issueCommand
  by_cases hb : s.busy = true
  · exact .inl ⟨busy_eq_true.1 hb, by simp [hb]⟩
  · have hi := busy_eq_false.1 (by simpa using hb)
    cases sup with
    | false => exact .inr (.inl ⟨hi, rfl, by simp [hb]⟩)
    | true =>
      cases hf : firstBadTerm s with
      | some t => exact .inr (.inr (.inl ⟨hi, rfl, t, rfl, by simp [hb]⟩))
      | none => exact .inr (.inr (.inr ⟨hi, rfl, firstBadTerm_none.1 hf, by simp [hb]⟩))

/-! ### What a read changes: the response and the free-value counter only (R41) -/

/-- `t` is `s` but for the response and the count of free values drawn. -/
def OnlyAnswers (s t : State) : Prop := t = { s with response := t.response, free := t.free }

theorem onlyAnswers_answer (s : State) (r : Response) : OnlyAnswers s (s.answer r) := rfl

theorem onlyAnswers_draw (s : State) (r : Response) : OnlyAnswers s (s.answer r).drawFree := rfl

theorem onlyAnswers_readMem (bs : List (Option Byte)) (s : State) : OnlyAnswers s (readMem bs s) := by
  unfold readMem; split <;> rfl

theorem onlyAnswers_readLocal (mem : Memory) (i size : Nat) (s : State) : OnlyAnswers s (readLocal mem i size s) := by
  unfold readLocal; split <;> exact onlyAnswers_readMem _ s

theorem onlyAnswers_busRead (tgt : Option Target) (size : Nat) (s : State) : OnlyAnswers s (busRead tgt size s) := by
  cases tgt with
  | none => rfl
  | some g =>
    cases g with
    | term t =>
      simp only [busRead]
      split
      · exact onlyAnswers_readMem _ s
      · rfl
    | a i => exact onlyAnswers_readLocal _ _ _ s
    | c i => exact onlyAnswers_readLocal _ _ _ s
    | r k => exact onlyAnswers_readLocal _ _ _ s
    | _ => rfl

end Sys2Proof.Machine
end

