-- ==== Sys2Proof/Laws/PerInstr.lean ====
section
/-! SUPPORT. Statements made per command. -/

namespace Sys2Proof.Laws.CommandWord

/-- The command is well formed, its word's RSV field is 0, and its OP field is none of the illegal opcodes (R50, R53). -/
def Statement (i : Instr) : Prop :=
  i.wellFormed = true ∧ rsvField (encode i) = 0#28 ∧ opField (encode i) = opcode i ∧ opcode i ≠ 0x0#4

theorem refconv : Statement .refconv := by unfold Statement; decide

theorem vecconv : Statement .vecconv := by unfold Statement; decide

end Sys2Proof.Laws.CommandWord
end

