-- ==== Sys2Proof/Laws/Script.lean ====
section
/-! SUPPORT. Assembling a host script: the lines of its parts, the labels it can hold, and where a jump goes. -/

namespace Sys2Proof.Machine

/-- How many pseudo-instructions a script has; each takes one fresh number. -/
def pseudoCount : List ScriptLine → Nat
  | [] => 0
  | .op _ :: rest => pseudoCount rest
  | .pseudo _ :: rest => pseudoCount rest + 1

theorem length_expand (f g : Nat) (p : Pseudo) : (p.expand f).length = (p.expand g).length := by
  cases p with
  | term t e negative => cases negative <;> rfl
  | _ => rfl

/-- The number of lines does not depend on the fresh numbers. -/
theorem length_assembleFrom (f g : Nat) (src : List ScriptLine) :
    (assembleFrom f src).length = (assembleFrom g src).length := by
  induction src generalizing f g with
  | nil => rfl
  | cons line rest ih =>
    cases line with
    | op o => simpa [assembleFrom] using ih f g
    | pseudo p => simp only [assembleFrom, List.length_append, length_expand f g, ih (f + 1) (g + 1)]

/-- A script's parts are assembled one after the other. -/
theorem assembleFrom_append (f : Nat) (pre post : List ScriptLine) :
    assembleFrom f (pre ++ post) = assembleFrom f pre ++ assembleFrom (f + pseudoCount pre) post := by
  induction pre generalizing f with
  | nil => rfl
  | cons line rest ih =>
    cases line with
    | op o => simp only [List.cons_append, assembleFrom, pseudoCount, ih]
    | pseudo p =>
      simp only [List.cons_append, assembleFrom, pseudoCount, ih, List.append_assoc]
      rw [Nat.add_assoc f 1, Nat.add_comm 1]

theorem firstFresh_append (pre post : List ScriptLine) :
    firstFresh (pre ++ post) = max (firstFresh pre) (firstFresh post) := by
  induction pre with
  | nil => simp [firstFresh]
  | cons line rest ih => simp [firstFresh, ih, Nat.max_assoc]

/-- The only label an expansion stands on is the fresh one. -/
theorem label_mem_expand {f n : Nat} {p : Pseudo} (h : HostOp.label n ∈ p.expand f) : n = f := by
  cases p with
  | term t e negative => cases negative <;> simp [Pseudo.expand] at h
  | poll => simpa [Pseudo.expand] using h
  | _ => simp [Pseudo.expand] at h

/-- A label of an assembled script is one the script names, or one of the fresh numbers it used. -/
theorem label_mem_assembleFrom {f n : Nat} {src : List ScriptLine} (h : HostOp.label n ∈ assembleFrom f src) :
    n < firstFresh src ∨ (f ≤ n ∧ n < f + pseudoCount src) := by
  induction src generalizing f with
  | nil => simp [assembleFrom] at h
  | cons line rest ih =>
    cases line with
    | op o =>
      simp only [assembleFrom, List.mem_cons] at h
      rcases h with h | h
      · subst h; left; simp only [firstFresh, ScriptLine.labelBound]; omega
      · have := ih h; simp only [firstFresh, pseudoCount]; omega
    | pseudo p =>
      simp only [assembleFrom, List.mem_append] at h
      rcases h with h | h
      · have := label_mem_expand h; simp only [firstFresh, pseudoCount]; omega
      · have := ih h; simp only [firstFresh, pseudoCount]; omega

/-- A jump goes to the label's line, where no line before it stands on the label. -/
theorem labelLine_eq {lines : List HostOp} {name k : Nat} (h : lines[k]? = some (.label name))
    (hf : ∀ j < k, lines[j]? ≠ some (.label name)) : labelLine lines name = k := by
  obtain ⟨hk, hv⟩ := List.getElem?_eq_some_iff.1 h
  refine (List.findIdx_eq hk).2 ⟨by simp [hv], fun j hj => ?_⟩
  have := hf j hj
  rw [List.getElem?_eq_getElem (by omega)] at this
  simpa using this

/-- A jump to a label no line stands on leaves the script. -/
theorem labelLine_absent {lines : List HostOp} {name : Nat} (h : HostOp.label name ∉ lines) :
    labelLine lines name = lines.length := by
  refine List.findIdx_eq_length_of_false fun op hop => ?_
  simp only [decide_eq_false_iff_not]
  rintro rfl; exact h hop

/-! ### Turns -/

/-- One schedule after another. -/
theorem turns_append {p q : Platform} {as : List Turn} (bs : List Turn) (h : p.turns as = .next q) :
    p.turns (as ++ bs) = q.turns bs := by
  induction as generalizing p with
  | nil => cases h; rfl
  | cons a rest ih =>
    simp only [Platform.turns, List.cons_append] at h ⊢
    cases ht : p.turn a with
    | next r => rw [ht] at h; exact ih h
    | fault f => rw [ht] at h; cases h
    | refused r => rw [ht] at h; cases h

/-- A schedule's first turns are those up to a moment and then those of the schedule from that moment on. -/
theorem firstTurns_add (schedule : Nat → Turn) (m n : Nat) :
    firstTurns schedule (m + n) = firstTurns schedule m ++ firstTurns (fun k => schedule (k + m)) n := by
  induction m generalizing schedule with
  | zero => simp [firstTurns]
  | succ m ih =>
    rw [Nat.succ_add, firstTurns, ih, firstTurns, List.cons_append]
    simp only [Nat.add_assoc]

/-- From any moment on, a fair schedule is fair. -/
theorem fairTo_later {agent : Turn} {schedule : Nat → Turn} (h : FairTo agent schedule) (m : Nat) :
    FairTo agent fun k => schedule (k + m) := by
  intro n
  obtain ⟨k, hk, ha⟩ := h (n + m)
  exact ⟨k - m, by omega, by show schedule (k - m + m) = agent; rwa [Nat.sub_add_cancel (by omega)]⟩

/-- A turn of the ENGINE is a step of it, and the host stays as it is (R13). -/
theorem engineTurn_eq {p : Platform} {t : State} (h : engineStep p.block = .next t) :
    p.engineTurn = .next { p with block := t } := by
  simp only [Platform.engineTurn, step, nextMove, h]

end Sys2Proof.Machine
end

