-- ==== Sys2Proof/Laws/Sequence.lean ====
section
/-! SUPPORT. The order of a command's micro-steps (R70, R77): every move stays in the sequence and leaves one micro-step
fewer; and the step equations of the ENGINE at a micro-step that succeeds. -/

namespace Sys2Proof.Machine

/-- The micro-steps a running REFCONV still has, this one counted. -/
def RefPos.left (n : Nat) : RefPos → Nat
  | .zero => 1 + 21 * n
  | .acc t j => (20 - t.val) * n - j + n
  | .fold i => n - i

/-- The micro-steps a running VECCONV still has, this one counted. -/
def VecPos.left (m : Nat) : VecPos → Nat
  | .base j => m - j + 1 + 21 * m
  | .zero => 1 + 21 * m
  | .pos i j => (20 - i.val) * m - j + m
  | .neg i j => (10 - i.val) * m - j + m
  | .fold j => m - j

/-- The micro-steps still to come before completion; none while IDLE. -/
def Seq.left (b : Build) : Seq → Nat
  | .idle => 0
  | .refconv p => p.left b.n
  | .vecconv p => p.left b.m

theorem left_first (b : Build) (i : Instr) : i.first.left b = i.microSteps b := by
  cases i
  · rfl
  · simp only [Instr.first, Seq.left, VecPos.left, Instr.microSteps]; omega

/-- A count of terms times a length, at the last index of one term. -/
theorem terms_left {a b j : Nat} (hj : j + 1 = b) (ha : 0 < a) : (a - 1) * b + b + 1 = a * b - j + b := by
  obtain ⟨a, rfl⟩ := Nat.exists_eq_succ_of_ne_zero (by omega : a ≠ 0)
  simp only [Nat.succ_sub_one, Nat.succ_mul]; omega

theorem lt_terms {a b j : Nat} (hj : j < b) (ha : 0 < a) : j < a * b := lt_of_lt_of_le hj (Nat.le_mul_of_pos_left b ha)

/-- One micro-step of REFCONV fewer after each; the one with none after it is the last. -/
theorem refNext_left {b : Build} {p : RefPos} (hp : Seq.inSequence b (.refconv p)) :
    (∀ q, refNext b.n p = some q → q.left b.n + 1 = p.left b.n) ∧ (refNext b.n p = none → p.left b.n = 1) := by
  cases p with
  | zero => simp [refNext, RefPos.left]; omega
  | acc t j =>
    have hj : j < b.n := hp
    have ht := t.isLt
    have h1 := lt_terms (a := 20 - t.val) hj (by omega)
    by_cases c1 : j + 1 < b.n
    · simp [refNext, c1, RefPos.left]; omega
    · have h2 := terms_left (a := 20 - t.val) (b := b.n) (j := j) (by omega) (by omega)
      by_cases c2 : t.val + 1 < 20
      · have : 19 - t.val = 20 - t.val - 1 := by omega
        simp [refNext, c1, c2, RefPos.left]; rw [this]; omega
      · have : 20 - t.val = 1 := by omega
        rw [this] at h2
        simp [refNext, c1, c2, RefPos.left, this]; omega
  | fold i =>
    have hi : i < b.n := hp
    by_cases c1 : i + 1 < b.n <;> simp [refNext, c1, RefPos.left] <;> omega

/-- One micro-step of VECCONV fewer after each; the one with none after it is the last. -/
theorem vecNext_left {b : Build} {p : VecPos} (hp : Seq.inSequence b (.vecconv p)) :
    (∀ q, vecNext b.m p = some q → q.left b.m + 1 = p.left b.m) ∧ (vecNext b.m p = none → p.left b.m = 1) := by
  cases p with
  | base j =>
    have hj : j < b.m := hp
    by_cases c1 : j + 1 < b.m <;> simp [vecNext, c1, VecPos.left] <;> omega
  | zero => simp [vecNext, VecPos.left]; omega
  | pos i j =>
    have hj : j < b.m := hp
    have hi := i.isLt
    have h1 := lt_terms (a := 20 - i.val) hj (by omega)
    by_cases c1 : j + 1 < b.m
    · simp [vecNext, c1, VecPos.left]; omega
    · have h2 := terms_left (a := 20 - i.val) (b := b.m) (j := j) (by omega) (by omega)
      by_cases c2 : i.val + 1 < 10
      · have : 19 - i.val = 20 - i.val - 1 := by omega
        simp [vecNext, c1, c2, VecPos.left]; rw [this]; omega
      · have : 20 - i.val - 1 = 10 := by omega
        rw [this] at h2
        simp [vecNext, c1, c2, VecPos.left]; omega
  | neg i j =>
    have hj : j < b.m := hp
    have hi := i.isLt
    have h1 := lt_terms (a := 10 - i.val) hj (by omega)
    by_cases c1 : j + 1 < b.m
    · simp [vecNext, c1, VecPos.left]; omega
    · have h2 := terms_left (a := 10 - i.val) (b := b.m) (j := j) (by omega) (by omega)
      by_cases c2 : i.val + 1 < 10
      · have : 9 - i.val = 10 - i.val - 1 := by omega
        simp [vecNext, c1, c2, VecPos.left]; rw [this]; omega
      · have : 10 - i.val = 1 := by omega
        rw [this] at h2
        simp [vecNext, c1, c2, VecPos.left, this]; omega
  | fold j =>
    have hj : j < b.m := hp
    by_cases c1 : j + 1 < b.m <;> simp [vecNext, c1, VecPos.left] <;> omega

/-- REFCONV's moves stay in its sequence. -/
theorem refNext_inSequence {b : Build} {p q : RefPos} (hn : 0 < b.n) (h : refNext b.n p = some q) :
    Seq.inSequence b (.refconv q) := by
  cases p with
  | zero => simp only [refNext, Option.some.injEq] at h; subst h; exact hn
  | acc t j =>
    simp only [refNext] at h
    split_ifs at h <;> simp only [Option.some.injEq] at h <;> subst h <;> assumption
  | fold i =>
    simp only [refNext] at h
    split_ifs at h
    simp only [Option.some.injEq] at h; subst h; assumption

/-- VECCONV's moves stay in its sequence. -/
theorem vecNext_inSequence {b : Build} {p q : VecPos} (hm : 0 < b.m) (h : vecNext b.m p = some q) :
    Seq.inSequence b (.vecconv q) := by
  cases p with
  | base j =>
    simp only [vecNext] at h
    split_ifs at h <;> simp only [Option.some.injEq] at h <;> subst h <;> first | assumption | trivial
  | zero => simp only [vecNext, Option.some.injEq] at h; subst h; exact hm
  | pos i j =>
    simp only [vecNext] at h
    split_ifs at h <;> simp only [Option.some.injEq] at h <;> subst h <;> assumption
  | neg i j =>
    simp only [vecNext] at h
    split_ifs at h <;> simp only [Option.some.injEq] at h <;> subst h <;> assumption
  | fold j =>
    simp only [vecNext] at h
    split_ifs at h
    simp only [Option.some.injEq] at h; subst h; assumption

/-! ### The ENGINE at a micro-step that succeeds (R16, R17) -/

theorem engineStep_ref {s t : State} {p : RefPos} (h : s.seq = .refconv p) (hm : refMicro p s = .ok t) :
    engineStep s = .next (advanceRef p t) := by
  unfold engineStep; rw [h]; simp only [hm]

theorem engineStep_vec {s t : State} {p : VecPos} (h : s.seq = .vecconv p) (hm : vecMicro p s = .ok t) :
    engineStep s = .next (advanceVec p t) := by
  unfold engineStep; rw [h]; simp only [hm]

/-- Where N mod L = 0, the M lanes of L bytes are the N bytes (R10). -/
theorem lanes_cover {b : Build} (h : b.hasLanes = true) : b.l * b.m = b.n :=
  Nat.mul_div_cancel' (Nat.dvd_of_mod_eq_zero (by simpa [Build.hasLanes] using h))

/-- A lane of the M lies whole in the N bytes. -/
theorem lane_within {b : Build} (h : b.hasLanes = true) {j : Nat} (hj : j < b.m) : b.l * j + b.l ≤ b.n := by
  rw [← lanes_cover h, ← Nat.mul_succ]; exact Nat.mul_le_mul_left _ hj

end Sys2Proof.Machine
end

