-- ==== Sys2Proof/Laws/Step.lean ====
section
/-! SUPPORT. What a step does at each kind of input, what each offset of the map reaches, and what a read answers. -/

namespace Sys2Proof.Machine

/-! ### What an offset reaches (R34, R36) -/

theorem busOkay_register (b : Build) (off : Nat) (h : off % 4 = 0) (hl : off < 16) : busOkay b off 4 = true := by
  refine busOkay_iff.2 ⟨by omega, h, fun m hm => byteTarget_isSome.2 (by omega), by omega⟩

theorem busTarget_term_at (b : Build) (t : Fin 20) : busTarget b (0x100 + 4 * t.val) 4 = some (.term t) :=
  busTarget_some.2 ⟨busOkay_iff.2 ⟨by omega, by omega, fun m hm => byteTarget_isSome.2 (by omega), by omega⟩,
    byteTarget_term.2 (by omega)⟩

theorem busTarget_cmd_at (b : Build) : busTarget b 0x4 4 = some .cmd :=
  busTarget_some.2 ⟨busOkay_register b 4 (by omega) (by omega), byteTarget_cmd.2 (by omega)⟩

theorem busTarget_config_at (b : Build) : busTarget b 0x0 4 = some .config :=
  busTarget_some.2 ⟨busOkay_register b 0 (by omega) (by omega), byteTarget_config.2 (by omega)⟩

theorem busTarget_status_at (b : Build) : busTarget b 0x8 4 = some .status :=
  busTarget_some.2 ⟨busOkay_register b 8 (by omega) (by omega), byteTarget_status.2 (by omega)⟩

theorem busTarget_errInfo_at (b : Build) : busTarget b 0xC 4 = some .errInfo :=
  busTarget_some.2 ⟨busOkay_register b 12 (by omega) (by omega), byteTarget_errInfo.2 (by omega)⟩

theorem busTarget_a_at (b : Build) {i size : Nat} (hs : size = 1 ∨ size = 2 ∨ size = 4) (ha : i % size = 0)
    (h : i + size ≤ b.n) : busTarget b (0x10000 + i) size = some (.a i) := by
  refine busTarget_some.2 ⟨busOkay_iff.2 ⟨hs, ?_, fun m hm => byteTarget_isSome.2 (by omega), by omega⟩,
    byteTarget_a.2 (by omega)⟩
  rcases hs with rfl | rfl | rfl <;> omega

theorem busTarget_c_at (b : Build) (hn : b.n ≤ 32768) {i size : Nat} (hs : size = 1 ∨ size = 2 ∨ size = 4)
    (ha : i % size = 0) (h : i + size ≤ b.n) : busTarget b (0x20000 + i) size = some (.c i) := by
  refine busTarget_some.2 ⟨busOkay_iff.2 ⟨hs, ?_, fun m hm => byteTarget_isSome.2 (by omega), by omega⟩,
    (byteTarget_c hn).2 (by omega)⟩
  rcases hs with rfl | rfl | rfl <;> omega

theorem busTarget_r_at (b : Build) (hn : b.n ≤ 32768) {k size : Nat} (hs : size = 1 ∨ size = 2 ∨ size = 4)
    (ha : k % size = 0) (h : k + size ≤ 2 * b.n) : busTarget b (0x30000 + k) size = some (.r k) := by
  refine busTarget_some.2 ⟨busOkay_iff.2 ⟨hs, ?_, fun m hm => byteTarget_isSome.2 (by omega), by omega⟩,
    (byteTarget_r hn).2 (by omega)⟩
  rcases hs with rfl | rfl | rfl <;> omega

/-! ### A step at each kind of input (R45) -/

theorem nextMove_write {s : State} {off size : Nat} {v : Word} {rest : List Input}
    (h : s.inputs = .write (s.build.baseAddr + off) size v :: rest) :
    nextMove s = busWrite (busTarget s.build off size) off size v { s with inputs := rest } := by
  simp only [nextMove, h, hostTarget_at, Nat.add_sub_cancel_left]

theorem nextMove_read {s : State} {off size : Nat} {rest : List Input}
    (h : s.inputs = .read (s.build.baseAddr + off) size :: rest) :
    nextMove s = .finished (.next (busRead (busTarget s.build off size) size { s with inputs := rest })) := by
  simp only [nextMove, h, hostTarget_at]

theorem step_read {s : State} {addr size : Nat} {rest : List Input} (h : s.inputs = .read addr size :: rest) :
    step s = .next (busRead (hostTarget s.build addr size) size { s with inputs := rest }) := by
  simp only [step, nextMove, h]

theorem step_reset {s : State} {rest : List Input} (h : s.inputs = .reset :: rest) :
    step s = .next (resetBlock { s with inputs := rest }) := by
  simp only [step, nextMove, h]

/-- Both meanings are one issue of their command (R54). -/
theorem exec_eq_issue (i : Instr) (s : State) :
    exec i s = .next (issueCommand i.first (i.supported s.build) s) := by
  cases i <;> rfl

/-! ### What a command or a rejected word can change: SEQ, DONE and the error record (R55, R98, R100) -/

/-- `t` is `s` but for the response, SEQ, DONE and the error record. -/
def SameStores (s t : State) : Prop :=
  t.build = s.build ∧ t.memA = s.memA ∧ t.term = s.term ∧ t.memR = s.memR ∧ t.memC = s.memC ∧ t.base = s.base ∧
    t.w = s.w ∧ t.u = s.u ∧ t.inputs = s.inputs ∧ t.free = s.free

theorem sameStores_issue (first : Seq) (sup : Bool) (s : State) : SameStores s (issueCommand first sup s) := by
  rcases issueCommand_cases first sup s with ⟨_, h⟩ | ⟨_, _, h⟩ | ⟨_, _, _, _, h⟩ | ⟨_, _, _, h⟩ <;> rw [h] <;>
    simp [SameStores, accept]

theorem sameStores_reject (v : Word) (s : State) : SameStores s (rejectCmd v s) := by
  unfold rejectCmd; split <;> simp [SameStores]

/-! ### What a read of memory answers (R37, R40) -/

theorem length_fillBytes (bs : List (Option Byte)) (fs : List Byte) (h : bs.length ≤ fs.length) :
    (fillBytes bs fs).length = bs.length := by
  induction bs generalizing fs with
  | nil => simp [fillBytes]
  | cons b r ih =>
    cases fs with
    | nil => simp at h
    | cons f fr => cases b <;> simp [fillBytes] <;> exact ih fr (by simpa using h)

/-- Byte m of the data: the specified byte, or else byte m of the free word. -/
theorem getElem?_fillBytes (bs : List (Option Byte)) (fs : List Byte) (h : bs.length ≤ fs.length) (m : Nat) :
    (fillBytes bs fs)[m]? = if h : m < bs.length then some (bs[m].getD (fs[m]'(by omega))) else none := by
  induction bs generalizing fs m with
  | nil => simp [fillBytes]
  | cons b r ih =>
    cases fs with
    | nil => simp at h
    | cons f fr =>
      have ih' := ih fr (by simpa using h)
      cases m with
      | zero => cases b <;> simp [fillBytes]
      | succ m => cases b <;> simp [fillBytes, ih' m]

/-- Where every byte is specified, they are the data, and no free value shows. -/
theorem fillBytes_some (bytes fs : List Byte) (h : bytes.length ≤ fs.length) :
    fillBytes (bytes.map some) fs = bytes := by
  induction bytes generalizing fs with
  | nil => simp [fillBytes]
  | cons b r ih =>
    cases fs with
    | nil => simp at h
    | cons f fr => simpa [fillBytes] using ih fr (by simpa using h)

/-- Where no byte is specified, the data is the free word's bytes. -/
theorem fillBytes_none (n : Nat) (fs : List Byte) (h : n ≤ fs.length) :
    fillBytes (List.replicate n none) fs = fs.take n := by
  induction n generalizing fs with
  | zero => simp [fillBytes]
  | succ n ih =>
    cases fs with
    | nil => simp at h
    | cons f fr => simpa [List.replicate_succ, fillBytes] using ih fr (by simpa using h)

theorem readBytes_eq_map {mem : Memory} {i size : Nat} {bytes : List Byte} (hl : bytes.length = size)
    (h : ∀ m < size, mem.read (i + m) = bytes[m]?) : mem.readBytes i size = bytes.map some := by
  apply List.ext_getElem?
  intro m
  rw [Memory.getElem?_readBytes, List.getElem?_map]
  split
  · rename_i hm; rw [h m hm, List.getElem?_eq_getElem (by omega)]; rfl
  · rw [List.getElem?_eq_none (by omega)]; rfl

theorem readMem_replicate_none {n : Nat} (s : State) (h0 : 0 < n) (h : n ≤ 4) :
    readMem (List.replicate n none) s = { s with
      response := some (.okayRead ((wordBytes (Config.freeData s.free)).take n)), free := s.free + 1 } := by
  unfold readMem
  rw [if_neg (by simp; omega), fillBytes_none _ _ (by simpa [wordBytes] using h)]; rfl

theorem readLocal_of_idle {mem : Memory} {i size : Nat} {bytes : List Byte} {s : State} (hi : s.seq = .idle)
    (hs : size ≤ 4) (hl : bytes.length = size) (h : ∀ m < size, mem.read (i + m) = bytes[m]?) :
    readLocal mem i size s = s.answer (.okayRead bytes) := by
  unfold readLocal
  rw [busy_eq_false.2 hi, readBytes_eq_map hl h]
  simp only [Bool.false_eq_true, if_false, readMem]
  rw [if_pos (by simp), fillBytes_some _ _ (by simp [wordBytes]; omega)]

theorem readMem_response {bs : List (Option Byte)} (s : State) (h : bs.length ≤ 4) :
    ∃ data, (readMem bs s).response = some (.okayRead data) ∧ data.length = bs.length := by
  unfold readMem
  split
  · exact ⟨_, rfl, length_fillBytes _ _ (by simpa [wordBytes] using h)⟩
  · exact ⟨_, rfl, length_fillBytes _ _ (by simpa [wordBytes] using h)⟩

end Sys2Proof.Machine
end

