-- ==== Sys2Proof/Laws/Sum.lean ====
section
/-! SUPPORT. The arithmetic behind the closed form (R84): byte arithmetic is integer arithmetic modulo 256, a partly
accumulated scratch byte, and the fold of two scratch sums. -/

namespace Sys2Proof.Machine

/-! ### Bytes as residues (R64) -/

/-- Adding to a byte is adding to any integer it is the residue of. -/
theorem ofInt8_add_toNat (x d : Int) : BitVec.ofInt 8 (((BitVec.ofInt 8 x).toNat : Int) + d) = BitVec.ofInt 8 (x + d) := by
  apply BitVec.eq_of_toNat_eq
  have h1 := ofInt8_toNat (((BitVec.ofInt 8 x).toNat : Int) + d)
  have h2 := ofInt8_toNat (x + d)
  have h3 := ofInt8_toNat x
  omega

/-- Subtracting two bytes is subtracting the integers they are the residues of. -/
theorem ofInt8_sub_toNat (x y : Int) :
    BitVec.ofInt 8 (((BitVec.ofInt 8 x).toNat : Int) - ((BitVec.ofInt 8 y).toNat : Int)) = BitVec.ofInt 8 (x - y) := by
  apply BitVec.eq_of_toNat_eq
  have h1 := ofInt8_toNat (((BitVec.ofInt 8 x).toNat : Int) - ((BitVec.ofInt 8 y).toNat : Int))
  have h2 := ofInt8_toNat (x - y)
  have h3 := ofInt8_toNat x
  have h4 := ofInt8_toNat y
  omega

/-- An integer in the signed byte range is what its byte reads as (R62). -/
theorem ofInt8_toInt {z : Int} (h : -128 ≤ z ∧ z ≤ 127) : (BitVec.ofInt 8 z).toInt = z := by
  rw [BitVec.toInt_ofInt, Int.bmod_def]; omega

/-! ### A partly accumulated scratch byte -/

/-- R[k] where, of term t, the first `lim t` products have been added (R72, R80, R81). -/
def partSum (e : Fin 20 → Nat) (sg : Fin 20 → Int) (a : Nat → Int) (lim : Fin 20 → Nat) (k : Nat) : Int :=
  ∑ t, if e t ≤ k ∧ k - e t < lim t then sg t * a (k - e t) else 0

theorem partSum_all (n : Nat) (e : Fin 20 → Nat) (sg : Fin 20 → Int) (a : Nat → Int) (k : Nat) :
    partSum e sg a (fun _ => n) k = scratchSum n e sg a k := rfl

theorem partSum_none (e : Fin 20 → Nat) (sg : Fin 20 → Int) (a : Nat → Int) (k : Nat) :
    partSum e sg a (fun _ => 0) k = 0 := by simp [partSum]

/-- All of the terms below `t` and the first `j` products of term t. -/
def limitAt (n t j : Nat) : Fin 20 → Nat := fun t' => if t'.val < t then n else if t'.val = t then j else 0

theorem limitAt_next (n t : Nat) : limitAt n t n = limitAt n (t + 1) 0 := by
  funext x; unfold limitAt; split_ifs <;> first | rfl | omega

theorem limitAt_start (n : Nat) : limitAt n 0 0 = fun _ => 0 := by
  funext x; unfold limitAt; split_ifs <;> first | rfl | omega

theorem limitAt_end (n : Nat) : limitAt n 20 0 = fun _ => n := by
  funext x; unfold limitAt; rw [if_pos x.isLt]

/-- `w` products more of one term add that term's share to the bytes of its window, and nothing elsewhere. -/
theorem partSum_step (e : Fin 20 → Nat) (sg : Fin 20 → Int) (a : Nat → Int) (n j w : Nat) (t : Fin 20) (k : Nat) :
    partSum e sg a (limitAt n t (j + w)) k = partSum e sg a (limitAt n t j) k +
      if e t + j ≤ k ∧ k < e t + j + w then sg t * a (k - e t) else 0 := by
  have h : ∀ t', (if e t' ≤ k ∧ k - e t' < limitAt n t (j + w) t' then sg t' * a (k - e t') else 0) =
      (if e t' ≤ k ∧ k - e t' < limitAt n t j t' then sg t' * a (k - e t') else 0) +
        if t' = t then (if e t + j ≤ k ∧ k < e t + j + w then sg t * a (k - e t) else 0) else 0 := by
    intro t'
    by_cases c : t' = t
    · subst c; rw [if_pos rfl]; simp only [limitAt, lt_irrefl, if_false, if_true]
      split_ifs <;> omega
    · have c' : t'.val ≠ t.val := fun h => c (Fin.ext h)
      simp [limitAt, c, c']
  unfold partSum
  rw [Finset.sum_congr rfl fun t' _ => h t', Finset.sum_add_distrib]
  simp

/-! ### The fold (R73, R82) -/

/-- Of the two scratch bytes a result byte is folded from, each term is in exactly one. -/
theorem scratchSum_fold {n : Nat} {e : Fin 20 → Nat} (sg : Fin 20 → Int) (a : Nat → Int) (he : ∀ t, e t < n) {k : Nat}
    (hk : k < n) : scratchSum n e sg a k - scratchSum n e sg a (k + n) = resultSum n e sg a k := by
  unfold scratchSum resultSum
  rw [← Finset.sum_sub_distrib]
  refine Finset.sum_congr rfl fun t _ => ?_
  have := he t
  unfold contrib
  by_cases c : e t ≤ k
  · rw [if_pos ⟨c, by omega⟩, if_neg (by omega), if_pos c, sub_zero]
  · rw [if_neg (by omega), if_pos ⟨by omega, by omega⟩, if_neg c, zero_sub, neg_mul]

theorem sign_eq (i : Instr) (s : State) (t : Fin 20) : i.sign s t = 1 ∨ i.sign s t = -1 := by
  cases i <;> simp only [Instr.sign, State.signOf, positionSign] <;> split_ifs <;> simp

end Sys2Proof.Machine
end

