-- ==== Sys2Proof/Tests/Slice0.lean ====
section
/-! SUPPORT. Tests with expected values from the spec, and a witness of the hypotheses of every statement. -/

namespace Sys2Proof.Tests

open Sys2Proof.Machine

/-! ### Small builds and states -/

/-- N = 8, L = 4, two lanes, at the second aperture address. -/
def small : Build := { n := 8, l := 4, baseAddr := 0x40000 }

/-- N = 2, L = 1, for whole commands. -/
def tiny : Build := { n := 2, l := 1, baseAddr := 0 }

/-- A = (1, 2, …, 8) in the small build. -/
def loadedA : Memory := [(0, 1#8), (1, 2#8), (2, 3#8), (3, 4#8), (4, 5#8), (5, 6#8), (6, 7#8), (7, 8#8)]

/-- The small build after reset with A written. -/
def loaded : State := { State.resetOf small with memA := loadedA }

/-- A TERM table whose term t is `x` and every other (0, +). -/
def oneTerm (t : Fin 20) (x : Term) : Vector Term 20 := (State.resetOf small).term.set t x

/-- The small build, at a micro-step. -/
def at' (q : Seq) : State := { loaded with seq := q, memR := Memory.zeroed 16 }

/-- The state a step answers has the property. -/
def after (o : Host.Outcome State Fault Refusal) (p : State → Bool) : Bool :=
  match o with
  | .next s => p s
  | .fault _ => false
  | .refused _ => false

/-! ### Decoding: words written out from R50 and R53 -/

/-- REFCONV: RSV = 28 zeros, OP = 0001. -/
theorem test_decode_refconv : decode 0b00000000000000000000000000000001#32 = .ok .refconv := by decide

/-- VECCONV: RSV = 28 zeros, OP = 0010. -/
theorem test_decode_vecconv : decode 0b00000000000000000000000000000010#32 = .ok .vecconv := by decide

/-- OP = 0000 and OP = 0011 are illegal (R53); so is a bit of RSV (R56). -/
theorem test_decode_illegal :
    decode 0b00000000000000000000000000000000#32 = .error (.illegalOp 0b0000#4) ∧
    decode 0b00000000000000000000000000000011#32 = .error (.illegalOp 0b0011#4) ∧
    decode 0b00000000000000000000000000010001#32 = .error .reservedBits ∧
    decode 0b10000000000000000000000000000010#32 = .error .reservedBits := by decide

/-- One length only (R57): three or five bytes are no command. -/
theorem test_decode_length :
    decodeBytes [1#8, 0#8, 0#8] = .error (.wrongLength 3) ∧
    decodeBytes [1#8, 0#8, 0#8, 0#8, 0#8] = .error (.wrongLength 5) ∧
    decodeTableWord 32 1 = some .refconv ∧ decodeTableWord 32 2 = some .vecconv ∧ decodeTableWord 64 (2 ^ 32 + 1) = none := by
  decide

/-! ### Well-formedness: each check refuses an ill-formed build (R7, R8, R34) -/

theorem test_legal_default : Build.default.legal = true := by decide

theorem test_illegal_n_zero : Build.legal { n := 0, l := 32, baseAddr := 0 } = false := by decide

theorem test_illegal_n_large : Build.legal { n := 32769, l := 32, baseAddr := 0 } = false := by decide

theorem test_illegal_l_zero : Build.legal { n := 512, l := 0, baseAddr := 0 } = false := by decide

theorem test_illegal_l_large : Build.legal { n := 512, l := 256, baseAddr := 0 } = false := by decide

theorem test_illegal_base : Build.legal { n := 512, l := 32, baseAddr := 0x20000 } = false := by decide

/-! ### One step, values from the spec's examples -/

/-- R95's example: with N = 512 and TERM[7] = 0x00000200, REFCONV records code 2 with ERRINFO = 7. -/
theorem test_refconv_expRange :
    after (exec .refconv { State.reset with term := oneTerm 7 (Term.ofWord 0x00000200#32) })
      (fun s => statusWord s = 0x00000024#32 ∧ errInfoWord s = 7#32) = true := by decide

/-- R55: an accepted command reads BUSY = 1, DONE = 0, and an error recorded earlier stays. -/
theorem test_refconv_accepted :
    after (exec .refconv { loaded with done := true, err := true, errCode := .illegalCmd, errInfo := 3#18 })
      (fun s => statusWord s = 0x00000015#32 ∧ s.seq = .refconv .zero) = true := by decide

/-- R96's example: with N = 48 and L = 32, VECCONV records code 3. -/
theorem test_vecconv_unsupported :
    after (exec .vecconv (State.resetOf { n := 48, l := 32, baseAddr := 0 }))
      (fun s => statusWord s = 0x00000034#32 ∧ errInfoWord s = 0#32) = true := by decide

theorem test_vecconv_accepted :
    after (exec .vecconv loaded) (fun s => statusWord s = 0x00000001#32 ∧ s.seq = .vecconv (.base 0)) = true := by decide

/-- R94's example: writing 0x00000003 records code 1 with ERRINFO = 0x00003. -/
theorem test_illegalCmd :
    after (step (loaded.withFetchWord 32 3))
      (fun s => statusWord s = 0x00000014#32 ∧ errInfoWord s = 3#32 ∧ s.response = some .okayWrite) = true := by decide

/-- R97's example: while VECCONV runs, `wr32 0x10000, 0` records code 4 with ERRINFO = 0x10000 and leaves A. -/
theorem test_busyWrite :
    after (step { at' (.vecconv .zero) with inputs := [.write 0x50000 4 0#32] })
      (fun s => statusWord s = 0x00000045#32 ∧ errInfoWord s = 0x10000#32 ∧ s.memA = loadedA) = true := by decide

/-- R37: a 16-bit write stores the low byte at the lower index. -/
theorem test_write_a :
    after (step { loaded with inputs := [.write 0x50002 2 0x0000BBAA#32] })
      (fun s => s.memA.read 2 = some 0xAA#8 ∧ s.memA.read 3 = some 0xBB#8 ∧ s.memA.read 4 = some 5#8) = true := by decide

/-- R72's example: R[7] = 0x03, e_t = 5, s_t = −1 and A[2] = 0x01 give R[7] = 0x02. -/
theorem test_refAcc :
    after (engineStep { at' (.refconv (.acc 4 2)) with
        memA := [(2, 0x01#8)], memR := [(7, 0x03#8)], term := oneTerm 4 (Term.ofWord 0x80000005#32) })
      (fun s => s.memR = [(7, 0x02#8)] ∧ s.seq = .refconv (.acc 4 3)) = true := by decide

/-- R73's example: R[3] = 0x02 and R[3 + N] = 0x05 give C[3] = 0xFD. -/
theorem test_refFold :
    after (engineStep { at' (.refconv (.fold 3)) with memR := [(3, 0x02#8), (11, 0x05#8)] })
      (fun s => s.memC = [(3, 0xFD#8)] ∧ s.seq = .refconv (.fold 4)) = true := by decide

/-- R78's example at L = 4: VEC_BASE(1) loads A[4..7] into BASE[1]. -/
theorem test_vecBase :
    after (engineStep (at' (.vecconv (.base 1))))
      (fun s => s.base[1]? = some [5#8, 6#8, 7#8, 8#8] ∧ s.seq = .vecconv .zero) = true := by decide

/-- R80's example at L = 4: e = 5, j = 1 updates R[9..12] with A[4..7], element by element (0xFE + 8 wraps to 6). -/
theorem test_vecPos :
    after (engineStep { at' (.vecconv (.pos 0 1)) with
        base := [[1#8, 2#8, 3#8, 4#8], [5#8, 6#8, 7#8, 8#8]], memR := (Memory.zeroed 16).write 12 0xFE#8,
        term := oneTerm 0 (Term.ofWord 0x80000005#32) })
      (fun s => s.memR.readBytes 8 6 = [some 0#8, some 5#8, some 6#8, some 7#8, some 6#8, some 0#8] ∧
        s.w = [5#8, 6#8, 7#8, 6#8] ∧ s.seq = .vecconv (.pos 1 0)) = true := by decide

/-- R81 at L = 4: e = 0, j = 0 subtracts A[0..3] from R[0..3], with no borrow between elements. -/
theorem test_vecNeg :
    after (engineStep { at' (.vecconv (.neg 9 0)) with base := [[1#8, 2#8, 3#8, 4#8], [5#8, 6#8, 7#8, 8#8]] })
      (fun s => s.memR.readBytes 0 5 = [some 0xFF#8, some 0xFE#8, some 0xFD#8, some 0xFC#8, some 0#8] ∧
        s.seq = .vecconv (.neg 9 1)) = true := by decide

/-- R82 and R17: the last fold writes C[4..7] = R[4..7] − R[12..15], leaves W and U the windows, and completes. -/
theorem test_vecFold :
    after (engineStep { at' (.vecconv (.fold 1)) with memR := ((Memory.zeroed 16).write 4 2#8).write 12 5#8 })
      (fun s => s.memC.read 4 = some 0xFD#8 ∧ s.w = [2#8, 0#8, 0#8, 0#8] ∧ s.u = [5#8, 0#8, 0#8, 0#8] ∧
        statusWord s = 0x00000002#32) = true := by decide

/-- R61: the expansions of `term 3, 5, -` and `clrst`, and of two `poll`s beside a label 0 of the script's own. -/
theorem test_script_expand :
    assemble [.pseudo (.term 3 5#16 true), .pseudo .clrst] = [.wr 0x0010C 4 0x80000005#32, .wr 0x00008 4 6#32] ∧
    assemble [.op (.label 0), .pseudo .poll, .pseudo .poll] =
      [.label 0, .label 1, .bnz32 0x00008 1#32 1, .label 2, .bnz32 0x00008 1#32 2] := by decide

/-- R61: `expect off, d` is `rd32 off`, whose data goes to `$v`, with a check of the data. -/
theorem test_script_expect :
    let h : ScriptHost := { lines := [.expect 0x00000 5#32], next := 0, v := 0, passed := true }
    (h.take (.expect 0x00000 5#32) 5) = { h with next := 1, v := 5 } ∧
    (h.take (.expect 0x00000 5#32) 6) = { h with next := 1, v := 6, passed := false } := by decide

/-! ### Witnesses of the hypotheses of the statements -/

theorem witness_DecodeOfEncode : Instr.refconv.wellFormed = true ∧ Instr.vecconv.wellFormed = true := by decide

theorem witness_LanesActPerElement :
    [1#8, 0xFF#8].length = [2#8, 3#8].length ∧ [1#8, 0xFF#8][1]? = some 0xFF#8 ∧ [2#8, 3#8][1]? = some 3#8 := by decide

theorem witness_StepRunsTheIssuedCommand :
    { loaded with inputs := [.write 0x40004 4 2#32] }.inputs = [.write (loaded.build.baseAddr + 0x00004) 4 2#32] ∧
    decode 2#32 = .ok .vecconv ∧ Instr.vecconv.wellFormed = true ∧ decodeTableWord 32 1 = some .refconv := by decide

theorem witness_StepGivesTheEngineItsTurn :
    loaded.inputs = [] ∧ { loaded with inputs := [.engine, .reset] }.inputs = .engine :: [.reset] ∧ loaded.seq = .idle := by
  decide

theorem witness_BuildNeverChanges : ∃ t, step loaded = .next t := ⟨_, rfl⟩

theorem witness_AcceptedCommandStarts :
    loaded.seq = .idle ∧ (∀ t : Fin 20, loaded.expOf t < loaded.build.n) ∧ loaded.build.n % loaded.build.l = 0 ∧
    Seq.refconv .zero ≠ .idle := by decide

/-- Each clause of `CmdWriteChecksInOrder`: busy, illegal (by RSV, by OP), unsupported, exponents out of range at the
lowest and at the highest term, and accepted. -/
theorem witness_CmdWriteChecksInOrder :
    { loaded with inputs := [.write 0x40004 4 1#32] }.inputs = .write (loaded.build.baseAddr + 0x00004) 4 1#32 :: [] ∧
    (at' (.refconv .zero)).seq ≠ .idle ∧ loaded.seq = .idle ∧
    (0x00000011#32).extractLsb' 4 28 ≠ 0#28 ∧
    ((0x00000003#32).extractLsb' 0 4 ≠ 1#4 ∧ (0x00000003#32).extractLsb' 0 4 ≠ 2#4) ∧
    (State.resetOf { n := 48, l := 32, baseAddr := 0 }).build.n % (State.resetOf { n := 48, l := 32, baseAddr := 0 }).build.l ≠ 0 ∧
    loaded.build.n % loaded.build.l = 0 ∧
    (let s := { loaded with term := oneTerm 0 (Term.ofWord 0x00000008#32) }
     s.build.n ≤ s.term[(0 : Fin 20)].exp.toNat ∧ ∀ t' < (0 : Fin 20), s.term[t'].exp.toNat < s.build.n) ∧
    (let s := { loaded with term := oneTerm 19 (Term.ofWord 0x0000FFFF#32) }
     s.build.n ≤ s.term[(19 : Fin 20)].exp.toNat ∧ ∀ t' < (19 : Fin 20), s.term[t'].exp.toNat < s.build.n) ∧
    (∀ t : Fin 20, loaded.term[t].exp.toNat < loaded.build.n) := by decide

theorem witness_RaiseErrorKeepsTheFirst : loaded.err = false ∧ { loaded with err := true }.err = true := by decide

/-- The sign premise of `CoefficientsAreTwosComplement`, at the byte 0x80 where R63's and R64's ranges differ. -/
theorem witness_CoefficientsAreTwosComplement :
    ((1 : Int) = 1 ∨ (1 : Int) = -1) ∧ ((-1 : Int) = 1 ∨ (-1 : Int) = -1) ∧ 1 * sext8 0x80#8 = -128 ∧
    -1 * sext8 0x80#8 = 128 := by decide

theorem witness_StatusWriteOneToClear :
    { loaded with inputs := [.write 0x40008 4 6#32] }.inputs = [.write (loaded.build.baseAddr + 0x00008) 4 6#32] := by
  decide

/-- Each clause of `BusyWriteIsDropped`, at the ends of the ranges: CMD, the first and last TERM words, the first and last
bytes of A, CONFIG and ERRINFO, the ends of C and R, STATUS. -/
theorem witness_BusyWriteIsDropped :
    small.legal = true ∧ (at' (.refconv .zero)).seq ≠ .idle ∧ (at' (.refconv .zero)).err = false ∧
    { at' (.refconv .zero) with inputs := [.write 0x50007 1 0#32] }.inputs = [.write (small.baseAddr + 0x10007) 1 0#32] ∧
    { at' (.refconv .zero) with inputs := [.write 0x40008 4 6#32] }.inputs = [.write (small.baseAddr + 0x00008) 4 6#32] ∧
    (0x00100 = 0x00100 + 4 * (0 : Fin 20).val ∧ 0x0014C = 0x00100 + 4 * (19 : Fin 20).val) ∧
    (0x10000 % 4 = 0 ∧ 0x10000 + 4 ≤ 0x10000 + small.n) ∧ (0x10007 % 1 = 0 ∧ 0x10007 + 1 ≤ 0x10000 + small.n) ∧
    (0x20004 % 4 = 0 ∧ 0x20000 ≤ 0x20004 ∧ 0x20004 + 4 ≤ 0x20000 + small.n) ∧
    (0x3000F % 1 = 0 ∧ 0x30000 ≤ 0x3000F ∧ 0x3000F + 1 ≤ 0x30000 + 2 * small.n) := by decide

/-- A step that sets DONE (the last fold), and one that sets ERR (an illegal command word). -/
theorem witness_FlagsAreSetOnlyByTheirEvents :
    after (step (at' (.refconv (.fold 7)))) (fun t => (at' (.refconv (.fold 7))).done = false ∧ t.done = true) = true ∧
    after (step (loaded.withFetchWord 32 0)) (fun t => loaded.err = false ∧ t.err = true) = true := by decide

/-- Transactions of `BusErrorChangesNothing` at the ends of each condition: bad by size, by alignment, by an unmapped byte
and by the width below 0x10000, and good ones beside them. -/
theorem witness_BusErrorChangesNothing :
    ¬(3 = 1 ∨ 3 = 2 ∨ 3 = 4) ∧ 0x10001 % 2 ≠ 0 ∧ busOkay small 0x10007 1 = true ∧ busOkay small 0x10008 1 = false ∧
    busOkay small 0x0014C 4 = true ∧ busOkay small 0x00150 4 = false ∧ busOkay small 0x00008 2 = false ∧
    busOkay small 0x00008 4 = true ∧ busOkay small 0x3000C 4 = true ∧ busOkay small 0x3000E 4 = false ∧
    { loaded with inputs := [.read 0x50008 1] }.inputs = [.read (small.baseAddr + 0x10008) 1] ∧
    { loaded with inputs := [.write 0x50008 1 0#32] }.inputs = [.write (small.baseAddr + 0x10008) 1 0#32] := by decide

theorem witness_OutsideTheApertureIsError :
    small.legal = true ∧ 0x3FFFC < small.baseAddr ∧ small.baseAddr + 0x40000 ≤ 0x80000 ∧
    { loaded with inputs := [.write 0x3FFFC 4 0#32] }.inputs = [.write 0x3FFFC 4 0#32] ∧
    { loaded with inputs := [.read 0x80000 4] }.inputs = [.read 0x80000 4] := by decide

/-- The four registers of `RegisterReads`, and the reads and writes of `ConfigReportsTheBuild`. -/
theorem witness_RegisterReads :
    small.legal = true ∧
    { loaded with inputs := [.read 0x40000 4] }.inputs = [.read (small.baseAddr + 0x00000) 4] ∧
    { loaded with inputs := [.read 0x40004 4] }.inputs = [.read (small.baseAddr + 0x00004) 4] ∧
    { loaded with inputs := [.read 0x40008 4] }.inputs = [.read (small.baseAddr + 0x00008) 4] ∧
    { loaded with inputs := [.read 0x4000C 4] }.inputs = [.read (small.baseAddr + 0x0000C) 4] ∧
    { loaded with inputs := [.write 0x40000 4 1#32] }.inputs = [.write (small.baseAddr + 0x00000) 4 1#32] := by decide

theorem witness_ConfigReportsTheBuild :
    Build.default.legal = true ∧ Build.legal { n := 32768, l := 255, baseAddr := 0 } = true ∧
    { loaded with inputs := [.read 0x40000 4] }.inputs = [.read (small.baseAddr + 0x00000) 4] ∧
    { loaded with inputs := [.write 0x40000 4 1#32] }.inputs = [.write (small.baseAddr + 0x00000) 4 1#32] := by decide

/-- Each clause of `IdleWriteEffects`, at the ends of TERM, A, C and R. -/
theorem witness_IdleWriteEffects :
    small.legal = true ∧ loaded.seq = .idle ∧
    { loaded with inputs := [.write 0x50004 4 0#32] }.inputs = [.write (small.baseAddr + 0x10004) 4 0#32] ∧
    0x0014C = 0x00100 + 4 * (19 : Fin 20).val ∧ (0x10004 % 4 = 0 ∧ 0x10004 + 4 ≤ 0x10000 + small.n) ∧
    (0x20007 % 1 = 0 ∧ 0x20007 + 1 ≤ 0x20000 + small.n) ∧ (0x3000C % 4 = 0 ∧ 0x3000C + 4 ≤ 0x30000 + 2 * small.n) := by
  decide

/-- Each clause of `IdleReadsReturnWhatIsStored`, at the top of A, C and R and at the last TERM word. -/
theorem witness_IdleReadsReturnWhatIsStored :
    small.legal = true ∧ loaded.seq = .idle ∧ 4 % 4 = 0 ∧ 4 + 4 ≤ small.n ∧ 12 % 4 = 0 ∧ 12 + 4 ≤ 2 * small.n ∧
    (∀ m < 4, loaded.memA.read (4 + m) = [5#8, 6#8, 7#8, 8#8][m]?) ∧
    (∀ m < 4, { loaded with memC := loadedA }.memC.read (4 + m) = [5#8, 6#8, 7#8, 8#8][m]?) ∧
    (∀ m < 4, (at' .idle).memR.read (12 + m) = [0#8, 0#8, 0#8, 0#8][m]?) ∧
    { loaded with inputs := [.read 0x50004 4] }.inputs = [.read (small.baseAddr + (0x10000 + 4)) 4] ∧
    { loaded with inputs := [.read 0x60004 4] }.inputs = [.read (small.baseAddr + (0x20000 + 4)) 4] ∧
    { loaded with inputs := [.read 0x7000C 4] }.inputs = [.read (small.baseAddr + (0x30000 + 12)) 4] ∧
    { loaded with inputs := [.read 0x4014C 4] }.inputs = [.read (small.baseAddr + (0x100 + 4 * (19 : Fin 20).val)) 4] := by
  decide

/-- Each clause of `BusyReadsReturnAFreshFreeValue`: a TERM word, and the tops of A, C and R. -/
theorem witness_BusyReadsReturnAFreshFreeValue :
    small.legal = true ∧ (at' (.refconv .zero)).seq ≠ .idle ∧
    { at' (.refconv .zero) with inputs := [.read 0x7000F 1] }.inputs = [.read (small.baseAddr + 0x3000F) 1] ∧
    (∃ t : Fin 20, 0x0014C = 0x100 + 4 * t.val) ∧ 0x10007 + 1 ≤ 0x10000 + small.n ∧ 0x20004 + 4 ≤ 0x20000 + small.n ∧
    0x3000F + 1 ≤ 0x30000 + 2 * small.n := by decide

/-- Each clause of `UnwrittenByteReadsAsFree`: one byte at the top of A, two of which one is written at the top of C, and
four of which none is at the top of R. -/
theorem witness_UnwrittenByteReadsAsFree :
    let s := { State.resetOf small with memC := [(6, 1#8)] }
    s.build.legal = true ∧ s.seq = .idle ∧
    (7 % 1 = 0 ∧ 7 + 1 ≤ s.build.n ∧ ∃ m < 1, s.memA.read (7 + m) = none) ∧
    (6 % 2 = 0 ∧ 6 + 2 ≤ s.build.n ∧ s.memC.read 6 = some 1#8 ∧ ∃ m < 2, s.memC.read (6 + m) = none) ∧
    (12 % 4 = 0 ∧ 12 + 4 ≤ 2 * s.build.n ∧ ∃ m < 4, s.memR.read (12 + m) = none) ∧
    { s with inputs := [.read 0x50007 1] }.inputs = [.read (s.build.baseAddr + (0x10000 + 7)) 1] ∧
    { s with inputs := [.read 0x60006 2] }.inputs = [.read (s.build.baseAddr + (0x20000 + 6)) 2] ∧
    { s with inputs := [.read 0x7000C 4] }.inputs = [.read (s.build.baseAddr + (0x30000 + 12)) 4] := by decide

theorem witness_ReadsHaveNoSideEffect :
    { loaded with inputs := [.read 0x40008 4] }.inputs = .read 0x40008 4 :: [] := by decide

/-- Two busy states that differ in A, in R and in the position, and look alike to the host. -/
theorem witness_BusyReadsLeakNothing :
    let s := { at' (.refconv .zero) with inputs := [.read 0x50000 4] }
    let s' := { at' (.refconv (.acc 3 1)) with memA := [], memR := [], inputs := [.read 0x50000 4] }
    s.seq ≠ .idle ∧ s.busyView = s'.busyView ∧ s.free = s'.free ∧ (∃ t, step s = .next t) ∧ (∃ t', step s' = .next t') :=
  ⟨by decide, by decide, rfl, ⟨_, rfl⟩, ⟨_, rfl⟩⟩

/-- A host write that changes A, one that changes TERM, and a read. -/
theorem witness_HostCannotWriteResults :
    after (step { loaded with inputs := [.write 0x50000 1 9#32] }) (fun t => t.memA ≠ loaded.memA) = true ∧
    after (step { loaded with inputs := [.write 0x4014C 4 7#32] }) (fun t => t.term ≠ loaded.term) = true ∧
    (∃ addr size, { loaded with inputs := [.read 0x40008 4] }.inputs = .read addr size :: []) :=
  ⟨by decide, by decide, _, _, rfl⟩

theorem witness_BusyTransactionsLeaveTheEngineAlone :
    (at' (.refconv .zero)).seq ≠ .idle ∧
    (∃ addr size v, { at' (.refconv .zero) with inputs := [.write 0x50000 4 9#32] }.inputs = .write addr size v :: []) :=
  ⟨by decide, _, _, _, rfl⟩

theorem witness_ResetEventAbandonsTheCommand :
    { at' (.refconv .zero) with inputs := [.reset] }.inputs = .reset :: [] := by decide

theorem witness_RefZeroClearsScratch : (at' (.refconv .zero)).seq = .refconv .zero := by decide

/-- The last product of the last term, at the highest index 2N − 2. -/
theorem witness_RefAccAddsOneProduct :
    let s := { at' (.refconv (.acc 19 7)) with term := oneTerm 19 (Term.ofWord 0x80000007#32) }
    s.seq = .refconv (.acc 19 7) ∧ 7 < s.build.n ∧ s.term[(19 : Fin 20)].exp.toNat < s.build.n ∧
    s.memA.read 7 = some 8#8 ∧ s.memR.read (7 + s.term[(19 : Fin 20)].exp.toNat) = some 0#8 := by decide

theorem witness_RefFoldWritesOneResult :
    let s := at' (.refconv (.fold 7))
    s.seq = .refconv (.fold 7) ∧ 7 < s.build.n ∧ s.memR.read 7 = some 0#8 ∧ s.memR.read (7 + s.build.n) = some 0#8 := by
  decide

theorem witness_VecBaseLoadsOneLane :
    let s := at' (.vecconv (.base 1))
    s.seq = .vecconv (.base 1) ∧ s.build.l * 1 + s.build.l ≤ s.build.n ∧ [5#8, 6#8, 7#8, 8#8].length = s.build.l ∧
    (∀ k < s.build.l, s.memA.read (s.build.l * 1 + k) = [5#8, 6#8, 7#8, 8#8][k]?) := by decide

theorem witness_VecZeroClearsScratch : (at' (.vecconv .zero)).seq = .vecconv .zero := by decide

/-- The last window of a term with the largest exponent, e = N − 1. -/
theorem witness_VecPosAddsOneLane :
    let s := { at' (.vecconv (.pos 9 1)) with
      base := [[1#8, 2#8, 3#8, 4#8], [5#8, 6#8, 7#8, 8#8]], term := oneTerm 9 (Term.ofWord 7#32) }
    s.seq = .vecconv (.pos 9 1) ∧ s.build.l * 1 + s.term[(9 : Fin 20)].exp.toNat + s.build.l ≤ 2 * s.build.n ∧
    s.base[1]? = some [5#8, 6#8, 7#8, 8#8] ∧ [5#8, 6#8, 7#8, 8#8].length = s.build.l ∧
    (∀ k < s.build.l, s.memR.read (s.build.l * 1 + s.term[(9 : Fin 20)].exp.toNat + k) = [0#8, 0#8, 0#8, 0#8][k]?) := by
  decide

theorem witness_VecNegSubtractsOneLane :
    let s := { at' (.vecconv (.neg 9 1)) with
      base := [[1#8, 2#8, 3#8, 4#8], [5#8, 6#8, 7#8, 8#8]], term := oneTerm 19 (Term.ofWord 7#32) }
    s.seq = .vecconv (.neg 9 1) ∧ s.build.l * 1 + s.term[(19 : Fin 20)].exp.toNat + s.build.l ≤ 2 * s.build.n ∧
    s.base[1]? = some [5#8, 6#8, 7#8, 8#8] ∧ [5#8, 6#8, 7#8, 8#8].length = s.build.l ∧
    (∀ k < s.build.l, s.memR.read (s.build.l * 1 + s.term[(19 : Fin 20)].exp.toNat + k) = [0#8, 0#8, 0#8, 0#8][k]?) := by
  decide

theorem witness_VecFoldWritesOneLane :
    let s := at' (.vecconv (.fold 1))
    s.seq = .vecconv (.fold 1) ∧ s.build.l * 1 + s.build.l ≤ s.build.n ∧ [0#8, 0#8, 0#8, 0#8].length = s.build.l ∧
    (∀ k < s.build.l, s.memR.read (s.build.l * 1 + k) = [0#8, 0#8, 0#8, 0#8][k]?) ∧
    (∀ k < s.build.l, s.memR.read (s.build.l * 1 + s.build.n + k) = [0#8, 0#8, 0#8, 0#8][k]?) := by decide

/-- An A of which byte 5 alone has not been written. -/
theorem witness_UnwrittenOperandFaults :
    let a : Memory := [(0, 1#8), (1, 2#8), (2, 3#8), (3, 4#8), (4, 5#8), (6, 7#8), (7, 8#8)]
    let s := { at' (.vecconv (.base 1)) with memA := a }
    5 < s.build.n ∧ a.read 5 = none ∧ s.build.l * 1 + s.build.l ≤ s.build.n ∧ 1 < s.build.l ∧
    s.memA.read (s.build.l * 1 + 1) = none ∧ (∀ m < 1, (s.memA.read (s.build.l * 1 + m)).isSome = true) := by decide

/-- The engine at a REFCONV micro-step that does not complete, and at the last one. -/
theorem witness_EngineLeavesOperandsAndErrors :
    after (engineStep (at' (.refconv (.fold 7)))) (fun t => t.seq = .idle) = true ∧
    after (engineStep (at' (.refconv (.fold 0)))) (fun t => t.seq ≠ .idle) = true := by decide

theorem witness_ResetHasTheInvariant : small.legal = true ∧ tiny.legal = true := by decide

/-! ### States of the invariant -/

/-- The tiny build with A = (1, 2) written and every term (0, +). -/
def ready : State := { State.resetOf tiny with memA := [(0, 1#8), (1, 2#8)] }

theorem ready_inv : ready.Inv where
  build := by decide
  memories := ⟨by decide, by decide, by decide, by decide, by decide, by decide⟩
  lanes := ⟨by decide, by decide, by decide, by decide⟩
  errors := ⟨by decide, rfl⟩
  running := fun h => absurd rfl h

/-- `ready` with another A or another table in range stands ready too. -/
theorem ready_with (i : Instr) (mem : Memory) (tbl : Vector Term 20)
    (hm : mem.wf ∧ mem.within 2 ∧ mem.full 2) (ht : ∀ t : Fin 20, tbl[t].exp.toNat < 2) :
    State.Ready i { ready with memA := mem, term := tbl } where
  inv :=
    { build := ready_inv.build
      memories := ⟨hm.1, hm.2.1, ready_inv.memories.rWf, ready_inv.memories.rWithin, ready_inv.memories.cWf,
        ready_inv.memories.cWithin⟩
      lanes := ⟨ready_inv.lanes.baseCount, ready_inv.lanes.baseWidth, ready_inv.lanes.wWidth, ready_inv.lanes.uWidth⟩
      errors := ⟨ready_inv.errors.codeNone, rfl⟩
      running := fun h => absurd rfl h }
  idle := rfl
  exps := ht
  aWritten := hm.2.2
  supported := by
    cases i
    · rfl
    · show tiny.hasLanes = true; decide

/-- `Ready`, the premise of every statement about a whole command, for both commands. -/
theorem witness_Ready : State.Ready .refconv ready ∧ State.Ready .vecconv ready :=
  ⟨ready_with .refconv _ _ (by decide) (by decide), ready_with .vecconv _ _ (by decide) (by decide)⟩

/-- A running state of the invariant: the tiny build at VEC_POS(0, 0). -/
def running : State := { ready with seq := .vecconv (.pos 0 0), memR := Memory.zeroed 4, base := [[1#8], [2#8]] }

theorem running_inv : running.Inv where
  build := by decide
  memories := ⟨by decide, by decide, by decide, by decide, by decide, by decide⟩
  lanes := ⟨by decide, by decide, by decide, by decide⟩
  errors := ⟨by decide, rfl⟩
  running := fun _ => ⟨by show 0 < tiny.m; decide, by decide, by decide, rfl, by decide, by decide⟩

/-- The same at another position of VECCONV's sequence. -/
theorem running_at (q : VecPos) (hq : Seq.inSequence tiny (.vecconv q))
    (hl : ∀ j < (Seq.vecconv q).lanesLoaded tiny, j < tiny.m) : State.Inv { running with seq := .vecconv q } where
  build := running_inv.build
  memories := ⟨running_inv.memories.aWf, running_inv.memories.aWithin, running_inv.memories.rWf,
    running_inv.memories.rWithin, running_inv.memories.cWf, running_inv.memories.cWithin⟩
  lanes := ⟨running_inv.lanes.baseCount, running_inv.lanes.baseWidth, running_inv.lanes.wWidth, running_inv.lanes.uWidth⟩
  errors := ⟨running_inv.errors.codeNone, rfl⟩
  running := fun _ =>
    have r := running_inv.running (by decide)
    ⟨hq, r.exps, fun _ => r.hasLanes rfl, rfl, fun _ => r.scratch rfl, fun j hj => r.lanes j (hl j hj)⟩

/-- A state of the invariant that steps, with a command running. -/
theorem witness_StepKeepsTheInvariant : running.Inv ∧ ∃ t, step running = .next t :=
  ⟨running_inv, _, rfl⟩

/-- A state of the invariant with A written, and one whose step faults. -/
theorem witness_OnlyAnUnwrittenOperandStops :
    running.Inv ∧ running.aWritten ∧
    State.Inv { running with seq := .vecconv (.base 0), memA := [] } ∧
    step { running with seq := .vecconv (.base 0), memA := [] } = .fault (.unwrittenRead .a 0) := by
  have r := running_at (.base 0) (by show 0 < tiny.m; decide) (fun j hj => by simp [Seq.lanesLoaded] at hj)
  refine ⟨running_inv, by decide, ?_, rfl⟩
  exact
    { build := r.build
      memories := ⟨by decide, by decide, r.memories.rWf, r.memories.rWithin, r.memories.cWf, r.memories.cWithin⟩
      lanes := ⟨r.lanes.baseCount, r.lanes.baseWidth, r.lanes.wWidth, r.lanes.uWidth⟩
      errors := ⟨r.errors.codeNone, rfl⟩
      running := fun h =>
        ⟨(r.running h).inSequence, (r.running h).exps, (r.running h).hasLanes, rfl, (r.running h).scratch,
          fun j hj => by simp [Seq.lanesLoaded] at hj⟩ }

theorem witness_AcceptedCommandCompletes : State.Ready .refconv ready ∧ State.Ready .vecconv ready := witness_Ready

theorem witness_RefconvClosedForm : State.Ready .refconv ready := witness_Ready.1

theorem witness_VecconvClosedForm : State.Ready .vecconv ready := witness_Ready.2

/-- A table with SIGN = 1 on the last ten terms. -/
def canonicalTable : Vector Term 20 := Vector.ofFn fun t => { exp := 0#16, sign := decide (10 ≤ t.val) }

theorem witness_EnginesAgreeOnCanonicalTables :
    State.Ready .vecconv ready ∧
    (∀ t : Fin 20, canonicalTable[t].exp = ready.term[t].exp ∧ canonicalTable[t].sign = decide (10 ≤ t.val)) ∧
    State.canonical { ready with term := canonicalTable } :=
  ⟨witness_Ready.2, by decide, by unfold State.canonical; decide⟩

/-- A table whose terms 0 and 1 differ, and the table with them exchanged. -/
theorem witness_ResultIgnoresTermOrder :
    let s := { ready with term := oneTerm 0 { exp := 1#16, sign := true } }
    State.Ready .vecconv s ∧
    (∀ t : Fin 20, (oneTerm 1 { exp := 1#16, sign := true })[t] = s.term[(Equiv.swap 0 1 : Equiv.Perm (Fin 20)) t]) ∧
    (∀ t : Fin 20, ((Equiv.swap 0 1 : Equiv.Perm (Fin 20)) t).val < 10 ↔ t.val < 10) :=
  ⟨ready_with .vecconv _ _ (by decide) (by decide), by decide, by decide⟩

/-- A = (−6, 6), and a binary A = (0, 1). -/
theorem witness_SmallCoefficientsAreExact :
    let s := { ready with memA := [(0, 0xFA#8), (1, 6#8)] }
    let b := { ready with memA := [(0, 0#8), (1, 1#8)] }
    State.Ready .refconv s ∧ (∀ j < s.build.n, -6 ≤ s.coeff j ∧ s.coeff j ≤ 6) ∧
    State.Ready .refconv b ∧ (∀ j < b.build.n, b.coeff j = 0 ∨ b.coeff j = 1) :=
  ⟨ready_with .refconv _ _ (by decide) (by decide), by decide, ready_with .refconv _ _ (by decide) (by decide), by decide⟩

theorem witness_ZeroOperandGivesZero :
    let s := { ready with memA := [(0, 0#8), (1, 0#8)] }
    State.Ready .vecconv s ∧ ∀ j < s.build.n, s.memA.read j = some 0x00#8 :=
  ⟨ready_with .vecconv _ _ (by decide) (by decide), by decide⟩

theorem witness_ResultIsLinearInTheTerms :
    State.Ready .refconv ready ∧ ({ exp := 1#16, sign := true } : Term).exp.toNat < ready.build.n :=
  ⟨witness_Ready.1, by decide⟩

/-- A = (1, 2) as the sum of (0x81, 1) and (0x80, 1), the first with a wrap. -/
theorem witness_ResultIsLinearInTheOperand :
    State.Ready .refconv ready ∧ State.Ready .refconv { ready with memA := [(0, 0x81#8), (1, 1#8)] } ∧
    State.Ready .refconv { ready with memA := [(0, 0x80#8), (1, 1#8)] } ∧
    ∀ j < ready.build.n, ∃ a a', Memory.read [(0, 0x81#8), (1, 1#8)] j = some a ∧
      Memory.read [(0, 0x80#8), (1, 1#8)] j = some a' ∧ ready.memA.read j = some (a + a') := by
  refine ⟨witness_Ready.1, ready_with .refconv _ _ (by decide) (by decide),
    ready_with .refconv _ _ (by decide) (by decide), fun j hj => ?_⟩
  match j, hj with
  | 0, _ => exact ⟨0x81#8, 0x80#8, by decide⟩
  | 1, _ => exact ⟨1#8, 1#8, by decide⟩

theorem witness_ResultIsTheRingProduct : State.Ready .refconv ready ∧ State.Ready .vecconv ready := witness_Ready

theorem witness_OneTermsWindowsCoverTheShiftOnce :
    running.Inv ∧ running.aWritten ∧ running.seq = .vecconv (.pos 0 0) ∧
    State.Inv { running with seq := .vecconv (.neg 9 0) } ∧ State.aWritten { running with seq := .vecconv (.neg 9 0) } :=
  ⟨running_inv, by decide, rfl, running_at (.neg 9 0) (by show 0 < tiny.m; decide) (fun _ h => h), by decide⟩

/-- Two micro-steps with a write, a read and another write among them. -/
theorem witness_HostTransactionsDoNotDisturbACommand :
    let ins : List Input := [.write 0x10000 1 9#32, .engine, .read 0x30000 4, .engine, .write 0x4 4 1#32]
    Input.reset ∉ ins ∧ after (engineSteps (ins.countP fun x => decide (x = .engine)) running) (fun v => v.seq ≠ .idle) = true := by
  decide

theorem witness_HostCanLoadAnyOperands :
    tiny.legal = true ∧ ∀ t : Fin 20, (oneTerm t { exp := 1#16, sign := true })[t].exp.toNat < tiny.n := by decide

/-- A script at its `poll`, on the `bnz32` and on the label, with the block busy and with it idle. -/
theorem witness_PollWaitsForIdle :
    let lines := assemble [.pseudo .refconv, .pseudo .poll]
    let h : ScriptHost := { lines := lines, next := 2, v := 0, passed := true }
    lines[1]? = some (.label 1) ∧ lines[1 + 1]? = some (.bnz32 0x00008 0x00000001#32 1) ∧
    (∀ j < 1, lines[j]? ≠ some (.label 1)) ∧ h.next = 1 + 1 ∧ { h with next := 1 }.next = 1 ∧
    running.seq ≠ .idle ∧ ready.seq = .idle := by decide

/-- The host and the ENGINE by turns. -/
def alternate (n : Nat) : Turn := if n % 2 = 0 then .host else .engine

/-- The fairness premises of `PollWaitsForIdle`, with its block running and with it idle. -/
theorem witness_PollWaitsForIdle_fair :
    FairTo .engine alternate ∧ FairTo .host alternate ∧ running.Inv ∧ running.aWritten ∧ running.seq ≠ .idle ∧
    ready.Inv ∧ ready.aWritten := by
  refine ⟨fun n => ⟨2 * n + 1, by omega, ?_⟩, fun n => ⟨2 * n, by omega, ?_⟩, running_inv, by decide, by decide, ready_inv,
    by decide⟩
  · unfold alternate; rw [if_neg (by omega)]
  · unfold alternate; rw [if_pos (by omega)]

/-- R47 in one round: the poll's read of a busy block, then a turn of the ENGINE. -/
theorem test_turns :
    let h : ScriptHost := { lines := assemble [.pseudo .poll], next := 1, v := 0, passed := true }
    (match Platform.turns [.host, .engine] { host := h, block := running } with
     | .next q => decide (q.host.next = 0 ∧ q.block.seq = .vecconv (.pos 0 1))
     | .fault _ => false
     | .refused _ => false) = true := by decide

theorem witness_ScriptCommandsIssueTheCommand :
    let h : ScriptHost := { lines := assemble [.pseudo .refconv, .pseudo .vecconv], next := 1, v := 0, passed := true }
    Pseudo.expand 0 .vecconv = [.wr 0x00004 4 2#32] ∧ Pseudo.expand 0 .refconv = [.wr 0x00004 4 1#32] ∧
    h.lines[h.next]? = some (.wr 0x00004 4 2#32) ∧ h.lines[0]? = some (.wr 0x00004 4 1#32) := by decide

end Sys2Proof.Tests
end

