-- ==== Sys2Proof/Proofs/ConfigRegister.lean ====
section
/-! PROOF. CONFIG (R25): its value as a number, and what a read of it and a write to it do. -/

namespace Sys2Proof.Machine

/-- A concatenation as a number: the left part is shifted above the right one. -/
theorem toNat_append_eq_add {m k : Nat} (x : BitVec m) (y : BitVec k) :
    (x ++ y).toNat = x.toNat * 2 ^ k + y.toNat := by
  rw [BitVec.toNat_append, ← Nat.shiftLeft_add_eq_or_of_lt y.isLt, Nat.shiftLeft_eq]

/-- In a legal build N and L fit their fields of CONFIG, so no bit of either is cut off (R7, R8, R25). -/
theorem configWord_toNat {b : Build} (h : b.legal = true) :
    (configWord b).toNat = b.n + 65536 * b.l + 16777216 * 20 := by
  obtain ⟨-, hn, -, hl, -⟩ := legal_bounds h
  have hn16 : b.n % 2 ^ 16 = b.n := Nat.mod_eq_of_lt (by omega)
  have hl8 : b.l % 2 ^ 8 = b.l := Nat.mod_eq_of_lt (by omega)
  simp only [configWord, toNat_append_eq_add, BitVec.toNat_ofNat, hn16, hl8]
  omega

/-- A read at CONFIG's offset answers its word and changes nothing else, whatever SEQ is (R40). -/
theorem step_read_config {s : State} {rest : List Input} (h : s.inputs = .read (s.build.baseAddr + 0x0) 4 :: rest) :
    step s = .next { s with inputs := rest, response := some (.okayRead (wordBytes (configWord s.build))) } := by
  rw [step_read h, hostTarget_at, busTarget_config_at]
  rfl

/-- A write at CONFIG's offset is answered OKAY and changes nothing else, whatever SEQ is (R39). -/
theorem step_write_config {s : State} {v : Word} {rest : List Input}
    (h : s.inputs = .write (s.build.baseAddr + 0x0) 4 v :: rest) :
    step s = .next { s with inputs := rest, response := some .okayWrite } := by
  rw [step, nextMove_write h, busTarget_config_at]
  rfl

/-- Settles O22: the fields by `configWord_toNat`, the two worked words by evaluation, the read and the write by CONFIG's
own step lemmas, none of which looks at SEQ. -/
theorem configReportsTheBuild : Obligations.ConfigReportsTheBuild := by
  unfold Obligations.ConfigReportsTheBuild
  refine ⟨fun b => configWord_toNat, ?default, ?small, fun s rest => step_read_config,
    fun s v rest => step_write_config⟩
  case default => decide
  case small => decide

end Sys2Proof.Machine
end

