-- ==== Sys2Proof/Proofs/BusError.lean ====
section
/-! PROOF. The answer to a host transaction (R36): ERROR exactly under the four conditions, and then no change of the
block's state; OKAY otherwise. -/

namespace Sys2Proof.Machine

/-- A transaction is not OKAY exactly where one of R36's four conditions holds. -/
theorem busOkay_eq_false {b : Build} {off size : Nat} :
    busOkay b off size = false ↔ ¬(size = 1 ∨ size = 2 ∨ size = 4) ∨ off % size ≠ 0 ∨
      (∃ m < size, ¬(byteTarget b (off + m)).isSome) ∨ (off < 0x10000 ∧ size ≠ 4) := by
  rw [← Bool.not_eq_true, busOkay_iff]
  simp only [not_and_or, not_forall, exists_prop, not_or, not_le, ne_eq]

/-- A transaction that none of the four conditions rejects reaches something (R34, R36). -/
theorem busTarget_exists {b : Build} {off size : Nat} (h : busOkay b off size ≠ false) :
    ∃ g, busTarget b off size = some g :=
  Option.ne_none_iff_exists'.1 fun hnone => h (busTarget_none.1 hnone)

/-! ### Writes -/

/-- A CMD write's checks and its acceptance leave the bus response alone (R54). -/
@[simp] theorem issueCommand_response (first : Seq) (sup : Bool) (s : State) :
    (issueCommand first sup s).response = s.response := by
  rcases issueCommand_cases first sup s with ⟨-, h⟩ | ⟨-, -, h⟩ | ⟨-, -, t, -, h⟩ | ⟨-, -, -, h⟩ <;> simp [h]

@[simp] theorem rejectCmd_response (v : Word) (s : State) : (rejectCmd v s).response = s.response := by
  unfold rejectCmd; split <;> simp

@[simp] theorem writeTerm_response (t : Fin 20) (off : Nat) (v : Word) (s : State) :
    (writeTerm t off v s).response = s.response := by
  unfold writeTerm; split <;> simp

@[simp] theorem writeA_response (i size off : Nat) (v : Word) (s : State) :
    (writeA i size off v s).response = s.response := by
  unfold writeA; split <;> simp

/-- A write that reaches something runs a command in a state that has answered OKAY, or ends in such a state (R39). -/
theorem busWrite_some_cases (g : Target) (off size : Nat) (v : Word) (s : State) :
    (∃ i, busWrite (some g) off size v s = .command i (s.answer .okayWrite)) ∨
    ∃ t, busWrite (some g) off size v s = .finished (.next t) ∧ t.response = some .okayWrite := by
  cases g with
  | cmd =>
    cases hd : decode v with
    | ok i => exact .inl ⟨i, by simp only [busWrite, hd]⟩
    | error e => exact .inr ⟨rejectCmd v (s.answer .okayWrite), by simp only [busWrite, hd], by simp⟩
  | status => exact .inr ⟨_, rfl, by simp⟩
  | term t => exact .inr ⟨_, rfl, by simp⟩
  | a i => exact .inr ⟨_, rfl, by simp⟩
  | config | errInfo | c | r => exact .inr ⟨_, rfl, rfl⟩

/-- A write that reaches nothing is answered ERROR, and nothing else changes. -/
theorem step_write_unreached {s : State} {off size : Nat} {v : Word} {rest : List Input}
    (h : s.inputs = .write (s.build.baseAddr + off) size v :: rest) (hg : busTarget s.build off size = none) :
    step s = .next { s with inputs := rest, response := some .errorWrite } := by
  rw [step, nextMove_write h, hg]
  rfl

/-- A write that reaches something is answered OKAY, whatever it then does to the block. -/
theorem step_write_reached {s : State} {off size : Nat} {v : Word} {rest : List Input} {g : Target}
    (h : s.inputs = .write (s.build.baseAddr + off) size v :: rest) (hg : busTarget s.build off size = some g) :
    ∃ t, step s = .next t ∧ t.response = some .okayWrite := by
  rw [step, nextMove_write h, hg]
  rcases busWrite_some_cases g off size v { s with inputs := rest } with ⟨i, hw⟩ | ⟨t, hw, ht⟩ <;> rw [hw]
  · exact ⟨_, exec_eq_issue i _, by simp⟩
  · exact ⟨t, rfl, ht⟩

/-! ### Reads -/

theorem readWord_response (v : Word) (s : State) {size : Nat} (hs : size = 4) :
    ∃ data, (readWord v s).response = some (.okayRead data) ∧ data.length = size :=
  ⟨wordBytes v, rfl, hs.symm⟩

theorem readMem_none_response (s : State) {size : Nat} (hs : size ≤ 4) :
    ∃ data, (readMem (List.replicate size none) s).response = some (.okayRead data) ∧ data.length = size := by
  simpa using readMem_response (bs := List.replicate size none) s (by simpa using hs)

theorem readLocal_response (mem : Memory) (i : Nat) (s : State) {size : Nat} (hs : size ≤ 4) :
    ∃ data, (readLocal mem i size s).response = some (.okayRead data) ∧ data.length = size := by
  unfold readLocal
  split
  · exact readMem_none_response s hs
  · simpa using readMem_response (bs := mem.readBytes i size) s (by simpa using hs)

/-- A read that reaches something is answered OKAY with as many bytes as it asks for: a register or a TERM word is only
reached by a 4-byte read, and a memory holds each byte or draws it (R36, R40). -/
theorem busRead_response {b : Build} {off size : Nat} {g : Target} (s : State) (h : busTarget b off size = some g) :
    ∃ data, (busRead (some g) size s).response = some (.okayRead data) ∧ data.length = size := by
  obtain ⟨hok, hg⟩ := busTarget_some.1 h
  have hsize : size ≤ 4 := by have := (busOkay_iff.1 hok).1; omega
  have hword (hlow : off < 0x10000) : size = 4 := (busTarget_word h hlow).1
  cases g with
  | config => exact readWord_response _ s (hword (by have := byteTarget_config.1 hg; omega))
  | cmd => exact readWord_response _ s (hword (by have := byteTarget_cmd.1 hg; omega))
  | status => exact readWord_response _ s (hword (by have := byteTarget_status.1 hg; omega))
  | errInfo => exact readWord_response _ s (hword (by have := byteTarget_errInfo.1 hg; omega))
  | term t =>
    simp only [busRead]
    split
    · exact readMem_none_response s hsize
    · exact readWord_response _ s (hword (by have := byteTarget_term.1 hg; omega))
  | a i => exact readLocal_response s.memA i s hsize
  | c i => exact readLocal_response s.memC i s hsize
  | r k => exact readLocal_response s.memR k s hsize

/-- A read that reaches nothing is answered ERROR, and draws a free value; nothing else changes. -/
theorem step_read_unreached {s : State} {off size : Nat} {rest : List Input}
    (h : s.inputs = .read (s.build.baseAddr + off) size :: rest) (hg : busTarget s.build off size = none) :
    step s = .next { s with
      inputs := rest, response := some (.errorRead (Config.freeData s.free)), free := s.free + 1 } := by
  rw [step_read h, hostTarget_at, hg]
  rfl

/-- A read that reaches something is answered OKAY with as many bytes as it asks for. -/
theorem step_read_reached {s : State} {off size : Nat} {rest : List Input} {g : Target}
    (h : s.inputs = .read (s.build.baseAddr + off) size :: rest) (hg : busTarget s.build off size = some g) :
    ∃ t data, step s = .next t ∧ t.response = some (.okayRead data) ∧ data.length = size := by
  rw [step_read h, hostTarget_at, hg]
  obtain ⟨data, hr, hl⟩ := busRead_response { s with inputs := rest } hg
  exact ⟨_, data, rfl, hr, hl⟩

/-- Settles O19: R36's conditions are `busOkay … = false`, which is reaching nothing; the step lemmas say what a write and
a read then do, and what they do where something is reached. -/
theorem busErrorChangesNothing : Obligations.BusErrorChangesNothing := by
  unfold Obligations.BusErrorChangesNothing
  intro s off size rest
  simp only [← byteTarget_isSome, ← busOkay_eq_false]
  refine ⟨fun v h => ⟨fun hbad => ?badWrite, fun hgood => ?goodWrite⟩,
    fun h => ⟨fun hbad => ?badRead, fun hgood => ?goodRead⟩⟩
  case badWrite => exact step_write_unreached h (busTarget_none.2 hbad)
  case goodWrite =>
    obtain ⟨g, hg⟩ := busTarget_exists hgood
    exact step_write_reached h hg
  case badRead => exact ⟨_, _, step_read_unreached h (busTarget_none.2 hbad), rfl⟩
  case goodRead =>
    obtain ⟨g, hg⟩ := busTarget_exists hgood
    exact step_read_reached h hg

end Sys2Proof.Machine
end

