-- ==== Sys2Proof/Proofs/CommandWord.lean ====
section
/-! PROOF. The decoder (R53, R56): a word is a command's exactly where it is that command's encoding, so every other
word is rejected; both facts in the word and in its fields. -/

namespace Sys2Proof

/-- RSV and OP are the whole word (R50). -/
theorem rsvField_append_opField (v : Word) : rsvField v ++ opField v = v := by
  rw [rsvField, opField, BitVec.extractLsb'_append_extractLsb'_eq_extractLsb' (by rfl)]
  exact BitVec.extractLsb'_eq_self

@[simp] theorem rsvField_encode (i : Instr) : rsvField (encode i) = 0#28 := by cases i <;> rfl

@[simp] theorem opField_encode (i : Instr) : opField (encode i) = opcode i := by cases i <;> rfl

/-- A word is a command's where RSV is 0 and OP is its opcode (R50, R53). -/
theorem eq_encode_iff {v : Word} {i : Instr} : v = encode i ↔ rsvField v = 0#28 ∧ opField v = opcode i := by
  constructor
  · rintro rfl
    exact ⟨rsvField_encode i, opField_encode i⟩
  · rintro ⟨hrsv, hop⟩
    rw [← rsvField_append_opField v, hrsv, hop, encode]

theorem decode_encode (i : Instr) : decode (encode i) = .ok i := by cases i <;> rfl

/-- The decoder inverts the encoder and accepts nothing else. -/
theorem decode_eq_ok_iff {v : Word} {i : Instr} : decode v = .ok i ↔ v = encode i := by
  constructor
  · intro h
    rw [eq_encode_iff]
    unfold decode at h
    split_ifs at h with hrsv hone htwo <;> cases h
    · exact ⟨not_not.1 hrsv, hone⟩
    · exact ⟨not_not.1 hrsv, htwo⟩
  · rintro rfl
    exact decode_encode i

theorem decode_eq_error_iff {v : Word} : (∃ r, decode v = .error r) ↔ ∀ i, v ≠ encode i := by
  constructor
  · rintro ⟨r, hr⟩ i hv
    rw [decode_eq_ok_iff.2 hv] at hr
    cases hr
  · intro hv
    cases hd : decode v with
    | ok i => exact absurd (decode_eq_ok_iff.1 hd) (hv i)
    | error r => exact ⟨r, rfl⟩

/-- R56's two ways for a word to be illegal: a reserved bit, or an opcode that R53 does not list. -/
theorem decode_eq_error_of_fields {v : Word}
    (h : rsvField v ≠ 0#28 ∨ (opField v ≠ 1#4 ∧ opField v ≠ 2#4)) : ∃ r, decode v = .error r := by
  refine decode_eq_error_iff.2 fun i hv => ?_
  obtain ⟨hrsv, hop⟩ := eq_encode_iff.1 hv
  obtain hbad | ⟨hone, htwo⟩ := h
  · exact hbad hrsv
  · cases i with
    | refconv => exact hone hop
    | vecconv => exact htwo hop

/-- Settles O1: each word is the encoding of its command, and the commands are two. -/
theorem onlyTwoWordsAreCommands : Obligations.OnlyTwoWordsAreCommands := by
  unfold Obligations.OnlyTwoWordsAreCommands
  intro v
  refine ⟨decode_eq_ok_iff (i := .refconv), decode_eq_ok_iff (i := .vecconv), decode_eq_error_iff.trans ?others⟩
  case others =>
    constructor
    · intro h
      exact ⟨h .refconv, h .vecconv⟩
    · rintro ⟨hone, htwo⟩ (_ | _)
      · exact hone
      · exact htwo

end Sys2Proof
end

