-- ==== Sys2Proof/Proofs/CommandIssue.lean ====
section
/-! PROOF. A CMD write (R54, R55): what each of its checks does where it is the first that fails, and what acceptance
does. -/

namespace Sys2Proof.Machine

/-! ### The checks of a command, in their order (R54) -/

theorem issueCommand_of_busy {s : State} (h : s.seq ≠ .idle) (first : Seq) (sup : Bool) :
    issueCommand first sup s = raiseError .busyWrite (offsetInfo cmdOffset) s := by
  simp [issueCommand, busy_eq_true.2 h]

theorem issueCommand_of_unsupported {s : State} (h : s.seq = .idle) (first : Seq) :
    issueCommand first false s = raiseError .unsupported 0#18 s := by
  simp [issueCommand, busy_eq_false.2 h]

theorem issueCommand_of_badTerm {s : State} {t : Fin 20} (h : s.seq = .idle) (ht : firstBadTerm s = some t)
    (first : Seq) : issueCommand first true s = raiseError .expRange (termInfo t) s := by
  simp [issueCommand, busy_eq_false.2 h, ht]

theorem issueCommand_of_inRange {s : State} (h : s.seq = .idle) (he : s.expsInRange) (first : Seq) :
    issueCommand first true s = accept first s := by
  simp [issueCommand, busy_eq_false.2 h, firstBadTerm_none.2 he]

theorem rejectCmd_of_busy {s : State} (h : s.seq ≠ .idle) (v : Word) :
    rejectCmd v s = raiseError .busyWrite (offsetInfo cmdOffset) s := by
  simp [rejectCmd, busy_eq_true.2 h]

theorem rejectCmd_of_idle {s : State} (h : s.seq = .idle) (v : Word) :
    rejectCmd v s = raiseError .illegalCmd (cmdInfo v) s := by
  simp [rejectCmd, busy_eq_false.2 h]

/-! ### Acceptance (R55) -/

theorem supported_vecconv_iff {b : Build} : Instr.vecconv.supported b = true ↔ b.n % b.l = 0 := decide_eq_true_iff

/-- A command that passes every check is accepted. -/
theorem exec_of_passing {i : Instr} {s : State} (h : s.seq = .idle) (hsup : i.supported s.build = true)
    (he : s.expsInRange) : exec i s = .next (accept i.first s) := by
  rw [exec_eq_issue, hsup, issueCommand_of_inRange h he]

/-- Bit 0 of STATUS is BUSY (R27). -/
theorem statusWord_bit_zero (s : State) : (statusWord s).getLsbD 0 = s.busy := by
  simp only [statusWord, BitVec.getLsbD_append]
  simp

/-- Settles O11: both commands pass their checks, VECCONV by N mod L = 0, and BUSY is `SEQ ≠ IDLE`. -/
theorem acceptedCommandStarts : Obligations.AcceptedCommandStarts := by
  unfold Obligations.AcceptedCommandStarts
  intro s hidle hexps
  refine ⟨exec_of_passing (i := .refconv) hidle rfl hexps,
    fun hmod => exec_of_passing (i := .vecconv) hidle (supported_vecconv_iff.2 hmod) hexps, fun q hq => ?busy⟩
  case busy =>
    rw [statusWord_bit_zero, busy_eq_true]
    exact hq

/-! ### A write at CMD's offset (R39, R54) -/

/-- The block with its next input consumed and that write answered OKAY, before the write takes effect. -/
def State.afterWrite (s : State) (rest : List Input) : State :=
  { s with inputs := rest, response := some .okayWrite }

section
variable {s : State} {v : Word} {rest : List Input}

theorem step_cmd_command {i : Instr} (h : s.inputs = .write (s.build.baseAddr + 0x00004) 4 v :: rest)
    (hd : decode v = .ok i) :
    step s = .next (issueCommand i.first (i.supported s.build) (s.afterWrite rest)) := by
  rw [step, nextMove_write h, busTarget_cmd_at]
  simp only [busWrite, hd]
  exact exec_eq_issue i (s.afterWrite rest)

theorem step_cmd_rejected {r : CmdReject} (h : s.inputs = .write (s.build.baseAddr + 0x00004) 4 v :: rest)
    (hd : decode v = .error r) : step s = .next (rejectCmd v (s.afterWrite rest)) := by
  rw [step, nextMove_write h, busTarget_cmd_at]
  simp only [busWrite, hd]
  rfl

/-- The check for BUSY comes before the word is looked at (R54, R99). -/
theorem step_cmd_busy (h : s.inputs = .write (s.build.baseAddr + 0x00004) 4 v :: rest) (hb : s.seq ≠ .idle) :
    step s = .next (raiseError .busyWrite (offsetInfo cmdOffset) (s.afterWrite rest)) := by
  cases hd : decode v with
  | ok i => rw [step_cmd_command h hd, issueCommand_of_busy (s := s.afterWrite rest) hb]
  | error r => rw [step_cmd_rejected h hd, rejectCmd_of_busy (s := s.afterWrite rest) hb]

end

/-- A legal word stands for a command with its own first micro-step; for VECCONV's, N mod L = 0 says that the build has
it (R53, R55, R75). -/
theorem exists_supported_command {b : Build} {v : Word}
    (h : v = 0x00000001#32 ∨ (v = 0x00000002#32 ∧ b.n % b.l = 0)) :
    ∃ i, decode v = .ok i ∧ i.supported b = true ∧
      i.first = if v = 0x00000001#32 then .refconv .zero else .vecconv (.base 0) := by
  obtain rfl | ⟨rfl, hmod⟩ := h
  · exact ⟨.refconv, rfl, rfl, rfl⟩
  · exact ⟨.vecconv, rfl, supported_vecconv_iff.2 hmod, rfl⟩

/-- Settles O12: the word decodes to a command or is rejected, and then one lemma for each check gives the write's
effect. -/
theorem cmdWriteChecksInOrder : Obligations.CmdWriteChecksInOrder := by
  unfold Obligations.CmdWriteChecksInOrder
  intro s v rest h
  refine ⟨step_cmd_busy h, fun hidle hbad => ?illegal, fun hidle hv hmod => ?unsupported,
    fun t hidle hv ht hbelow => ?expRange, fun hidle hv hexps => ?accepted⟩
  case illegal =>
    obtain ⟨r, hr⟩ := decode_eq_error_of_fields hbad
    rw [step_cmd_rejected h hr, rejectCmd_of_idle (s := s.afterWrite rest) hidle]
    rfl
  case unsupported =>
    have hsup : Instr.vecconv.supported s.build = false :=
      Bool.eq_false_iff.2 (mt supported_vecconv_iff.1 hmod)
    rw [step_cmd_command (i := .vecconv) h (decode_eq_ok_iff.2 hv), hsup,
      issueCommand_of_unsupported (s := s.afterWrite rest) hidle]
    rfl
  case expRange =>
    obtain ⟨i, hi, hsup, -⟩ := exists_supported_command hv
    have hfirst : firstBadTerm (s.afterWrite rest) = some t := firstBadTerm_some.2 ⟨ht, hbelow⟩
    rw [step_cmd_command h hi, hsup, issueCommand_of_badTerm (s := s.afterWrite rest) hidle hfirst]
    rfl
  case accepted =>
    obtain ⟨i, hi, hsup, hfirst⟩ := exists_supported_command hv
    rw [step_cmd_command h hi, hsup, issueCommand_of_inRange (s := s.afterWrite rest) hidle hexps, hfirst]
    rfl

end Sys2Proof.Machine
end

