-- ==== Sys2Proof/Proofs/ByteArithmetic.lean ====
section
/-! PROOF. Coefficient arithmetic (R64, R65): bytes add and subtract modulo 256, and lanes do so element by element,
whichever way the second operand's bytes are read. -/

namespace Sys2Proof.Machine

/-! ### Bytes (R64) -/

theorem toNat_add8 (x : Byte) (d : Int) : ((add8 x d).toNat : Int) = ((x.toNat : Int) + d) % 256 :=
  ofInt8_toNat _

theorem toNat_sub8 (x y : Byte) : ((sub8 x y).toNat : Int) = ((x.toNat : Int) - (y.toNat : Int)) % 256 :=
  ofInt8_toNat _

/-- Settles O5: both are mod256 of the integer result. -/
theorem byteArithmeticWraps : Obligations.ByteArithmeticWraps := by
  unfold Obligations.ByteArithmeticWraps
  exact ⟨toNat_add8, toNat_sub8⟩

/-- `sub8` reads its second byte as unsigned; read as signed, the difference has the same residue (R65). -/
theorem sub8_eq_ofInt_toInt (x y : Byte) : sub8 x y = BitVec.ofInt 8 ((x.toNat : Int) - y.toInt) := by
  rw [sub8_eq_add8_neg, add8, sext8, ← Int.sub_eq_add_neg]

/-! ### Lanes (R65) -/

/-- Element k of a lane sum is `add8` of the two elements k, and of no other element: no carry crosses. -/
theorem getElem?_laneAdd {x y : List Byte} {k : Nat} {a b : Byte} (ha : x[k]? = some a) (hb : y[k]? = some b) :
    (laneAdd x y)[k]? = some (add8 a (b.toNat : Int)) :=
  List.getElem?_zipWith_eq_some.2 ⟨a, b, ha, hb, rfl⟩

/-- Element k of a lane difference is `sub8` of the two elements k, and of no other element: no borrow crosses. -/
theorem getElem?_laneSub {x y : List Byte} {k : Nat} {a b : Byte} (ha : x[k]? = some a) (hb : y[k]? = some b) :
    (laneSub x y)[k]? = some (sub8 a b) :=
  List.getElem?_zipWith_eq_some.2 ⟨a, b, ha, hb, rfl⟩

/-- Settles O7: element k of the result is `add8` or `sub8` of the elements k.  The unsigned reading is the definition
of the two; the signed one has the same residue modulo 256. -/
theorem lanesActPerElement : Obligations.LanesActPerElement := by
  unfold Obligations.LanesActPerElement
  intro x y hlen
  refine ⟨by simp [hlen], by simp [hlen], fun k a b ha hb => ?_⟩
  have hadd := getElem?_laneAdd ha hb
  have hsub := getElem?_laneSub ha hb
  refine ⟨hadd, ?addSigned, hsub, ?subSigned⟩
  case addSigned => rw [hadd, add8_toNat_eq_sext, add8, sext8]
  case subSigned => rw [hsub, sub8_eq_ofInt_toInt]

end Sys2Proof.Machine
end

