-- ==== Sys2Proof/Proofs/ReferenceMicroSteps.lean ====
section
/-! PROOF. The micro-steps of REFCONV (R70 to R73): where SEQ goes after each, and the one memory each writes. -/

namespace Sys2Proof.Machine

/-! ### Where SEQ goes (R17, R70) -/

theorem advanceRef_zero (s : State) : advanceRef .zero s = { s with seq := .refconv (.acc 0 0) } := rfl

/-- j runs inside t, and REF_FOLD(0) follows the last pair. -/
theorem advanceRef_acc (t : Fin 20) (j : Nat) (s : State) :
    advanceRef (.acc t j) s = { s with
      seq := if j + 1 < s.build.n then .refconv (.acc t (j + 1))
        else if h : t.val + 1 < 20 then .refconv (.acc ⟨t.val + 1, h⟩ 0)
        else .refconv (.fold 0) } := by
  by_cases hj : j + 1 < s.build.n
  · simp [advanceRef, refNext, hj]
  · by_cases ht : t.val + 1 < 20 <;> simp [advanceRef, refNext, hj, ht]

/-- The fold whose index is N − 1 completes the command. -/
theorem advanceRef_fold (i : Nat) (s : State) :
    advanceRef (.fold i) s = { s with
      seq := if i + 1 < s.build.n then .refconv (.fold (i + 1)) else .idle,
      done := if i + 1 < s.build.n then s.done else true } := by
  by_cases hi : i + 1 < s.build.n <;> simp [advanceRef, refNext, complete, hi]

/-! ### What the ENGINE does at each (R71 to R73) -/

theorem engineStep_refZero {s : State} (h : s.seq = .refconv .zero) :
    engineStep s = .next { s with memR := Memory.zeroed (2 * s.build.n), seq := .refconv (.acc 0 0) } := by
  rw [engineStep_ref h (t := { s with memR := Memory.zeroed (2 * s.build.n) }) rfl, advanceRef_zero]

/-- With j and e_t both below N, A and R have the bytes that REF_ACC(t, j) loads (R72). -/
theorem engineStep_refAcc {s : State} {t : Fin 20} {j : Nat} {a x : Byte} (h : s.seq = .refconv (.acc t j))
    (hj : j < s.build.n) (he : s.expOf t < s.build.n) (ha : s.memA.read j = some a)
    (hx : s.memR.read (j + s.expOf t) = some x) :
    engineStep s = .next (advanceRef (.acc t j)
      { s with memR := s.memR.write (j + s.expOf t) (add8 x (s.signOf t * sext8 a)) }) :=
  engineStep_ref h (refAcc_ok.2 ⟨a, x, hj, ha, by omega, hx, rfl⟩)

theorem engineStep_refFold {s : State} {i : Nat} {x y : Byte} (h : s.seq = .refconv (.fold i)) (hi : i < s.build.n)
    (hx : s.memR.read i = some x) (hy : s.memR.read (i + s.build.n) = some y) :
    engineStep s = .next (advanceRef (.fold i) { s with memC := s.memC.write i (sub8 x y) }) :=
  engineStep_ref h (refFold_ok.2 ⟨x, y, hi, hx, hy, rfl⟩)

/-! ### The statements -/

/-- Settles O33: the new R is the zeroed memory of 2N bytes, which lists nothing beyond. -/
theorem refZeroClearsScratch : Obligations.RefZeroClearsScratch := by
  unfold Obligations.RefZeroClearsScratch
  intro s h
  refine ⟨_, engineStep_refZero h, fun k hk => ?inside, fun k hk => ?outside⟩
  case inside => rw [Memory.read_zeroed, if_pos hk]
  case outside => rw [Memory.read_zeroed, if_neg (Nat.not_lt.2 hk)]

/-- Settles O34: R takes one write, at j + e_t, and the highest index is (N − 1) + (N − 1). -/
theorem refAccAddsOneProduct : Obligations.RefAccAddsOneProduct := by
  unfold Obligations.RefAccAddsOneProduct
  intro s t j a x h hj he ha hx
  have hstep := engineStep_refAcc h hj he ha hx
  rw [advanceRef_acc] at hstep
  exact ⟨_, hstep, Memory.read_write_same _ _ _, fun k hk => Memory.read_write_other _ _ hk, by omega⟩

/-- Settles O35: C takes one write, at i; i = N − 1 has no fold after it. -/
theorem refFoldWritesOneResult : Obligations.RefFoldWritesOneResult := by
  unfold Obligations.RefFoldWritesOneResult
  intro s i x y h hi hx hy
  have hstep := engineStep_refFold h hi hx hy
  rw [advanceRef_fold] at hstep
  exact ⟨_, hstep, Memory.read_write_same _ _ _, fun k hk => Memory.read_write_other _ _ hk, by omega⟩

end Sys2Proof.Machine
end

