-- ==== Sys2Proof/Proofs/VectorizedMicroSteps.lean ====
section
/-! PROOF. The micro-step VEC_ZERO of VECCONV (R77, R79): where SEQ goes after it, and the one memory it writes. -/

namespace Sys2Proof.Machine

/-! ### Where SEQ goes (R77) -/

theorem advanceVec_zero (s : State) : advanceVec .zero s = { s with seq := .vecconv (.pos 0 0) } := rfl

/-! ### What the ENGINE does (R79) -/

theorem engineStep_vecZero {s : State} (h : s.seq = .vecconv .zero) :
    engineStep s = .next { s with memR := Memory.zeroed (2 * s.build.n), seq := .vecconv (.pos 0 0) } := by
  have hmicro : vecMicro .zero s = .ok { s with memR := Memory.zeroed (2 * s.build.n) } := rfl
  rw [engineStep_vec h hmicro, advanceVec_zero]

/-! ### The statement -/

/-- Settles O37: the step leaves the zeroed memory of 2N bytes in R, and index 2N is the first that it does not hold. -/
theorem vecZeroClearsScratch : Obligations.VecZeroClearsScratch := by
  unfold Obligations.VecZeroClearsScratch
  intro s hseq
  have hread := Memory.read_zeroed (2 * s.build.n)
  exact ⟨_, engineStep_vecZero hseq, fun k hk => (hread k).trans (if_pos hk),
    fun k hk => (hread k).trans (if_neg (Nat.not_lt.2 hk))⟩

end Sys2Proof.Machine
end

