-- ==== Sys2Proof/Proofs/ErrorRecord.lean ====
section
/-! PROOF. The error record (R98), and which host writes add to it while a command runs (R39, R97): those to CMD, TERM
and A are dropped with BUSY_WRITE, those to CONFIG, ERRINFO, C and R are ignored, and one to STATUS is performed. -/

namespace Sys2Proof.Machine

/-! ### The error record (R98) -/

/-- Settles O14: ERR clear takes the new record and ERR set keeps the old one, each by its rule for `raiseError`. -/
theorem raiseErrorKeepsTheFirst : Obligations.RaiseErrorKeepsTheFirst := by
  unfold Obligations.RaiseErrorKeepsTheFirst
  exact fun code info s => ⟨raiseError_of_clear code info, raiseError_of_err code info⟩

/-! ### The effect of each write (R27, R39) -/

theorem writeTerm_of_busy {s : State} (hb : s.seq ≠ .idle) (t : Fin 20) (off : Nat) (v : Word) :
    writeTerm t off v s = raiseError .busyWrite (offsetInfo off) s := by
  simp [writeTerm, busy_eq_true.2 hb]

theorem writeA_of_busy {s : State} (hb : s.seq ≠ .idle) (i size off : Nat) (v : Word) :
    writeA i size off v s = raiseError .busyWrite (offsetInfo off) s := by
  simp [writeA, busy_eq_true.2 hb]

/-- Each flag is cleared by its own bit of the word, whatever the other bit is. -/
theorem writeStatus_eq (v : Word) (s : State) :
    writeStatus v s = { s with
      done := if v.getLsbD 1 then false else s.done,
      err := if v.getLsbD 2 then false else s.err,
      errCode := if v.getLsbD 2 then .none else s.errCode,
      errInfo := if v.getLsbD 2 then 0#18 else s.errInfo } := by
  unfold writeStatus
  cases v.getLsbD 1 <;> cases v.getLsbD 2 <;> rfl

/-- The regions that ignore every write, in every sequencer state: CONFIG, ERRINFO, C and R (R39). -/
def Target.ignoresWrites : Target → Bool
  | .config | .errInfo | .c _ | .r _ => true
  | .cmd | .status | .term _ | .a _ => false

theorem busWrite_of_ignoresWrites {g : Target} (hg : g.ignoresWrites = true) (off size : Nat) (v : Word) (s : State) :
    busWrite (some g) off size v s = .finished (.next (s.answer .okayWrite)) := by
  cases g with
  | config | errInfo | c | r => rfl
  | cmd | status | term | a => cases hg

/-! ### A step at a write, by what it reaches -/

section
variable {s : State} {off size : Nat} {v : Word} {rest : List Input}

theorem step_write_term_busy {t : Fin 20} (h : s.inputs = .write (s.build.baseAddr + off) size v :: rest)
    (hg : busTarget s.build off size = some (.term t)) (hb : s.seq ≠ .idle) :
    step s = .next (raiseError .busyWrite (offsetInfo off) (s.afterWrite rest)) := by
  rw [step, nextMove_write h, hg, ← writeTerm_of_busy (s := s.afterWrite rest) hb t off v]
  rfl

theorem step_write_a_busy {i : Nat} (h : s.inputs = .write (s.build.baseAddr + off) size v :: rest)
    (hg : busTarget s.build off size = some (.a i)) (hb : s.seq ≠ .idle) :
    step s = .next (raiseError .busyWrite (offsetInfo off) (s.afterWrite rest)) := by
  rw [step, nextMove_write h, hg, ← writeA_of_busy (s := s.afterWrite rest) hb i size off v]
  rfl

theorem step_write_ignored {g : Target} (h : s.inputs = .write (s.build.baseAddr + off) size v :: rest)
    (hg : busTarget s.build off size = some g) (hi : g.ignoresWrites = true) :
    step s = .next (s.afterWrite rest) := by
  rw [step, nextMove_write h, hg, busWrite_of_ignoresWrites hi]
  rfl

theorem step_write_status (h : s.inputs = .write (s.build.baseAddr + 0x00008) 4 v :: rest) :
    step s = .next (writeStatus v (s.afterWrite rest)) := by
  rw [step, nextMove_write h, busTarget_status_at]
  rfl

end

/-! ### Which writes reach a local memory -/

/-- A region that begins at a multiple of 4 keeps an offset's alignment as that of its index (R34, R36). -/
theorem index_aligned {start i size : Nat} (hstart : start % 4 = 0) (hs : size = 1 ∨ size = 2 ∨ size = 4)
    (ha : (start + i) % size = 0) : i % size = 0 := by
  rcases hs with rfl | rfl | rfl <;> omega

/-- An aligned window inside the result C or the scratch R reaches a region that ignores writes; N ≤ 32768 keeps the two
regions apart (R7, R34). -/
theorem exists_busTarget_results {b : Build} {off size : Nat} (hn : b.n ≤ 32768)
    (hs : size = 1 ∨ size = 2 ∨ size = 4) (ha : off % size = 0)
    (h : (0x20000 ≤ off ∧ off + size ≤ 0x20000 + b.n) ∨ (0x30000 ≤ off ∧ off + size ≤ 0x30000 + 2 * b.n)) :
    ∃ g, busTarget b off size = some g ∧ g.ignoresWrites = true := by
  obtain ⟨hlo, hhi⟩ | ⟨hlo, hhi⟩ := h
  · obtain ⟨i, rfl⟩ := Nat.exists_eq_add_of_le hlo
    exact ⟨.c i, busTarget_c_at b hn hs (index_aligned (by decide) hs ha) (by omega), rfl⟩
  · obtain ⟨k, rfl⟩ := Nat.exists_eq_add_of_le hlo
    exact ⟨.r k, busTarget_r_at b hn hs (index_aligned (by decide) hs ha) (by omega), rfl⟩

/-! ### The statement -/

/-- Settles O17: the offset gives the region that the write reaches, and the region's step lemma gives the effect. -/
theorem busyWriteIsDropped : Obligations.BusyWriteIsDropped := by
  unfold Obligations.BusyWriteIsDropped
  intro s off size v rest hlegal hb h
  obtain ⟨-, hn, -⟩ := legal_bounds hlegal
  refine ⟨?cmd, ?term, ?a, ?register, ?results, ?status⟩
  case cmd =>
    rintro rfl rfl
    exact step_cmd_busy h hb
  case term =>
    rintro t rfl rfl
    exact step_write_term_busy h (busTarget_term_at s.build t) hb
  case a =>
    intro hs ha hlo hhi
    obtain ⟨i, rfl⟩ := Nat.exists_eq_add_of_le hlo
    exact step_write_a_busy h (busTarget_a_at s.build hs (index_aligned (by decide) hs ha) (by omega)) hb
  case register =>
    rintro (rfl | rfl) rfl
    · exact step_write_ignored h (busTarget_config_at s.build) rfl
    · exact step_write_ignored h (busTarget_errInfo_at s.build) rfl
  case results =>
    intro hs ha hrange
    obtain ⟨g, hg, hi⟩ := exists_busTarget_results hn hs ha hrange
    exact step_write_ignored h hg hi
  case status =>
    rintro rfl rfl
    rw [step_write_status h, writeStatus_eq]
    rfl

end Sys2Proof.Machine
end

