-- ==== Sys2Proof/Proofs/WordFormats.lean ====
section
/-! PROOF. The formats of words: command words by value and as bytes (R37, R53, R57), TERM words (R51), the layout of
STATUS (R27, R93), and a byte read as a coefficient (R62). -/

namespace Sys2Proof

/-! ### Command words (R53, R57) -/

/-- Settles O2: a finite table of words and bytes, evaluated. -/
theorem specWordsDecode : Obligations.SpecWordsDecode := by
  unfold Obligations.SpecWordsDecode
  decide

/-- A word's bytes, the lowest address first, decode to what the word does (R37). -/
theorem decodeBytes_wordBytes (v : Word) : decodeBytes (wordBytes v) = decode v := by
  have h : v.extractLsb' 24 8 ++ v.extractLsb' 16 8 ++ v.extractLsb' 8 8 ++ v.extractLsb' 0 8 = v := by
    rw [BitVec.extractLsb'_append_extractLsb'_eq_extractLsb' (by rfl),
      BitVec.extractLsb'_append_extractLsb'_eq_extractLsb' (by rfl),
      BitVec.extractLsb'_append_extractLsb'_eq_extractLsb' (by rfl)]
    exact BitVec.extractLsb'_eq_self
  exact congrArg decode h

/-- Settles O3: `decode_encode`, and the bytes and the table's number are those of the word. -/
theorem decodeOfEncode : Obligations.DecodeOfEncode := by
  unfold Obligations.DecodeOfEncode
  intro i _
  have hbytes : decodeBytes (wordBytes (encode i)) = .ok i := (decodeBytes_wordBytes _).trans (decode_encode i)
  refine ⟨decode_encode i, hbytes, ?_⟩
  have hlt : (encode i).toNat < 2 ^ 32 := (encode i).isLt
  rw [decodeTableWord, Nat.mod_eq_of_lt hlt, if_pos hlt, BitVec.ofNat_toNat, BitVec.setWidth_eq, hbytes]
  rfl

end Sys2Proof

namespace Sys2Proof.Machine

/-! ### TERM words (R51) -/

/-- EXP in [15:0], SIGN in [31], and every other bit 0. -/
theorem toWord_getLsbD (t : Term) (k : Nat) :
    t.toWord.getLsbD k = if k < 16 then t.exp.getLsbD k else (decide (k = 31) && t.sign) := by
  simp only [Term.toWord, BitVec.getLsbD_append, BitVec.getLsbD_ofBool]
  by_cases hexp : k < 16
  · have hlow : k < 15 + 16 := by omega
    simp [hexp, hlow]
  · by_cases hlow : k < 15 + 16
    · have hne : k ≠ 31 := by omega
      simp [hexp, hlow, hne]
    · have hsign : k - (15 + 16) = 0 ↔ k = 31 := by omega
      simp [hexp, hlow, hsign]

/-- The stored bits of a TERM word. -/
theorem mask_getLsbD : ∀ k < 32, (0x8000FFFF#32).getLsbD k = (decide (k < 16) || decide (k = 31)) := by decide

theorem toWord_ofWord (v : Word) : (Term.ofWord v).toWord = v &&& 0x8000FFFF#32 := by
  ext k hk
  rw [← BitVec.getLsbD_eq_getElem, ← BitVec.getLsbD_eq_getElem, toWord_getLsbD, BitVec.getLsbD_and,
    mask_getLsbD k hk]
  by_cases hexp : k < 16
  · simp [Term.ofWord, hexp]
  · by_cases hsign : k = 31
    · subst hsign; simp [Term.ofWord]
    · simp [hexp, hsign]

theorem ofWord_exp_toNat (v : Word) : (Term.ofWord v).exp.toNat = v.toNat % 65536 := by
  rw [Term.ofWord, BitVec.extractLsb'_toNat, Nat.shiftRight_zero]

/-- Storing the word of a term stores that term. -/
theorem ofWord_toWord (t : Term) : Term.ofWord t.toWord = t := by
  obtain ⟨exp, sign⟩ := t
  simp only [Term.ofWord, Term.mk.injEq]
  refine ⟨?exp, ?sign⟩
  case exp =>
    ext k hk
    simp [toWord_getLsbD, hk]
  case sign => rw [toWord_getLsbD, if_neg (by decide)]; rfl

theorem toWord_eq_add (t : Term) :
    t.toWord = (if t.sign then 0x80000000#32 else 0x00000000#32) + t.exp.setWidth 32 := by
  apply BitVec.eq_of_toNat_eq
  rw [Term.toWord, toNat_append_eq_add, toNat_append_eq_add, BitVec.toNat_add]
  cases t.sign <;> simp <;> omega

/-- Settles O4: a TERM word bit by bit, and as a number. -/
theorem termWordKeepsExpAndSign : Obligations.TermWordKeepsExpAndSign := by
  unfold Obligations.TermWordKeepsExpAndSign
  exact ⟨fun v => ⟨ofWord_exp_toNat v, rfl, toWord_ofWord v⟩, fun t => ⟨toWord_eq_add t, ofWord_toWord t⟩⟩

/-! ### Coefficients (R62, R63) -/

theorem sext8_eq (v : Byte) : sext8 v = if v.toNat < 128 then (v.toNat : Int) else (v.toNat : Int) - 256 := by
  rw [sext8, BitVec.toInt_eq_toNat_cond]
  split_ifs <;> omega

theorem sext8_range (v : Byte) : -128 ≤ sext8 v ∧ sext8 v ≤ 127 := by
  rw [sext8_eq]
  split_ifs <;> omega

/-- Settles O6: every range follows from that of `sext8`. -/
theorem coefficientsAreTwosComplement : Obligations.CoefficientsAreTwosComplement := by
  unfold Obligations.CoefficientsAreTwosComplement
  intro v
  obtain ⟨hlo, hhi⟩ := sext8_range v
  refine ⟨sext8_eq v, ⟨hlo, hhi⟩, by omega, by omega, ?signed⟩
  case signed => rintro sg (rfl | rfl) <;> omega

/-! ### STATUS (R27, R93) -/

/-- The code of R93 as a number. -/
theorem errCode_bits_toNat (c : ErrCode) : c.bits.toNat =
    match c with
    | .none => 0
    | .illegalCmd => 1
    | .expRange => 2
    | .unsupported => 3
    | .busyWrite => 4 := by
  cases c <;> rfl

theorem busy_toNat (s : State) : s.busy.toNat = if s.seq = .idle then 0 else 1 := by
  split_ifs with h
  · rw [busy_eq_false.2 h]; rfl
  · rw [busy_eq_true.2 h]; rfl

/-- Settles O15: the word's fields, each shifted to its place, as one sum. -/
theorem statusWordLayout : Obligations.StatusWordLayout := by
  unfold Obligations.StatusWordLayout
  intro s
  rw [← busy_toNat]
  simp only [statusWord, toNat_append_eq_add, BitVec.toNat_ofBool, errCode_bits_toNat]
  cases s.errCode <;> simp <;> omega

end Sys2Proof.Machine
end

