-- ==== Sys2Proof/Proofs/HostTransactions.lean ====
section
/-! PROOF. What a step at a host transaction can do to the block: one inversion lemma for a write and one for a read,
and from them what no host transaction changes (R30, R36, R39 to R41, R97). -/

namespace Sys2Proof.Machine

/-! ### Everything a write can do (R36, R39) -/

/-- The states a write of `v` at the absolute address `addr` can leave, from the state `s` with its input taken. -/
inductive WriteEffect (addr size : Nat) (v : Word) (s : State) : State → Prop where
  /-- Answered, and nothing else: an ERROR, or a region that ignores writes. -/
  | answered (r : Response) : WriteEffect addr size v s (s.answer r)
  | issued (i : Instr) :
    WriteEffect addr size v s (issueCommand i.first (i.supported s.build) (s.answer .okayWrite))
  | rejected : WriteEffect addr size v s (rejectCmd v (s.answer .okayWrite))
  | status : WriteEffect addr size v s (writeStatus v (s.answer .okayWrite))
  | term (t : Fin 20) (haddr : addr = s.build.baseAddr + (0x100 + 4 * t.val)) (hsize : size = 4) :
    WriteEffect addr size v s (writeTerm t (0x100 + 4 * t.val) v (s.answer .okayWrite))
  | operand (i : Nat) (haddr : addr = s.build.baseAddr + (0x10000 + i)) (hi : i < s.build.n)
    (hin : s.build.n ≤ 32768 → i + size ≤ s.build.n ∧ (size = 1 ∨ size = 2 ∨ size = 4)) :
    WriteEffect addr size v s (writeA i size (0x10000 + i) v (s.answer .okayWrite))

/-- A write that reaches TERM[t] is a 4-byte one at that word's own offset (R34, R36). -/
theorem busTarget_term_eq {b : Build} {off size : Nat} {t : Fin 20} (h : busTarget b off size = some (.term t)) :
    size = 4 ∧ off = 0x100 + 4 * t.val := by
  obtain ⟨hlo, hhi, ht⟩ := byteTarget_term.1 (busTarget_some.1 h).2
  obtain ⟨hsize, halign⟩ := busTarget_word h (by omega)
  exact ⟨hsize, by omega⟩

theorem step_write_effect {s : State} {addr size : Nat} {v : Word} {rest : List Input}
    (h : s.inputs = .write addr size v :: rest) :
    ∃ t, step s = .next t ∧ WriteEffect addr size v { s with inputs := rest } t := by
  simp only [step, nextMove, h]
  cases hg : hostTarget s.build addr size with
  | none => exact ⟨_, rfl, .answered .errorWrite⟩
  | some g =>
    obtain ⟨hbase, hg⟩ := hostTarget_some.1 hg
    cases g with
    | config | errInfo | c | r => exact ⟨_, rfl, .answered .okayWrite⟩
    | status => exact ⟨_, rfl, .status⟩
    | cmd =>
      cases hd : decode v with
      | ok i => simp only [busWrite, hd]; exact ⟨_, exec_eq_issue i _, .issued i⟩
      | error e => simp only [busWrite, hd]; exact ⟨_, rfl, .rejected⟩
    | term t =>
      obtain ⟨hsize, hoff⟩ := busTarget_term_eq hg
      rw [hoff]
      exact ⟨_, rfl, .term t (by show addr = s.build.baseAddr + _; omega) hsize⟩
    | a i =>
      obtain ⟨hlo, hhi, hi⟩ := byteTarget_a.1 (busTarget_some.1 hg).2
      have hoff : addr - s.build.baseAddr = 0x10000 + i := by omega
      rw [hoff] at hg ⊢
      refine ⟨_, rfl, .operand i (by show addr = s.build.baseAddr + _; omega) (by show i < s.build.n; omega) ?_⟩
      intro hn
      obtain ⟨-, -, hin, hsize⟩ := busTarget_a hn hg
      exact ⟨hin, hsize⟩

/-- A read changes the response, the inputs and the free-value count only, and always answers (R41). -/
theorem step_read_effect {s : State} {addr size : Nat} {rest : List Input} (h : s.inputs = .read addr size :: rest) :
    ∃ t, step s = .next t ∧ OnlyAnswers { s with inputs := rest } t :=
  ⟨_, step_read h, onlyAnswers_busRead _ _ _⟩

theorem engineStep_idle {s : State} (h : s.seq = .idle) : engineStep s = .next s := by
  simp only [engineStep, h]

theorem step_of_no_input {s : State} (h : s.inputs = []) : step s = engineStep s := by
  simp only [step, nextMove, h]

theorem step_engine {s : State} {rest : List Input} (h : s.inputs = .engine :: rest) :
    step s = engineStep { s with inputs := rest } := by
  simp only [step, nextMove, h]

/-- Everything a step can be, by the next input (R45). -/
theorem step_cases (s : State) :
    ((s.inputs = [] ∨ ∃ rest, s.inputs = .engine :: rest) ∧ step s = engineStep { s with inputs := s.inputs.tail }) ∨
    (∃ rest, s.inputs = .reset :: rest ∧ step s = .next (resetBlock { s with inputs := rest })) ∨
    (∃ addr size rest t, s.inputs = .read addr size :: rest ∧ step s = .next t ∧
      OnlyAnswers { s with inputs := rest } t) ∨
    (∃ addr size v rest t, s.inputs = .write addr size v :: rest ∧ step s = .next t ∧
      WriteEffect addr size v { s with inputs := rest } t) := by
  cases hin : s.inputs with
  | nil =>
    refine .inl ⟨.inl rfl, (step_of_no_input hin).trans ?_⟩
    rw [List.tail_nil, ← hin]
  | cons x rest =>
    cases x with
    | engine => exact .inl ⟨.inr ⟨rest, rfl⟩, step_engine hin⟩
    | reset => exact .inr (.inl ⟨rest, rfl, step_reset hin⟩)
    | read addr size =>
      obtain ⟨t, hstep, heff⟩ := step_read_effect hin
      exact .inr (.inr (.inl ⟨addr, size, rest, t, rfl, hstep, heff⟩))
    | write addr size v =>
      obtain ⟨t, hstep, heff⟩ := step_write_effect hin
      exact .inr (.inr (.inr ⟨addr, size, v, rest, t, rfl, hstep, heff⟩))

/-! ### What no transaction changes -/

/-- What every host transaction keeps, once its input is taken: the build, R, C, BASE, W and U, and the inputs still to
come. -/
structure SameResults (s t : State) : Prop where
  build : t.build = s.build
  inputs : t.inputs = s.inputs
  memR : t.memR = s.memR
  memC : t.memC = s.memC
  base : t.base = s.base
  w : t.w = s.w
  u : t.u = s.u

theorem sameResults_writeTerm (t : Fin 20) (off : Nat) (v : Word) (s : State) :
    SameResults s (writeTerm t off v s) := by
  unfold writeTerm; split <;> constructor <;> simp

theorem sameResults_writeA (i size off : Nat) (v : Word) (s : State) : SameResults s (writeA i size off v s) := by
  unfold writeA; split <;> constructor <;> simp

theorem SameResults.of_answer {s t : State} {r : Response} (h : SameResults (s.answer r) t) : SameResults s t :=
  ⟨h.build, h.inputs, h.memR, h.memC, h.base, h.w, h.u⟩

theorem SameStores.sameResults {s t : State} (h : SameStores s t) : SameResults s t := by
  obtain ⟨hbuild, -, -, hR, hC, hbase, hw, hu, hin, -⟩ := h
  exact ⟨hbuild, hin, hR, hC, hbase, hw, hu⟩

theorem WriteEffect.sameResults {addr size : Nat} {v : Word} {s t : State} (h : WriteEffect addr size v s t) :
    SameResults s t := by
  cases h with
  | answered r => constructor <;> rfl
  | issued i => exact (sameStores_issue _ _ _).sameResults.of_answer
  | rejected => exact (sameStores_reject _ _).sameResults.of_answer
  | status => constructor <;> simp
  | term t => exact (sameResults_writeTerm _ _ _ _).of_answer
  | operand i => exact (sameResults_writeA _ _ _ _ _).of_answer

/-- Only a write to A changes A. -/
theorem WriteEffect.memA_eq_or {addr size : Nat} {v : Word} {s t : State} (h : WriteEffect addr size v s t) :
    t.memA = s.memA ∨ ∃ i, addr = s.build.baseAddr + (0x10000 + i) ∧ i < s.build.n := by
  cases h with
  | answered r => exact .inl rfl
  | issued i => exact .inl (sameStores_issue _ _ (s.answer .okayWrite)).2.1
  | rejected => exact .inl (sameStores_reject v (s.answer .okayWrite)).2.1
  | status => exact .inl (by simp)
  | term t => exact .inl (by unfold writeTerm; split <;> simp)
  | operand i haddr hi => exact .inr ⟨i, haddr, hi⟩

/-- Only a write to TERM changes TERM. -/
theorem WriteEffect.term_eq_or {addr size : Nat} {v : Word} {s t : State} (h : WriteEffect addr size v s t) :
    t.term = s.term ∨ ∃ i : Fin 20, addr = s.build.baseAddr + (0x100 + 4 * i.val) ∧ size = 4 := by
  cases h with
  | answered r => exact .inl rfl
  | issued i => exact .inl (sameStores_issue _ _ (s.answer .okayWrite)).2.2.1
  | rejected => exact .inl (sameStores_reject v (s.answer .okayWrite)).2.2.1
  | status => exact .inl (by simp)
  | term t haddr hsize => exact .inr ⟨t, haddr, hsize⟩
  | operand i => exact .inl (by unfold writeA; split <;> simp)

/-- DONE is not set by a write: acceptance and STATUS clear it, and the rest keep it (R27, R55). -/
theorem WriteEffect.done_of {addr size : Nat} {v : Word} {s t : State} (h : WriteEffect addr size v s t)
    (hd : s.done = false) : t.done = false := by
  cases h with
  | answered r => exact hd
  | issued i =>
    rcases issueCommand_cases i.first (i.supported s.build) (s.answer .okayWrite) with
      ⟨-, he⟩ | ⟨-, -, he⟩ | ⟨-, -, t, -, he⟩ | ⟨-, -, -, he⟩ <;> simp [he, hd]
  | rejected => unfold rejectCmd; split <;> simp [hd]
  | status => simp [writeStatus_eq, hd]
  | term t => unfold writeTerm; split <;> simp [hd]
  | operand i => unfold writeA; split <;> simp [hd]

/-! ### While a command runs (R30, R39) -/

theorem engineView_eq_iff {s t : State} :
    t.engineView = s.engineView ↔ t.build = s.build ∧ t.seq = s.seq ∧ t.term = s.term ∧ t.memA = s.memA ∧
      t.memR = s.memR ∧ t.memC = s.memC ∧ t.base = s.base ∧ t.w = s.w ∧ t.u = s.u := by
  simp only [State.engineView, Prod.mk.injEq]
  tauto

@[simp] theorem engineView_answer (s : State) (r : Response) : (s.answer r).engineView = s.engineView := rfl

@[simp] theorem engineView_raiseError (code : ErrCode) (info : BitVec 18) (s : State) :
    (raiseError code info s).engineView = s.engineView := by
  simp [engineView_eq_iff]

@[simp] theorem engineView_writeStatus (v : Word) (s : State) : (writeStatus v s).engineView = s.engineView := by
  simp [engineView_eq_iff]

theorem OnlyAnswers.engineView {s t : State} (h : OnlyAnswers s t) : t.engineView = s.engineView := by
  rw [h]; rfl

/-- A write while a command runs changes at most the response, STATUS's flags and the error record. -/
theorem WriteEffect.engineView {addr size : Nat} {v : Word} {s t : State} (h : WriteEffect addr size v s t)
    (hb : s.seq ≠ .idle) : t.engineView = s.engineView := by
  have hb' : (s.answer .okayWrite).seq ≠ .idle := hb
  cases h with
  | answered r => rfl
  | issued i => simp [issueCommand_of_busy hb']
  | rejected => simp [rejectCmd_of_busy hb']
  | status => simp
  | term t => simp [writeTerm_of_busy hb']
  | operand i => simp [writeA_of_busy hb']

/-- A step at a read or a write. -/
def State.AtTransaction (s : State) (rest : List Input) : Prop :=
  (∃ addr size, s.inputs = .read addr size :: rest) ∨ ∃ addr size v, s.inputs = .write addr size v :: rest

/-- A transaction while a command runs takes its input and keeps `engineView`. -/
theorem step_transaction_busy {s : State} {rest : List Input} (hb : s.seq ≠ .idle) (h : s.AtTransaction rest) :
    ∃ t, step s = .next t ∧ t.engineView = s.engineView ∧ t.inputs = rest := by
  obtain ⟨addr, size, h⟩ | ⟨addr, size, v, h⟩ := h
  · obtain ⟨t, hstep, heff⟩ := step_read_effect h
    exact ⟨t, hstep, heff.engineView, by rw [heff]⟩
  · obtain ⟨t, hstep, heff⟩ := step_write_effect h
    exact ⟨t, hstep, heff.engineView hb, heff.sameResults.inputs⟩

/-- Settles O30: the view is kept, whatever the transaction. -/
theorem busyTransactionsLeaveTheEngineAlone : Obligations.BusyTransactionsLeaveTheEngineAlone := by
  unfold Obligations.BusyTransactionsLeaveTheEngineAlone
  intro s rest hb h
  obtain ⟨t, hstep, hview, -⟩ := step_transaction_busy hb h
  exact ⟨t, hstep, hview⟩

/-- Settles O27: a read's inversion lemma. -/
theorem readsHaveNoSideEffect : Obligations.ReadsHaveNoSideEffect := by
  unfold Obligations.ReadsHaveNoSideEffect
  intro s addr size rest h
  obtain ⟨t, hstep, heff⟩ := step_read_effect h
  exact ⟨t, hstep, heff⟩

/-- Settles O29: a read changes no memory, and a write's inversion lemma says which of A and TERM it reaches. -/
theorem hostCannotWriteResults : Obligations.HostCannotWriteResults := by
  unfold Obligations.HostCannotWriteResults
  rintro s t rest hstep (⟨addr, size, h⟩ | ⟨addr, size, v, h⟩)
  · obtain ⟨t', hstep', heff⟩ := step_read_effect h
    obtain rfl : t' = t := by simpa [hstep'] using hstep
    rw [heff]
    simp
  · obtain ⟨t', hstep', heff⟩ := step_write_effect h
    obtain rfl : t' = t := by simpa [hstep'] using hstep
    obtain ⟨-, -, hR, hC, hbase, hw, hu⟩ := heff.sameResults
    refine ⟨hR, hC, hbase, hw, hu, fun hA => ?operand, fun hterm => ?table⟩
    case operand =>
      obtain ⟨i, haddr, hi⟩ := heff.memA_eq_or.resolve_left hA
      exact ⟨0x10000 + i, size, v, haddr ▸ h, by omega, Nat.add_lt_add_left hi _⟩
    case table =>
      obtain ⟨i, haddr, rfl⟩ := heff.term_eq_or.resolve_left hterm
      exact ⟨i, v, haddr ▸ h⟩

end Sys2Proof.Machine
end

