-- ==== Sys2Proof/Proofs/LaneMicroSteps.lean ====
section
/-! PROOF. The micro-steps of VECCONV that read or write a lane (R77, R78, R80 to R82), and what every step of the
ENGINE leaves alone (R17, R43, R74, R115). -/

namespace Sys2Proof.Machine

/-! ### Where SEQ goes (R17, R77) -/

theorem advanceVec_base (j : Nat) (s : State) :
    advanceVec (.base j) s = { s with
      seq := if j + 1 < s.build.m then .vecconv (.base (j + 1)) else .vecconv .zero } := by
  by_cases hj : j + 1 < s.build.m <;> simp [advanceVec, vecNext, hj]

/-- j runs inside i, and VEC_NEG(0, 0) follows the last positive window. -/
theorem advanceVec_pos (i : Fin 10) (j : Nat) (s : State) :
    advanceVec (.pos i j) s = { s with
      seq := if j + 1 < s.build.m then .vecconv (.pos i (j + 1))
        else if h : i.val + 1 < 10 then .vecconv (.pos ⟨i.val + 1, h⟩ 0)
        else .vecconv (.neg 0 0) } := by
  by_cases hj : j + 1 < s.build.m
  · simp [advanceVec, vecNext, hj]
  · by_cases hi : i.val + 1 < 10 <;> simp [advanceVec, vecNext, hj, hi]

/-- j runs inside i, and VEC_FOLD(0) follows the last negative window. -/
theorem advanceVec_neg (i : Fin 10) (j : Nat) (s : State) :
    advanceVec (.neg i j) s = { s with
      seq := if j + 1 < s.build.m then .vecconv (.neg i (j + 1))
        else if h : i.val + 1 < 10 then .vecconv (.neg ⟨i.val + 1, h⟩ 0)
        else .vecconv (.fold 0) } := by
  by_cases hj : j + 1 < s.build.m
  · simp [advanceVec, vecNext, hj]
  · by_cases hi : i.val + 1 < 10 <;> simp [advanceVec, vecNext, hj, hi]

/-- The fold whose lane is M − 1 completes the command. -/
theorem advanceVec_fold (j : Nat) (s : State) :
    advanceVec (.fold j) s = { s with
      seq := if j + 1 < s.build.m then .vecconv (.fold (j + 1)) else .idle,
      done := if j + 1 < s.build.m then s.done else true } := by
  by_cases hj : j + 1 < s.build.m <;> simp [advanceVec, vecNext, complete, hj]

/-! ### Loading a window (R38) -/

/-- A window inside the memory loads the bytes that stand in it. -/
theorem loadWindow_of_reads {which : LocalMem} {mem : Memory} {size k n : Nat} {vs : List Byte} (hk : k + n ≤ size)
    (hl : vs.length = n) (hr : ∀ m < n, mem.read (k + m) = vs[m]?) : loadWindow which mem size k n = .ok vs :=
  loadWindow_ok.2 ⟨.inr hk, readBytes_eq_map hl hr⟩

/-! ### The two lane operations as one (R65) -/

/-- `op` adds `sg` times the second lane's signed bytes to the first lane's, element by element modulo 256. -/
structure AddsLanes (op : List Byte → List Byte → List Byte) (sg : Int) : Prop where
  length : ∀ x y, (op x y).length = min x.length y.length
  getElem? : ∀ (x y : List Byte) (k : Nat) (a b : Byte), x[k]? = some a → y[k]? = some b →
    (op x y)[k]? = some (add8 a (sg * sext8 b))

theorem addsLanes_laneAdd : AddsLanes laneAdd 1 where
  length := length_laneAdd
  getElem? x y k a b ha hb := by rw [getElem?_laneAdd ha hb, one_mul, add8_toNat_eq_sext]

theorem addsLanes_laneSub : AddsLanes laneSub (-1) where
  length := length_laneSub
  getElem? x y k a b ha hb := by rw [getElem?_laneSub ha hb, neg_one_mul, sub8_eq_add8_neg]

/-- A window that stands in R and a lane of BASE meet VEC_POS's and VEC_NEG's shared update (R80, R81). -/
theorem vecAcc_of_reads {op : List Byte → List Byte → List Byte} {sg : Int} (hop : AddsLanes op sg) {t : Fin 20}
    {j : Nat} {s : State} {win lane : List Byte} (hin : s.build.l * j + s.expOf t + s.build.l ≤ 2 * s.build.n)
    (hb : s.base[j]? = some lane) (hlane : lane.length = s.build.l) (hwin : win.length = s.build.l)
    (hr : ∀ k < s.build.l, s.memR.read (s.build.l * j + s.expOf t + k) = win[k]?) :
    vecAcc op t j s = .ok { s with
      memR := s.memR.writeBytes (s.build.l * j + s.expOf t) (op win lane), w := op win lane } := by
  refine vecAcc_ok.2 ⟨win, lane, loadWindow_of_reads hin hwin hr, hb, ?_, rfl⟩
  rw [hop.length, hwin, hlane, min_self]
  exact hin

/-- Bytes written read back inside their window, and the rest of the memory is as before. -/
theorem read_writeBytes_window (mem : Memory) {k n : Nat} {vs : List Byte} (hl : vs.length = n) :
    (∀ m < n, (mem.writeBytes k vs).read (k + m) = vs[m]?) ∧
    ∀ m, m < k ∨ k + n ≤ m → (mem.writeBytes k vs).read m = mem.read m := by
  refine ⟨fun m hm => ?inside, fun m hm => ?outside⟩
  case inside => rw [Memory.read_writeBytes, if_pos (by omega), Nat.add_sub_cancel_left]
  case outside => rw [Memory.read_writeBytes, if_neg (by omega)]

/-! ### The statements -/

/-- Settles O36: the window of A is the lane, which goes to BASE[j]. -/
theorem vecBaseLoadsOneLane : Obligations.VecBaseLoadsOneLane := by
  unfold Obligations.VecBaseLoadsOneLane
  intro s j lane hseq hin hl hr
  have hmicro : vecMicro (.base j) s = .ok { s with base := s.base.set j lane } :=
    vecBase_ok.2 ⟨lane, loadWindow_of_reads hin hl hr, rfl⟩
  rw [engineStep_vec hseq hmicro, advanceVec_base]

/-- Settles O38: the shared window update with `laneAdd`. -/
theorem vecPosAddsOneLane : Obligations.VecPosAddsOneLane := by
  unfold Obligations.VecPosAddsOneLane
  intro s i j lane win hseq start hin hb hlane hwin hr
  have hmicro : vecMicro (.pos i j) s = .ok { s with
      memR := s.memR.writeBytes start (laneAdd win lane), w := laneAdd win lane } :=
    vecAcc_of_reads (t := posTerm i) addsLanes_laneAdd hin hb hlane hwin hr
  have hout : (laneAdd win lane).length = s.build.l := by simp [hwin, hlane]
  obtain ⟨hinside, houtside⟩ := read_writeBytes_window s.memR (k := start) hout
  refine ⟨_, _, by rw [engineStep_vec hseq hmicro, advanceVec_pos], hout, fun k x y hx hy => ?_, hinside, houtside⟩
  rw [addsLanes_laneAdd.getElem? _ _ k x y hx hy, one_mul, add8, sext8]

/-- Settles O39: the shared window update with `laneSub`. -/
theorem vecNegSubtractsOneLane : Obligations.VecNegSubtractsOneLane := by
  unfold Obligations.VecNegSubtractsOneLane
  intro s i j lane win hseq start hin hb hlane hwin hr
  have hmicro : vecMicro (.neg i j) s = .ok { s with
      memR := s.memR.writeBytes start (laneSub win lane), w := laneSub win lane } :=
    vecAcc_of_reads (t := negTerm i) addsLanes_laneSub hin hb hlane hwin hr
  have hout : (laneSub win lane).length = s.build.l := by simp [hwin, hlane]
  obtain ⟨hinside, houtside⟩ := read_writeBytes_window s.memR (k := start) hout
  refine ⟨_, _, by rw [engineStep_vec hseq hmicro, advanceVec_neg], hout, fun k x y hx hy => ⟨?_, ?_⟩,
    hinside, houtside⟩
  · rw [getElem?_laneSub hx hy, sub8]
  · rw [addsLanes_laneSub.getElem? _ _ k x y hx hy, neg_one_mul, add8, sext8]

/-- Settles O40: the two windows load, and their lane difference is stored at L·j of C. -/
theorem vecFoldWritesOneLane : Obligations.VecFoldWritesOneLane := by
  unfold Obligations.VecFoldWritesOneLane
  intro s j lower upper hseq hin hlower hupper hrl hru
  have hmicro : vecMicro (.fold j) s = .ok { s with
      memC := s.memC.writeBytes (s.build.l * j) (laneSub lower upper), w := lower, u := upper } :=
    vecFold_ok.2 ⟨lower, upper, loadWindow_of_reads (by omega) hlower hrl, loadWindow_of_reads (by omega) hupper hru,
      hin, rfl⟩
  have hout : (laneSub lower upper).length = s.build.l := by simp [hlower, hupper]
  obtain ⟨hinside, houtside⟩ := read_writeBytes_window s.memC (k := s.build.l * j) hout
  refine ⟨_, by rw [engineStep_vec hseq hmicro, advanceVec_fold], fun k x y hx hy => ?_, houtside⟩
  have hk : k < s.build.l := hlower ▸ (List.getElem?_eq_some_iff.1 hx).1
  rw [hinside k hk, getElem?_laneSub hx hy, sub8]

/-! ### Faults (R115) -/

theorem engineStep_ref_fault {s : State} {p : RefPos} {f : Fault} (h : s.seq = .refconv p)
    (hm : refMicro p s = .error f) : engineStep s = .fault f := by
  unfold engineStep; rw [h]; simp only [hm]

theorem engineStep_vec_fault {s : State} {p : VecPos} {f : Fault} (h : s.seq = .vecconv p)
    (hm : vecMicro p s = .error f) : engineStep s = .fault f := by
  unfold engineStep; rw [h]; simp only [hm]

theorem refAcc_unwritten {s : State} (t : Fin 20) {j : Nat} (hj : j < s.build.n) (hr : s.memA.read j = none) :
    refAcc t j s = .error (.unwrittenRead .a j) := by
  rw [refAcc, loadByte_error.2 (.inl ⟨hj, hr, rfl⟩)]

/-- A window faults at its first byte that has not been written. -/
theorem loadWindow_unwritten {which : LocalMem} {mem : Memory} {size start n k : Nat} (hin : start + n ≤ size)
    (hk : k < n) (hnone : mem.read (start + k) = none) (hbelow : ∀ m < k, (mem.read (start + m)).isSome = true) :
    loadWindow which mem size start n = .error (.unwrittenRead which (start + k)) := by
  induction n generalizing start k with
  | zero => omega
  | succ n ih =>
    cases k with
    | zero => rw [loadWindow, (loadByte_error (k := start)).2 (.inl ⟨by omega, hnone, rfl⟩)]; rfl
    | succ k =>
      obtain ⟨v, hv⟩ := Option.isSome_iff_exists.1 (hbelow 0 (by omega))
      have hshift (m : Nat) : start + 1 + m = start + (m + 1) := by omega
      have hrest := ih (start := start + 1) (k := k) (by omega) (by omega) (by rwa [hshift])
        fun m hm => by rw [hshift]; exact hbelow (m + 1) (by omega)
      rw [loadWindow, (loadByte_ok (k := start)).2 ⟨by omega, hv⟩]
      simp only [hrest, hshift]

/-- Settles O41: REF_ACC loads its byte of A first, and VEC_BASE's window stops at its first byte not written. -/
theorem unwrittenOperandFaults : Obligations.UnwrittenOperandFaults := by
  unfold Obligations.UnwrittenOperandFaults
  refine ⟨fun s t j hseq hj hr => engineStep_ref_fault hseq (refAcc_unwritten t hj hr),
    fun s j k hseq hin hk hnone hbelow => engineStep_vec_fault hseq ?_⟩
  show vecBase j s = _
  rw [vecBase, loadWindow_unwritten hin hk hnone hbelow]

/-! ### What a step of the ENGINE leaves alone (R17, R43, R74) -/

theorem advanceRef_done (p : RefPos) (s : State) :
    ((advanceRef p s).seq = .idle → (advanceRef p s).done = true) ∧
    ((advanceRef p s).seq ≠ .idle → (advanceRef p s).done = s.done) := by
  unfold advanceRef; split <;> simp

theorem advanceVec_done (p : VecPos) (s : State) :
    ((advanceVec p s).seq = .idle → (advanceVec p s).done = true) ∧
    ((advanceVec p s).seq ≠ .idle → (advanceVec p s).done = s.done) := by
  unfold advanceVec; split <;> simp

theorem advanceRef_lanes (p : RefPos) (s : State) :
    (advanceRef p s).base = s.base ∧ (advanceRef p s).w = s.w ∧ (advanceRef p s).u = s.u := by
  unfold advanceRef; split <;> simp

theorem refMicro_lanes {p : RefPos} {s t : State} (h : refMicro p s = .ok t) :
    t.base = s.base ∧ t.w = s.w ∧ t.u = s.u := by
  cases p with
  | zero => cases h; exact ⟨rfl, rfl, rfl⟩
  | acc i j => obtain ⟨a, x, -, -, -, -, rfl⟩ := refAcc_ok.1 h; exact ⟨rfl, rfl, rfl⟩
  | fold i => obtain ⟨x, y, -, -, -, rfl⟩ := refFold_ok.1 h; exact ⟨rfl, rfl, rfl⟩

/-- A step that answers, by what ran: nothing, or a micro-step that succeeded and the sequencer's move. -/
theorem engineStep_next {s t : State} (h : engineStep s = .next t) :
    (s.seq = .idle ∧ t = s) ∨
    (∃ p v, s.seq = .refconv p ∧ refMicro p s = .ok v ∧ t = advanceRef p v) ∨
    (∃ p v, s.seq = .vecconv p ∧ vecMicro p s = .ok v ∧ t = advanceVec p v) := by
  rcases engineStep_cases s with ⟨hs, he⟩ | ⟨p, hs, ⟨f, -, he⟩ | ⟨v, hm, he⟩⟩ | ⟨p, hs, ⟨f, -, he⟩ | ⟨v, hm, he⟩⟩ <;>
    rw [he] at h <;> cases h
  · exact .inl ⟨hs, rfl⟩
  · exact .inr (.inl ⟨p, v, hs, hm, rfl⟩)
  · exact .inr (.inr ⟨p, v, hs, hm, rfl⟩)

/-- DONE after a step of the ENGINE: 1 where a command completes, and unchanged while one runs on (R17). -/
theorem engineStep_done {s t : State} (h : engineStep s = .next t) :
    (s.seq ≠ .idle → t.seq = .idle → t.done = true) ∧ (t.seq ≠ .idle → t.done = s.done) := by
  rcases engineStep_next h with ⟨hs, rfl⟩ | ⟨p, v, -, hm, rfl⟩ | ⟨p, v, -, hm, rfl⟩
  · exact ⟨fun hrun => absurd hs hrun, fun _ => rfl⟩
  · obtain ⟨hidle, hrun⟩ := advanceRef_done p v
    exact ⟨fun _ => hidle, fun hne => (hrun hne).trans (refMicro_same hm).2.2⟩
  · obtain ⟨hidle, hrun⟩ := advanceVec_done p v
    exact ⟨fun _ => hidle, fun hne => (hrun hne).trans (vecMicro_same hm).2.2⟩

/-- The ENGINE sets DONE only where its command completes (R17, R28). -/
theorem engineStep_sets_done {s t : State} (h : engineStep s = .next t) (hd : s.done = false) (hd' : t.done = true) :
    s.seq ≠ .idle ∧ t.seq = .idle := by
  refine ⟨fun hs => ?running, by_contra fun hne => ?completed⟩
  case running =>
    rw [engineStep_idle hs] at h
    cases h
    exact Bool.false_ne_true (hd.symm.trans hd')
  case completed => exact Bool.false_ne_true (hd.symm.trans (((engineStep_done h).2 hne).symm.trans hd'))

/-- No micro-step of REFCONV touches the vector registers (R74). -/
theorem engineStep_ref_lanes {s t : State} {p : RefPos} (h : engineStep s = .next t) (hs : s.seq = .refconv p) :
    t.base = s.base ∧ t.w = s.w ∧ t.u = s.u := by
  rcases engineStep_next h with ⟨hs', -⟩ | ⟨q, v, -, hm, rfl⟩ | ⟨q, v, hs', -⟩
  · rw [hs] at hs'; cases hs'
  · obtain ⟨hbase, hw, hu⟩ := refMicro_lanes hm
    obtain ⟨hbase', hw', hu'⟩ := advanceRef_lanes q v
    exact ⟨hbase'.trans hbase, hw'.trans hw, hu'.trans hu⟩
  · rw [hs] at hs'; cases hs'

/-- Settles O42: `engineStep_same` for the operands and the error record, and the two rules above. -/
theorem engineLeavesOperandsAndErrors : Obligations.EngineLeavesOperandsAndErrors := by
  unfold Obligations.EngineLeavesOperandsAndErrors
  intro s t h
  obtain ⟨hbuild, herr, hcode, hinfo, hterm, hA, hin, hresp, hfree⟩ := engineStep_same h
  obtain ⟨hidle, hrun⟩ := engineStep_done h
  exact ⟨hA, hterm, herr, hcode, hinfo, hbuild, hin, hresp, hfree, hidle, hrun, fun p => engineStep_ref_lanes h⟩

end Sys2Proof.Machine
end

