-- ==== Sys2Proof/Proofs/Invariant.lean ====
section
/-! PROOF. The invariant of the block: host transactions and the reset keep it, and so does each micro-step of the
ENGINE; from it the ENGINE stops only at an unwritten byte of A. -/

namespace Sys2Proof.Machine

/-! ### Its parts, where the fields they speak of are the same -/

theorem State.MemoryShape.congr {s t : State} (h : s.MemoryShape) (hb : t.build = s.build) (hA : t.memA = s.memA)
    (hR : t.memR = s.memR) (hC : t.memC = s.memC) : t.MemoryShape := by
  constructor <;> simp only [hb, hA, hR, hC]
  exacts [h.aWf, h.aWithin, h.rWf, h.rWithin, h.cWf, h.cWithin]

theorem State.LaneShape.congr {s t : State} (h : s.LaneShape) (hb : t.build = s.build) (hbase : t.base = s.base)
    (hw : t.w = s.w) (hu : t.u = s.u) : t.LaneShape := by
  constructor <;> simp only [hb, hbase, hw, hu]
  exacts [h.baseCount, h.baseWidth, h.wWidth, h.uWidth]

theorem State.ErrorRecord.congr {s t : State} (h : s.ErrorRecord) (hb : t.build = s.build) (he : t.err = s.err)
    (hc : t.errCode = s.errCode) (hi : t.errInfo = s.errInfo) : t.ErrorRecord := by
  constructor
  · rw [hc, he]; exact h.codeNone
  · rw [hb, hc, hi]; exact h.info

theorem State.Running.congr {s t : State} (h : s.Running) (hv : t.engineView = s.engineView) (hd : t.done = false) :
    t.Running := by
  obtain ⟨hb, hseq, hterm, hA, hR, -, hbase, -⟩ := engineView_eq_iff.1 hv
  constructor
  · rw [hb, hseq]; exact h.inSequence
  · intro i; simpa only [State.expOf, hterm, hb] using h.exps i
  · rw [hb, hseq]; exact h.hasLanes
  · exact hd
  · rw [hb, hseq, hR]; exact h.scratch
  · rw [hb, hseq, hA, hbase]; exact h.lanes

/-- A state that looks the same to the ENGINE has the invariant if its error record is sound and DONE was not set. -/
theorem State.Inv.of_engineView {s t : State} (h : s.Inv) (hv : t.engineView = s.engineView) (he : t.ErrorRecord)
    (hd : s.done = false → t.done = false) : t.Inv := by
  obtain ⟨hb, hseq, -, hA, hR, hC, hbase, hw, hu⟩ := engineView_eq_iff.1 hv
  exact ⟨hb ▸ h.build, h.memories.congr hb hA hR hC, h.lanes.congr hb hbase hw hu, he, fun hrun =>
    have hr := h.running (hseq ▸ hrun)
    hr.congr hv (hd hr.notDone)⟩

/-! ### The error record (R93, R98) -/

theorem State.ErrorRecord.raise {s : State} (h : s.ErrorRecord) {code : ErrCode} {info : BitVec 18}
    (hcode : code ≠ .none) (hinfo : errInfoMeans s.build info code) : (raiseError code info s).ErrorRecord := by
  cases herr : s.err with
  | true => rwa [raiseError_of_err code info herr]
  | false =>
    rw [raiseError_of_clear code info herr]
    exact ⟨by simp [hcode], hinfo⟩

theorem State.ErrorRecord.clear (s : State) : (clearError s).ErrorRecord := ⟨by simp, rfl⟩

theorem State.ErrorRecord.writeStatus {s : State} (h : s.ErrorRecord) (v : Word) : (writeStatus v s).ErrorRecord := by
  unfold Machine.writeStatus
  cases v.getLsbD 2 with
  | true => exact .clear _
  | false => cases v.getLsbD 1 with
    | true => exact h.congr rfl rfl rfl rfl
    | false => exact h

/-- An offset of the aperture fits ERRINFO's 18 bits. -/
theorem offsetInfo_toNat {off : Nat} (h : off < 0x40000) : (offsetInfo off).toNat = off := by
  simp [offsetInfo, Nat.mod_eq_of_lt h]

theorem errInfoMeans_cmd (b : Build) : errInfoMeans b (offsetInfo cmdOffset) .busyWrite := .inl rfl

theorem errInfoMeans_term (b : Build) (t : Fin 20) : errInfoMeans b (offsetInfo (0x100 + 4 * t.val)) .busyWrite := by
  simp only [errInfoMeans, busyWriteOffset]
  rw [offsetInfo_toNat (by omega)]
  omega

theorem errInfoMeans_operand {b : Build} {i : Nat} (hn : b.n ≤ 32768) (hi : i < b.n) :
    errInfoMeans b (offsetInfo (0x10000 + i)) .busyWrite := by
  simp only [errInfoMeans, busyWriteOffset]
  rw [offsetInfo_toNat (by omega)]
  omega

theorem errInfoMeans_badTerm (b : Build) (t : Fin 20) : errInfoMeans b (termInfo t) .expRange := by
  simp only [errInfoMeans, termInfo, BitVec.toNat_ofNat]
  omega

/-! ### Host transactions and the reset -/

theorem State.Inv.onlyAnswers {s t : State} (h : s.Inv) (ht : OnlyAnswers s t) : t.Inv :=
  h.of_engineView ht.engineView (h.errors.congr (by rw [ht]) (by rw [ht]) (by rw [ht]) (by rw [ht]))
    (fun hd => by rw [ht]; exact hd)

theorem State.Inv.inputs {s : State} (h : s.Inv) (ins : List Input) : State.Inv { s with inputs := ins } :=
  h.of_engineView rfl (h.errors.congr rfl rfl rfl rfl) id

theorem State.Inv.raise {s : State} (h : s.Inv) {code : ErrCode} {info : BitVec 18} (hcode : code ≠ .none)
    (hinfo : errInfoMeans s.build info code) : (raiseError code info s).Inv :=
  h.of_engineView (engineView_raiseError _ _ _) (h.errors.raise hcode hinfo) (by simp)

/-- Where N mod L = 0, there is a lane: L divides N ≥ 1. -/
theorem lanes_pos {b : Build} (hl : b.legal = true) (h : b.hasLanes = true) : 0 < b.m := by
  have hcover := lanes_cover h
  obtain ⟨hn, -⟩ := legal_bounds hl
  refine Nat.pos_of_ne_zero fun h0 => ?_
  rw [h0] at hcover
  omega

/-- Acceptance gives the first position of a command whose checks have passed (R55). -/
theorem State.Inv.accept {s : State} (h : s.Inv) (i : Instr) (hs : i.supported s.build = true) (he : s.expsInRange) :
    (accept i.first s).Inv where
  build := h.build
  memories := h.memories.congr rfl rfl rfl rfl
  lanes := h.lanes.congr rfl rfl rfl rfl
  errors := h.errors.congr rfl rfl rfl rfl
  running := fun _ => by
    refine ⟨?pos, he, fun hvec => ?lanes, rfl, fun hz => ?scratch, fun j hj => ?loaded⟩
    case pos => cases i with
      | refconv => trivial
      | vecconv => exact lanes_pos h.build hs
    case lanes => cases i with
      | refconv => cases hvec
      | vecconv => exact hs
    case scratch => cases i <;> cases hz
    case loaded => cases i <;> cases hj

theorem State.Inv.issue {s : State} (h : s.Inv) (i : Instr) :
    (issueCommand i.first (i.supported s.build) s).Inv := by
  rcases issueCommand_cases i.first (i.supported s.build) s with
    ⟨-, he⟩ | ⟨-, -, he⟩ | ⟨-, -, t, -, he⟩ | ⟨-, hsup, hexp, he⟩ <;> rw [he]
  · exact h.raise (by decide) (errInfoMeans_cmd _)
  · exact h.raise (by decide) rfl
  · exact h.raise (by decide) (errInfoMeans_badTerm _ t)
  · exact h.accept i hsup hexp

theorem State.Inv.reject {s : State} (h : s.Inv) (v : Word) : (rejectCmd v s).Inv := by
  unfold rejectCmd
  split
  · exact h.raise (by decide) (errInfoMeans_cmd _)
  · exact h.raise (by decide) trivial

theorem State.Inv.status {s : State} (h : s.Inv) (v : Word) : (writeStatus v s).Inv :=
  h.of_engineView (engineView_writeStatus v s) (h.errors.writeStatus v) (by simp +contextual [writeStatus_eq])

/-- While IDLE any table keeps the invariant. -/
theorem State.Inv.withTable {s : State} (h : s.Inv) (hidle : s.seq = .idle) (tbl : Vector Term 20) :
    State.Inv { s with term := tbl } :=
  ⟨h.build, h.memories.congr rfl rfl rfl rfl, h.lanes.congr rfl rfl rfl rfl, h.errors.congr rfl rfl rfl rfl,
    fun hrun => absurd hidle hrun⟩

/-- While IDLE any A in its canonical form and bounds keeps the invariant. -/
theorem State.Inv.withOperand {s : State} (h : s.Inv) (hidle : s.seq = .idle) {mem : Memory} (hwf : mem.wf)
    (hin : mem.within s.build.n) : State.Inv { s with memA := mem } :=
  ⟨h.build, ⟨hwf, hin, h.memories.rWf, h.memories.rWithin, h.memories.cWf, h.memories.cWithin⟩,
    h.lanes.congr rfl rfl rfl rfl, h.errors.congr rfl rfl rfl rfl, fun hrun => absurd hidle hrun⟩

theorem writeTerm_of_idle {s : State} (hidle : s.seq = .idle) (t : Fin 20) (off : Nat) (v : Word) :
    writeTerm t off v s = { s with term := s.term.set t (Term.ofWord v) } := by
  simp [writeTerm, busy_eq_false.2 hidle]

theorem writeA_of_idle {s : State} (hidle : s.seq = .idle) (i size off : Nat) (v : Word) :
    writeA i size off v s = { s with memA := s.memA.writeBytes i (dataBytes size v) } := by
  simp [writeA, busy_eq_false.2 hidle]

theorem State.Inv.writeTerm {s : State} (h : s.Inv) (t : Fin 20) (v : Word) :
    (writeTerm t (0x100 + 4 * t.val) v s).Inv := by
  by_cases hidle : s.seq = .idle
  · rw [writeTerm_of_idle hidle]
    exact h.withTable hidle _
  · rw [writeTerm_of_busy hidle]
    exact h.raise (by decide) (errInfoMeans_term _ t)

theorem State.Inv.writeA {s : State} (h : s.Inv) {i size : Nat} (v : Word) (hi : i < s.build.n)
    (hin : i + size ≤ s.build.n) : (writeA i size (0x10000 + i) v s).Inv := by
  obtain ⟨-, hn, -⟩ := legal_bounds h.build
  by_cases hidle : s.seq = .idle
  · have hwindow : i + (dataBytes size v).length ≤ s.build.n := by
      have : (dataBytes size v).length ≤ size := by simp [dataBytes]
      omega
    rw [writeA_of_idle hidle]
    exact h.withOperand hidle (Memory.wf_writeBytes _ _ h.memories.aWf)
      (Memory.within_writeBytes h.memories.aWithin hwindow)
  · rw [writeA_of_busy hidle]
    exact h.raise (by decide) (errInfoMeans_operand hn hi)

theorem WriteEffect.inv {addr size : Nat} {v : Word} {s t : State} (ht : WriteEffect addr size v s t) (h : s.Inv) :
    t.Inv := by
  have hok : (s.answer .okayWrite).Inv := h.onlyAnswers (onlyAnswers_answer _ _)
  cases ht with
  | answered r => exact h.onlyAnswers (onlyAnswers_answer _ _)
  | issued i => exact hok.issue i
  | rejected => exact hok.reject v
  | status => exact hok.status v
  | term t => exact hok.writeTerm t v
  | operand i _ hi hin =>
    obtain ⟨-, hn, -⟩ := legal_bounds h.build
    exact hok.writeA v hi (hin hn).1

theorem resetOf_inv {b : Build} (h : b.legal = true) : (State.resetOf b).Inv where
  build := h
  memories := by constructor <;> simp [State.resetOf]
  lanes := by
    constructor
    · by_cases hl : b.hasLanes = true <;> simp [State.resetOf, hl]
    · intro lane hlane
      by_cases hl : b.hasLanes = true <;> simp_all [State.resetOf]
    · simp [State.resetOf]
    · simp [State.resetOf]
  errors := ⟨by simp [State.resetOf], rfl⟩
  running := fun hrun => absurd rfl hrun

theorem State.Inv.resetBlock {s : State} (h : s.Inv) : (resetBlock s).Inv :=
  (resetOf_inv h.build).of_engineView rfl ((resetOf_inv h.build).errors.congr rfl rfl rfl rfl) id

/-- Settles O43: A, R and C list nothing, BASE, W and U have their widths, and no command runs. -/
theorem resetHasTheInvariant : Obligations.ResetHasTheInvariant := by
  unfold Obligations.ResetHasTheInvariant
  exact ⟨fun _ => resetOf_inv, resetOf_inv (by decide)⟩

end Sys2Proof.Machine
end

