-- ==== Sys2Proof/Proofs/EngineInvariant.lean ====
section
/-! PROOF. The ENGINE keeps the invariant, so every step does, and from it the ENGINE stops only at an unwritten byte
of A. -/

namespace Sys2Proof.Machine

/-! ### The shapes after a micro-step -/

theorem refMicro_memories {p : RefPos} {s t : State} (h : refMicro p s = .ok t) (hs : s.MemoryShape) :
    t.MemoryShape := by
  cases p with
  | zero =>
    cases h
    exact ⟨hs.aWf, hs.aWithin, Memory.wf_zeroed _, Memory.within_zeroed _, hs.cWf, hs.cWithin⟩
  | acc i j =>
    obtain ⟨a, x, -, -, hk, -, rfl⟩ := refAcc_ok.1 h
    exact ⟨hs.aWf, hs.aWithin, Memory.wf_write _ _ hs.rWf, Memory.within_write _ hs.rWithin hk, hs.cWf, hs.cWithin⟩
  | fold i =>
    obtain ⟨x, y, hi, -, -, rfl⟩ := refFold_ok.1 h
    exact ⟨hs.aWf, hs.aWithin, hs.rWf, hs.rWithin, Memory.wf_write _ _ hs.cWf, Memory.within_write _ hs.cWithin hi⟩

theorem vecAcc_memories {op : List Byte → List Byte → List Byte} {t : Fin 20} {j : Nat} {s s' : State}
    (h : vecAcc op t j s = .ok s') (hs : s.MemoryShape) : s'.MemoryShape := by
  obtain ⟨win, lane, -, -, hin, rfl⟩ := vecAcc_ok.1 h
  exact ⟨hs.aWf, hs.aWithin, Memory.wf_writeBytes _ _ hs.rWf, Memory.within_writeBytes hs.rWithin hin, hs.cWf,
    hs.cWithin⟩

theorem vecMicro_memories {p : VecPos} {s t : State} (h : vecMicro p s = .ok t) (hs : s.MemoryShape) :
    t.MemoryShape := by
  cases p with
  | base j =>
    obtain ⟨lane, -, rfl⟩ := vecBase_ok.1 h
    exact hs.congr rfl rfl rfl rfl
  | zero =>
    cases h
    exact ⟨hs.aWf, hs.aWithin, Memory.wf_zeroed _, Memory.within_zeroed _, hs.cWf, hs.cWithin⟩
  | pos i j => exact vecAcc_memories h hs
  | neg i j => exact vecAcc_memories h hs
  | fold j =>
    obtain ⟨lower, upper, hl, hu, hin, rfl⟩ := vecFold_ok.1 h
    have hlen : (laneSub lower upper).length = s.build.l := by simp [loadWindow_length hl, loadWindow_length hu]
    exact ⟨hs.aWf, hs.aWithin, hs.rWf, hs.rWithin, Memory.wf_writeBytes _ _ hs.cWf,
      Memory.within_writeBytes hs.cWithin (by rw [hlen]; exact hin)⟩

theorem refMicro_laneShape {p : RefPos} {s t : State} (h : refMicro p s = .ok t) (hs : s.LaneShape) : t.LaneShape := by
  obtain ⟨hbase, hw, hu⟩ := refMicro_lanes h
  exact hs.congr (refMicro_same h).1.build hbase hw hu

theorem vecAcc_laneShape {op : List Byte → List Byte → List Byte} {sg : Int} (hop : AddsLanes op sg) {t : Fin 20}
    {j : Nat} {s s' : State} (h : vecAcc op t j s = .ok s') (hs : s.LaneShape) : s'.LaneShape := by
  obtain ⟨win, lane, hw, hb, -, rfl⟩ := vecAcc_ok.1 h
  have hlane : lane.length = s.build.l := hs.baseWidth lane (List.mem_of_getElem? hb)
  exact ⟨hs.baseCount, hs.baseWidth, by simp [hop.length, loadWindow_length hw, hlane], hs.uWidth⟩

theorem vecMicro_laneShape {p : VecPos} {s t : State} (h : vecMicro p s = .ok t) (hs : s.LaneShape) : t.LaneShape := by
  cases p with
  | base j =>
    obtain ⟨lane, hl, rfl⟩ := vecBase_ok.1 h
    refine ⟨by simpa using hs.baseCount, fun x hx => ?_, hs.wWidth, hs.uWidth⟩
    obtain hx | rfl := List.mem_or_eq_of_mem_set hx
    · exact hs.baseWidth x hx
    · exact loadWindow_length hl
  | zero => cases h; exact hs.congr rfl rfl rfl rfl
  | pos i j => exact vecAcc_laneShape addsLanes_laneAdd h hs
  | neg i j => exact vecAcc_laneShape addsLanes_laneSub h hs
  | fold j =>
    obtain ⟨lower, upper, hl, hu, -, rfl⟩ := vecFold_ok.1 h
    exact ⟨hs.baseCount, hs.baseWidth, loadWindow_length hl, loadWindow_length hu⟩

/-! ### R written, and the lanes loaded, after a micro-step (R71, R78, R79) -/

theorem refMicro_full {p : RefPos} {s t : State} (h : refMicro p s = .ok t)
    (hfull : p ≠ .zero → s.memR.full (2 * s.build.n)) : t.memR.full (2 * s.build.n) := by
  cases p with
  | zero => cases h; exact Memory.full_zeroed _
  | acc i j =>
    obtain ⟨a, x, -, -, -, -, rfl⟩ := refAcc_ok.1 h
    exact Memory.full_write _ _ (hfull (by simp))
  | fold i =>
    obtain ⟨x, y, -, -, -, rfl⟩ := refFold_ok.1 h
    exact hfull (by simp)

theorem vecAcc_full {op : List Byte → List Byte → List Byte} {t : Fin 20} {j size : Nat} {s s' : State}
    (h : vecAcc op t j s = .ok s') (hfull : s.memR.full size) : s'.memR.full size := by
  obtain ⟨win, lane, -, -, -, rfl⟩ := vecAcc_ok.1 h
  exact Memory.full_writeBytes _ _ hfull

theorem vecMicro_full {p : VecPos} {s t : State} (h : vecMicro p s = .ok t)
    (hfull : p ≠ .zero → s.memR.full (2 * s.build.n)) : t.memR.full (2 * s.build.n) := by
  cases p with
  | base j =>
    obtain ⟨lane, -, rfl⟩ := vecBase_ok.1 h
    exact hfull (by simp)
  | zero => cases h; exact Memory.full_zeroed _
  | pos i j => exact vecAcc_full h (hfull (by simp))
  | neg i j => exact vecAcc_full h (hfull (by simp))
  | fold j =>
    obtain ⟨lower, upper, -, -, -, rfl⟩ := vecFold_ok.1 h
    exact hfull (by simp)

/-- The first `count` lanes of BASE are A's. -/
def State.HoldsLanes (s : State) (count : Nat) : Prop :=
  ∀ j < count, s.base[j]?.map (List.map some) = some (s.memA.readBytes (s.build.l * j) s.build.l)

/-- How many lanes are loaded after a micro-step of VECCONV. -/
def VecPos.loadedAfter (m : Nat) : VecPos → Nat
  | .base j => j + 1
  | .zero => m
  | .pos _ _ => m
  | .neg _ _ => m
  | .fold _ => m

theorem vecMicro_holdsLanes {p : VecPos} {s t : State} (h : vecMicro p s = .ok t)
    (hp : Seq.inSequence s.build (.vecconv p)) (hcount : s.base.length = s.build.m)
    (hl : s.HoldsLanes ((Seq.vecconv p).lanesLoaded s.build)) : t.HoldsLanes (p.loadedAfter s.build.m) := by
  cases p with
  | base j =>
    obtain ⟨lane, hload, rfl⟩ := vecBase_ok.1 h
    have hj : j < s.base.length := hcount ▸ hp
    intro k hk
    by_cases hkj : k = j
    · subst hkj
      simp [hj, (loadWindow_ok.1 hload).2]
    · have hk' : k < j := by have : k < j + 1 := hk; omega
      simpa [List.getElem?_set_ne (Ne.symm hkj)] using hl k hk'
  | zero => cases h; exact hl
  | pos i j => obtain ⟨win, lane, -, -, -, rfl⟩ := vecAcc_ok.1 h; exact hl
  | neg i j => obtain ⟨win, lane, -, -, -, rfl⟩ := vecAcc_ok.1 h; exact hl
  | fold j => obtain ⟨lower, upper, -, -, -, rfl⟩ := vecFold_ok.1 h; exact hl

theorem lanesLoaded_le {b : Build} {q : VecPos} (hq : Seq.inSequence b (.vecconv q)) :
    (Seq.vecconv q).lanesLoaded b ≤ b.m := by
  cases q with
  | base j => exact Nat.le_of_lt hq
  | zero | pos | neg | fold => exact le_refl _

theorem vecNext_lanesLoaded {b : Build} {p q : VecPos} (hpos : 0 < b.m) (h : vecNext b.m p = some q) :
    (Seq.vecconv q).lanesLoaded b ≤ p.loadedAfter b.m := by
  cases p with
  | base j =>
    by_cases hj : j + 1 < b.m <;> simp only [vecNext, hj, if_true, if_false, Option.some.injEq] at h <;> subst h
    · exact le_refl _
    · exact Nat.not_lt.1 hj
  | zero | pos | neg | fold => exact lanesLoaded_le (vecNext_inSequence hpos h)

/-- R is zeroed by VEC_ZERO, and only the micro-steps after it see it so. -/
theorem vecNext_afterZero {m : Nat} {p q : VecPos} (h : vecNext m p = some q) (hq : (Seq.vecconv q).afterZero = true) :
    p ≠ .zero → (Seq.vecconv p).afterZero = true := by
  cases p with
  | base j =>
    simp only [vecNext] at h
    split_ifs at h <;> cases h <;> cases hq
  | zero => exact fun hne => absurd rfl hne
  | pos | neg | fold => exact fun _ => rfl

/-! ### A running command after a micro-step -/

theorem State.Running.refNext {s v : State} {p q : RefPos} (hr : s.Running) (hn : 0 < s.build.n)
    (hs : s.seq = .refconv p) (hm : refMicro p s = .ok v) (hq : refNext s.build.n p = some q) :
    State.Running { v with seq := .refconv q } := by
  obtain ⟨hsame, -, hdone⟩ := refMicro_same hm
  have hfull : p ≠ .zero → s.memR.full (2 * s.build.n) := fun hne => hr.scratch (by
    rw [hs]
    cases p with
    | zero => exact absurd rfl hne
    | acc | fold => rfl)
  exact
    { inSequence := by
        show Seq.inSequence v.build _
        rw [hsame.build]; exact refNext_inSequence hn hq
      exps := fun i => by simpa only [State.expOf, hsame.term, hsame.build] using hr.exps i
      hasLanes := fun hvec => by cases hvec
      notDone := hdone.trans hr.notDone
      scratch := fun _ => by
        show v.memR.full (2 * v.build.n)
        rw [hsame.build]; exact refMicro_full hm hfull
      lanes := fun j hj => by cases hj }

theorem State.Running.vecNext {s v : State} {p q : VecPos} (hr : s.Running) (hl : s.LaneShape) (hpos : 0 < s.build.m)
    (hs : s.seq = .vecconv p) (hm : vecMicro p s = .ok v) (hq : vecNext s.build.m p = some q) :
    State.Running { v with seq := .vecconv q } := by
  obtain ⟨hsame, -, hdone⟩ := vecMicro_same hm
  have hlanes : s.build.hasLanes = true := hr.hasLanes (by rw [hs]; rfl)
  have hcount : s.base.length = s.build.m := by rw [hl.baseCount, if_pos hlanes]
  have hheld : v.HoldsLanes (p.loadedAfter s.build.m) :=
    vecMicro_holdsLanes hm (hs ▸ hr.inSequence) hcount (hs ▸ hr.lanes)
  exact
    { inSequence := by
        show Seq.inSequence v.build _
        rw [hsame.build]; exact vecNext_inSequence hpos hq
      exps := fun i => by simpa only [State.expOf, hsame.term, hsame.build] using hr.exps i
      hasLanes := fun _ => by
        show v.build.hasLanes = true
        rw [hsame.build]; exact hlanes
      notDone := hdone.trans hr.notDone
      scratch := fun hz => by
        show v.memR.full (2 * v.build.n)
        rw [hsame.build]
        exact vecMicro_full hm fun hne => hr.scratch (by rw [hs]; exact vecNext_afterZero hq hz hne)
      lanes := fun j hj => by
        refine hheld j (lt_of_lt_of_le hj ?_)
        show (Seq.vecconv q).lanesLoaded v.build ≤ _
        rw [hsame.build]; exact vecNext_lanesLoaded hpos hq }

/-! ### The ENGINE keeps the invariant -/

/-- The invariant after a micro-step, once the sequencer's move has its own facts. -/
theorem State.Inv.sequenced {s v : State} (h : s.Inv) (hsame : SameOperands s v) (hmem : v.MemoryShape)
    (hlane : v.LaneShape) (q : Seq) (d : Bool) (hrun : q ≠ .idle → State.Running { v with seq := q, done := d }) :
    State.Inv { v with seq := q, done := d } where
  build := by show v.build.legal = true; rw [hsame.build]; exact h.build
  memories := hmem.congr rfl rfl rfl rfl
  lanes := hlane.congr rfl rfl rfl rfl
  errors := h.errors.congr hsame.build hsame.err hsame.errCode hsame.errInfo
  running := hrun

theorem State.Inv.refMicro {s v : State} {p : RefPos} (h : s.Inv) (hs : s.seq = .refconv p)
    (hm : refMicro p s = .ok v) : (advanceRef p v).Inv := by
  obtain ⟨hn, -⟩ := legal_bounds h.build
  obtain ⟨hsame, -, -⟩ := refMicro_same hm
  have hmem := refMicro_memories hm h.memories
  have hlane := refMicro_laneShape hm h.lanes
  unfold advanceRef
  cases hq : Machine.refNext v.build.n p with
  | none => exact h.sequenced hsame hmem hlane .idle true fun hne => absurd rfl hne
  | some q =>
    have hr := h.running (by rw [hs]; simp)
    exact h.sequenced hsame hmem hlane (.refconv q) v.done fun _ => hr.refNext hn hs hm (hsame.build ▸ hq)

theorem State.Inv.vecMicro {s v : State} {p : VecPos} (h : s.Inv) (hs : s.seq = .vecconv p)
    (hm : vecMicro p s = .ok v) : (advanceVec p v).Inv := by
  obtain ⟨hsame, -, -⟩ := vecMicro_same hm
  have hr := h.running (by rw [hs]; simp)
  have hpos : 0 < s.build.m := lanes_pos h.build (hr.hasLanes (by rw [hs]; rfl))
  have hmem := vecMicro_memories hm h.memories
  have hlane := vecMicro_laneShape hm h.lanes
  unfold advanceVec
  cases hq : Machine.vecNext v.build.m p with
  | none => exact h.sequenced hsame hmem hlane .idle true fun hne => absurd rfl hne
  | some q =>
    exact h.sequenced hsame hmem hlane (.vecconv q) v.done fun _ => hr.vecNext h.lanes hpos hs hm (hsame.build ▸ hq)

theorem State.Inv.engineStep {s t : State} (h : s.Inv) (ht : engineStep s = .next t) : t.Inv := by
  rcases engineStep_next ht with ⟨-, rfl⟩ | ⟨p, v, hs, hm, rfl⟩ | ⟨p, v, hs, hm, rfl⟩
  · exact h
  · exact h.refMicro hs hm
  · exact h.vecMicro hs hm

/-- Settles O44: by the step's inversion lemma, each kind of step with its own lemma. -/
theorem stepKeepsTheInvariant : Obligations.StepKeepsTheInvariant := by
  unfold Obligations.StepKeepsTheInvariant
  intro s t h ht
  rcases step_cases s with ⟨-, he⟩ | ⟨rest, -, he⟩ | ⟨addr, size, rest, t', -, he, heff⟩ |
    ⟨addr, size, v, rest, t', -, he, heff⟩ <;> rw [he] at ht
  · exact (h.inputs _).engineStep ht
  · cases ht; exact (h.inputs rest).resetBlock
  · cases ht; exact (h.inputs rest).onlyAnswers heff
  · cases ht; exact heff.inv (h.inputs rest)

/-! ### Where the ENGINE stops (R87, R115) -/

/-- A micro-step goes on, or it reads a byte of A that nothing has written. -/
def GoesOnOrUnwritten (s : State) (o : Except Fault State) : Prop :=
  (∃ t, o = .ok t) ∨ ∃ j < s.build.n, s.memA.read j = none ∧ o = .error (.unwrittenRead .a j)

theorem refMicro_goesOn {s : State} {p : RefPos} (h : s.Inv) (hs : s.seq = .refconv p) :
    GoesOnOrUnwritten s (refMicro p s) := by
  have hr := h.running (by rw [hs]; simp)
  have hseq := hr.inSequence
  have hfull := hr.scratch
  rw [hs] at hseq hfull
  cases p with
  | zero => exact .inl ⟨_, rfl⟩
  | acc t j =>
    have hj : j < s.build.n := hseq
    have he := hr.exps t
    cases ha : s.memA.read j with
    | none => exact .inr ⟨j, hj, ha, refAcc_unwritten t hj ha⟩
    | some a =>
      obtain ⟨x, hx⟩ := Option.isSome_iff_exists.1 (hfull rfl (j + s.expOf t) (by omega))
      exact .inl ⟨_, refAcc_ok.2 ⟨a, x, hj, ha, by omega, hx, rfl⟩⟩
  | fold i =>
    have hi : i < s.build.n := hseq
    obtain ⟨x, hx⟩ := Option.isSome_iff_exists.1 (hfull rfl i (by omega))
    obtain ⟨y, hy⟩ := Option.isSome_iff_exists.1 (hfull rfl (i + s.build.n) (by omega))
    exact .inl ⟨_, refFold_ok.2 ⟨x, y, hi, hx, hy, rfl⟩⟩

/-- A window update whose R is written, whose exponent is in range and whose lane is one of the M goes on. -/
theorem vecAcc_goesOn {op : List Byte → List Byte → List Byte} {sg : Int} (hop : AddsLanes op sg) {s : State}
    (hl : s.LaneShape) (hlanes : s.build.hasLanes = true) (hfull : s.memR.full (2 * s.build.n)) {t : Fin 20}
    (he : s.expOf t < s.build.n) {j : Nat} (hj : j < s.build.m) : ∃ s', vecAcc op t j s = .ok s' := by
  have hin := lane_within hlanes hj
  obtain ⟨win, hw⟩ := loadWindow_exists (which := .r) (mem := s.memR) (size := 2 * s.build.n)
    (k := s.build.l * j + s.expOf t) (n := s.build.l) (by omega) fun m hm => hfull _ (by omega)
  have hcount : j < s.base.length := by rw [hl.baseCount, if_pos hlanes]; exact hj
  have hlane : s.base[j].length = s.build.l := hl.baseWidth _ (List.getElem_mem hcount)
  refine ⟨_, vecAcc_ok.2 ⟨win, s.base[j], hw, List.getElem?_eq_getElem hcount, ?_, rfl⟩⟩
  rw [hop.length, loadWindow_length hw, hlane, min_self]
  omega

theorem vecBase_goesOn {s : State} {j : Nat} (hin : s.build.l * j + s.build.l ≤ s.build.n) :
    GoesOnOrUnwritten s (vecBase j s) := by
  cases hl : loadWindow .a s.memA s.build.n (s.build.l * j) s.build.l with
  | ok lane => exact .inl ⟨_, vecBase_ok.2 ⟨lane, hl, rfl⟩⟩
  | error f =>
    obtain ⟨m, hm, ⟨hk, hnone, rfl⟩ | ⟨hk, -⟩⟩ := loadWindow_error hl
    · exact .inr ⟨_, hk, hnone, by rw [vecBase, hl]⟩
    · omega

theorem vecMicro_goesOn {s : State} {p : VecPos} (h : s.Inv) (hs : s.seq = .vecconv p) :
    GoesOnOrUnwritten s (vecMicro p s) := by
  have hr := h.running (by rw [hs]; simp)
  have hlanes : s.build.hasLanes = true := hr.hasLanes (by rw [hs]; rfl)
  have hseq := hr.inSequence
  have hfull := hr.scratch
  rw [hs] at hseq hfull
  cases p with
  | base j => exact vecBase_goesOn (lane_within hlanes hseq)
  | zero => exact .inl ⟨_, rfl⟩
  | pos i j => exact .inl (vecAcc_goesOn addsLanes_laneAdd h.lanes hlanes (hfull rfl) (hr.exps _) hseq)
  | neg i j => exact .inl (vecAcc_goesOn addsLanes_laneSub h.lanes hlanes (hfull rfl) (hr.exps _) hseq)
  | fold j =>
    have hin := lane_within hlanes hseq
    obtain ⟨lower, hlow⟩ := loadWindow_exists (which := .r) (mem := s.memR) (size := 2 * s.build.n)
      (k := s.build.l * j) (n := s.build.l) (by omega) fun m hm => hfull rfl _ (by omega)
    obtain ⟨upper, hup⟩ := loadWindow_exists (which := .r) (mem := s.memR) (size := 2 * s.build.n)
      (k := s.build.l * j + s.build.n) (n := s.build.l) (by omega) fun m hm => hfull rfl _ (by omega)
    exact .inl ⟨_, vecFold_ok.2 ⟨lower, upper, hlow, hup, hin, rfl⟩⟩

theorem engineStep_goesOn {s : State} (h : s.Inv) :
    (∃ t, engineStep s = .next t) ∨
    (s.seq ≠ .idle ∧ ∃ j < s.build.n, s.memA.read j = none ∧ engineStep s = .fault (.unwrittenRead .a j)) := by
  cases hs : s.seq with
  | idle => exact .inl ⟨s, engineStep_idle hs⟩
  | refconv p =>
    obtain ⟨t, ht⟩ | ⟨j, hj, hnone, hf⟩ := refMicro_goesOn h hs
    · exact .inl ⟨_, engineStep_ref hs ht⟩
    · exact .inr ⟨by simp, j, hj, hnone, engineStep_ref_fault hs hf⟩
  | vecconv p =>
    obtain ⟨t, ht⟩ | ⟨j, hj, hnone, hf⟩ := vecMicro_goesOn h hs
    · exact .inl ⟨_, engineStep_vec hs ht⟩
    · exact .inr ⟨by simp, j, hj, hnone, engineStep_vec_fault hs hf⟩

/-- With A written the ENGINE always goes on. -/
theorem engineStep_exists {s : State} (h : s.Inv) (ha : s.aWritten) : ∃ t, engineStep s = .next t := by
  obtain ht | ⟨-, j, hj, hnone, -⟩ := engineStep_goesOn h
  · exact ht
  · have := ha j hj
    simp [hnone] at this

/-- From the invariant a step answers, or it is the ENGINE's fault at an unwritten byte of A. -/
theorem step_goesOn {s : State} (h : s.Inv) :
    (∃ t, step s = .next t) ∨
    (s.seq ≠ .idle ∧ ∃ j < s.build.n, s.memA.read j = none ∧ step s = .fault (.unwrittenRead .a j)) := by
  rcases step_cases s with ⟨-, he⟩ | ⟨rest, -, he⟩ | ⟨addr, size, rest, t', -, he, -⟩ |
    ⟨addr, size, v, rest, t', -, he, -⟩ <;> rw [he]
  · exact engineStep_goesOn (h.inputs s.inputs.tail)
  · exact .inl ⟨_, rfl⟩
  · exact .inl ⟨_, rfl⟩
  · exact .inl ⟨_, rfl⟩

/-- Settles O45: from `step_goesOn`, since the fault needs an unwritten byte of A. -/
theorem onlyAnUnwrittenOperandStops : Obligations.OnlyAnUnwrittenOperandStops := by
  unfold Obligations.OnlyAnUnwrittenOperandStops
  intro s h
  obtain ⟨t, ht⟩ | ⟨hrun, j, hj, hnone, hf⟩ := step_goesOn h
  · exact ⟨by simp [ht], by simp [ht], fun _ => ⟨t, ht⟩⟩
  · refine ⟨by simp [hf], fun f hf' => ?_, fun ha => absurd (ha j hj) (by simp [hnone])⟩
    rw [hf] at hf'
    cases hf'
    exact ⟨hrun, j, hj, rfl, hnone⟩

end Sys2Proof.Machine
end

