-- ==== Sys2Proof/Proofs/Completion.lean ====
section
/-! PROOF. A running command completes after exactly the micro-steps it has left (R17, R70, R77, R121), and what every
micro-step keeps holds at its end. -/

namespace Sys2Proof.Machine

/-- One micro-step fewer is left after each; completion leaves none. -/
theorem engineStep_left {s t : State} (h : s.Inv) (hrun : s.seq ≠ .idle) (ht : engineStep s = .next t) :
    t.seq.left t.build + 1 = s.seq.left s.build := by
  have hseq := (h.running hrun).inSequence
  rcases engineStep_next ht with ⟨hs, -⟩ | ⟨p, v, hs, hm, rfl⟩ | ⟨p, v, hs, hm, rfl⟩
  · exact absurd hs hrun
  · rw [hs] at hseq ⊢
    obtain ⟨hsome, hnone⟩ := refNext_left hseq
    have hb : v.build = s.build := (refMicro_same hm).1.build
    unfold advanceRef
    rw [hb]
    cases hq : refNext s.build.n p with
    | none => simpa [Seq.left] using (hnone hq).symm
    | some q => simpa [Seq.left, hb] using hsome q hq
  · rw [hs] at hseq ⊢
    obtain ⟨hsome, hnone⟩ := vecNext_left hseq
    have hb : v.build = s.build := (vecMicro_same hm).1.build
    unfold advanceVec
    rw [hb]
    cases hq : vecNext s.build.m p with
    | none => simpa [Seq.left] using (hnone hq).symm
    | some q => simpa [Seq.left, hb] using hsome q hq

theorem SameOperands.aWritten {s t : State} (h : SameOperands s t) (ha : s.aWritten) : t.aWritten := by
  unfold State.aWritten
  rw [h.memA, h.build]
  exact ha

/-- What a run from `s` to the end of its command comes to. -/
structure RunsToIdle (s u : State) : Prop where
  steps : engineSteps (s.seq.left s.build) s = .next u
  idle : u.seq = .idle
  done : s.seq ≠ .idle → u.done = true
  running : ∀ k < s.seq.left s.build, ∃ v, engineSteps k s = .next v ∧ v.seq ≠ .idle

theorem runsToIdle_of_idle {s : State} (h : s.seq = .idle) : RunsToIdle s s where
  steps := engineSteps_idle _ h
  idle := h
  done := fun hrun => absurd h hrun
  running := fun k hk => by rw [h] at hk; cases hk

/-- A run is one micro-step and the run from there. -/
theorem RunsToIdle.cons {s t u : State} (hrun : s.seq ≠ .idle) (ht : engineStep s = .next t)
    (hleft : t.seq.left t.build + 1 = s.seq.left s.build) (hu : RunsToIdle t u) : RunsToIdle s u where
  steps := by rw [← hleft, engineSteps, ht]; exact hu.steps
  idle := hu.idle
  done := fun _ => by
    by_cases hidle : t.seq = .idle
    · have hstop := hu.steps
      rw [hidle] at hstop
      cases hstop
      exact (engineStep_done ht).1 hrun hidle
    · exact hu.done hidle
  running := fun k hk => by
    cases k with
    | zero => exact ⟨s, rfl, hrun⟩
    | succ k =>
      obtain ⟨v, hv, hne⟩ := hu.running k (by omega)
      exact ⟨v, by rw [engineSteps, ht]; exact hv, hne⟩

/-- The induction over a run, once: what each micro-step keeps holds where the command completes. -/
theorem exists_runsToIdle {P : State → Prop}
    (hkeep : ∀ v t : State, v.Inv → v.seq ≠ .idle → P v → engineStep v = .next t → P t) {s : State} (h : s.Inv)
    (ha : s.aWritten) (hs : P s) : ∃ u, RunsToIdle s u ∧ P u := by
  induction hn : s.seq.left s.build generalizing s with
  | zero =>
    by_cases hrun : s.seq = .idle
    · exact ⟨s, runsToIdle_of_idle hrun, hs⟩
    · obtain ⟨t, ht⟩ := engineStep_exists h ha
      have := engineStep_left h hrun ht
      omega
  | succ n ih =>
    have hrun : s.seq ≠ .idle := fun hidle => by rw [hidle] at hn; cases hn
    obtain ⟨t, ht⟩ := engineStep_exists h ha
    have hleft := engineStep_left h hrun ht
    obtain ⟨u, hu, hp⟩ := ih (h.engineStep ht) ((engineStep_same ht).aWritten ha) (hkeep s t h hrun hs ht) (by omega)
    exact ⟨u, hu.cons hrun ht hleft, hp⟩

/-! ### From acceptance (R55) -/

theorem first_ne_idle (i : Instr) : i.first ≠ .idle := by cases i <;> simp [Instr.first]

theorem State.Ready.exec {i : Instr} {s : State} (h : s.Ready i) : exec i s = .next (accept i.first s) :=
  exec_of_passing h.idle h.supported h.exps

theorem State.Ready.accepted_inv {i : Instr} {s : State} (h : s.Ready i) : (accept i.first s).Inv :=
  h.inv.accept i h.supported h.exps

/-- A command issued in a ready state runs to its completion, and what its micro-steps keep holds there. -/
theorem State.Ready.exists_run {i : Instr} {s : State} (h : s.Ready i) {P : State → Prop}
    (hkeep : ∀ v t : State, v.Inv → v.seq ≠ .idle → P v → engineStep v = .next t → P t)
    (hstart : P (accept i.first s)) : ∃ u, RunsToIdle (accept i.first s) u ∧ P u :=
  exists_runsToIdle hkeep h.accepted_inv h.aWritten hstart

theorem State.Ready.completes {i : Instr} {s u : State} (h : s.Ready i) (hu : RunsToIdle (accept i.first s) u) :
    Completes i s u :=
  ⟨_, h.exec, by rw [← left_first]; exact hu.steps⟩

/-- Settles O46: the micro-steps left at acceptance are the command's. -/
theorem acceptedCommandCompletes : Obligations.AcceptedCommandCompletes := by
  unfold Obligations.AcceptedCommandCompletes
  intro i s h
  obtain ⟨u, hu, -⟩ := h.exists_run (P := fun _ => True) (fun _ _ _ _ _ _ => trivial) trivial
  have hcount : (accept i.first s).seq.left (accept i.first s).build = i.microSteps s.build := left_first s.build i
  exact ⟨_, u, h.exec, hcount ▸ hu.steps, hu.idle, hu.done (first_ne_idle i), hcount ▸ hu.running⟩

end Sys2Proof.Machine
end

