-- ==== Sys2Proof/Proofs/ClosedForm.lean ====
section
/-! PROOF. The closed form of both commands (R84): at every micro-step R holds the products added so far and C the bytes
folded so far, and no micro-step of one VECCONV term adds outside its shift (R83). -/

namespace Sys2Proof.Machine

/-! ### What a position says of R and C -/

/-- How many products of each term R holds before a micro-step; none where R is not yet zeroed. -/
def Seq.products (b : Build) : Seq → Option (Fin 20 → Nat)
  | .idle => some fun _ => b.n
  | .refconv .zero => none
  | .refconv (.acc t j) => some (limitAt b.n t.val j)
  | .refconv (.fold _) => some fun _ => b.n
  | .vecconv (.base _) => none
  | .vecconv .zero => none
  | .vecconv (.pos i j) => some (limitAt b.n (posTerm i).val (b.l * j))
  | .vecconv (.neg i j) => some (limitAt b.n (negTerm i).val (b.l * j))
  | .vecconv (.fold _) => some fun _ => b.n

/-- How many bytes of C the command has folded before a micro-step. -/
def Seq.folded (b : Build) : Seq → Nat
  | .idle => b.n
  | .refconv .zero => 0
  | .refconv (.acc _ _) => 0
  | .refconv (.fold i) => i
  | .vecconv (.base _) => 0
  | .vecconv .zero => 0
  | .vecconv (.pos _ _) => 0
  | .vecconv (.neg _ _) => 0
  | .vecconv (.fold j) => b.l * j

/-- The products of each term that R holds after a micro-step of REFCONV. -/
def RefPos.productsAfter (b : Build) : RefPos → Option (Fin 20 → Nat)
  | .zero => some (limitAt b.n 0 0)
  | .acc t j => some (limitAt b.n t.val (j + 1))
  | .fold _ => some fun _ => b.n

/-- The bytes of C folded after a micro-step of REFCONV. -/
def RefPos.foldedAfter : RefPos → Nat
  | .zero => 0
  | .acc _ _ => 0
  | .fold i => i + 1

/-- The products of each term that R holds after a micro-step of VECCONV. -/
def VecPos.productsAfter (b : Build) : VecPos → Option (Fin 20 → Nat)
  | .base _ => none
  | .zero => some (limitAt b.n 0 0)
  | .pos i j => some (limitAt b.n (posTerm i).val (b.l * j + b.l))
  | .neg i j => some (limitAt b.n (negTerm i).val (b.l * j + b.l))
  | .fold _ => some fun _ => b.n

/-- The bytes of C folded after a micro-step of VECCONV. -/
def VecPos.foldedAfter (b : Build) : VecPos → Nat
  | .base _ => 0
  | .zero => 0
  | .pos _ _ => 0
  | .neg _ _ => 0
  | .fold j => b.l * j + b.l

/-- The last product of a term is where the next term begins, and after the last term all products are in. -/
theorem advanceRef_products {p : RefPos} {s : State} (hp : Seq.inSequence s.build (.refconv p)) :
    (advanceRef p s).seq.products s.build = p.productsAfter s.build := by
  cases p with
  | zero => rfl
  | acc t j =>
    have hj : j < s.build.n := hp
    rw [advanceRef_acc]
    dsimp only
    split_ifs with hnext hterm
    · rfl
    · have hwhole : j + 1 = s.build.n := by omega
      simp only [Seq.products, RefPos.productsAfter, hwhole, limitAt_next]
    · have hwhole : j + 1 = s.build.n := by omega
      have hlast : t.val + 1 = 20 := by omega
      simp only [Seq.products, RefPos.productsAfter, hwhole, limitAt_next, hlast, limitAt_end]
  | fold i =>
    rw [advanceRef_fold]
    dsimp only
    split_ifs <;> rfl

theorem advanceRef_folded (p : RefPos) (s : State) : (advanceRef p s).seq.folded s.build ≤ p.foldedAfter := by
  cases p with
  | zero => exact le_refl _
  | acc t j => rw [advanceRef_acc]; dsimp only; split_ifs <;> exact le_refl _
  | fold i =>
    rw [advanceRef_fold]
    dsimp only
    split_ifs with hnext
    · exact le_refl _
    · exact Nat.not_lt.1 hnext

/-- A lane that is not followed by another is the M-th, so the lanes up to it are the N bytes. -/
theorem last_lane {b : Build} (hlanes : b.hasLanes = true) {j : Nat} (hj : j < b.m) (hlast : ¬j + 1 < b.m) :
    b.l * j + b.l = b.n := by
  have hm : j + 1 = b.m := by omega
  rw [← Nat.mul_succ, Nat.succ_eq_add_one, hm, lanes_cover hlanes]

/-- The last window of a term is where the next term begins, and after the last term all products are in. -/
theorem advanceVec_products {p : VecPos} {s : State} (hp : Seq.inSequence s.build (.vecconv p))
    (hlanes : s.build.hasLanes = true) : (advanceVec p s).seq.products s.build = p.productsAfter s.build := by
  cases p with
  | base j => rw [advanceVec_base]; dsimp only; split_ifs <;> rfl
  | zero => rfl
  | pos i j =>
    rw [advanceVec_pos]
    dsimp only
    split_ifs with hnext hterm
    · rfl
    · simp only [Seq.products, VecPos.productsAfter, last_lane hlanes hp hnext, limitAt_next, mul_zero, posTerm]
    · have hlast : i.val + 1 = 10 := by omega
      simp only [Seq.products, VecPos.productsAfter, last_lane hlanes hp hnext, limitAt_next, mul_zero, posTerm, hlast]
      rfl
  | neg i j =>
    rw [advanceVec_neg]
    dsimp only
    split_ifs with hnext hterm
    · rfl
    · simp only [Seq.products, VecPos.productsAfter, last_lane hlanes hp hnext, limitAt_next, mul_zero, negTerm]
      rfl
    · have hlast : 10 + i.val + 1 = 20 := by omega
      simp only [Seq.products, VecPos.productsAfter, last_lane hlanes hp hnext, limitAt_next, negTerm, hlast,
        limitAt_end]
  | fold j => rw [advanceVec_fold]; dsimp only; split_ifs <;> rfl

theorem advanceVec_folded {p : VecPos} {s : State} (hp : Seq.inSequence s.build (.vecconv p))
    (hlanes : s.build.hasLanes = true) : (advanceVec p s).seq.folded s.build ≤ p.foldedAfter s.build := by
  cases p with
  | base j => rw [advanceVec_base]; dsimp only; split_ifs <;> exact le_refl _
  | zero => exact le_refl _
  | pos i j => rw [advanceVec_pos]; dsimp only; split_ifs <;> exact le_refl _
  | neg i j => rw [advanceVec_neg]; dsimp only; split_ifs <;> exact le_refl _
  | fold j =>
    rw [advanceVec_fold]
    dsimp only
    split_ifs with hnext
    · exact le_refl _
    · exact (last_lane hlanes hp hnext).ge

/-! ### Windows of products -/

/-- R, where `lim t` products of each term t of the command `i` issued in `s` have been added. -/
def HoldsSums (i : Instr) (s : State) (lim : Fin 20 → Nat) (mem : Memory) : Prop :=
  ∀ k < 2 * s.build.n, mem.read k = some (BitVec.ofInt 8 (partSum s.expOf (i.sign s) s.coeff lim k))

/-- From `mem` to `mem'` the window of `w` bytes at e + j takes the products of a_j, a_(j+1), …, and the other bytes
stay. -/
structure AddsWindow (e : Nat) (sg : Int) (a : Nat → Int) (j w : Nat) (mem mem' : Memory) : Prop where
  inside : ∀ m < w, ∀ x, mem.read (e + j + m) = some x → mem'.read (e + j + m) = some (add8 x (sg * a (j + m)))
  outside : ∀ k, k < e + j ∨ e + j + w ≤ k → mem'.read k = mem.read k

theorem add8_ofInt (x d : Int) : add8 (BitVec.ofInt 8 x) d = BitVec.ofInt 8 (x + d) := ofInt8_add_toNat x d

theorem sub8_ofInt (x y : Int) : sub8 (BitVec.ofInt 8 x) (BitVec.ofInt 8 y) = BitVec.ofInt 8 (x - y) :=
  ofInt8_sub_toNat x y

/-- A window of a term's next `w` products takes R from `j` of them to `j + w`. -/
theorem HoldsSums.addWindow {i : Instr} {s : State} {t : Fin 20} {j w : Nat} {mem mem' : Memory}
    (h : HoldsSums i s (limitAt s.build.n t.val j) mem)
    (hw : AddsWindow (s.expOf t) (i.sign s t) s.coeff j w mem mem') :
    HoldsSums i s (limitAt s.build.n t.val (j + w)) mem' := by
  intro k hk
  rw [partSum_step]
  by_cases hin : s.expOf t + j ≤ k ∧ k < s.expOf t + j + w
  · obtain ⟨m, rfl⟩ := Nat.exists_eq_add_of_le hin.1
    have hindex : s.expOf t + j + m - s.expOf t = j + m := by omega
    rw [if_pos hin, hw.inside m (by omega) _ (h _ hk), add8_ofInt, hindex]
  · rw [if_neg hin, add_zero, hw.outside k (by omega), h k hk]

theorem holdsSums_zeroed (i : Instr) (s : State) :
    HoldsSums i s (limitAt s.build.n 0 0) (Memory.zeroed (2 * s.build.n)) := by
  intro k hk
  rw [Memory.read_zeroed, if_pos hk, limitAt_start, partSum_none]
  rfl

theorem HoldsSums.scratch {i : Instr} {s : State} {mem : Memory} (h : HoldsSums i s (fun _ => s.build.n) mem) :
    ∀ k < 2 * s.build.n, mem.read k = some (BitVec.ofInt 8 (s.scratchOf i k)) := h

/-- One fold of a whole R gives R84's byte of C. -/
theorem HoldsSums.fold {i : Instr} {s : State} {mem : Memory} (h : HoldsSums i s (fun _ => s.build.n) mem)
    (he : s.expsInRange) {k : Nat} (hk : k < s.build.n) {x y : Byte} (hx : mem.read k = some x)
    (hy : mem.read (k + s.build.n) = some y) : sub8 x y = BitVec.ofInt 8 (s.resultOf i k) := by
  rw [h.scratch k (by omega)] at hx
  rw [h.scratch _ (by omega)] at hy
  cases hx
  cases hy
  rw [sub8_ofInt, State.scratchOf, State.scratchOf, scratchSum_fold _ _ he hk, State.resultOf]

/-! ### The window of each accumulating micro-step (R72, R80, R81) -/

theorem coeff_of_read {s : State} {j : Nat} {a : Byte} (h : s.memA.read j = some a) : s.coeff j = sext8 a := by
  rw [State.coeff, h, Option.getD_some]

theorem refAcc_addsWindow {t : Fin 20} {j : Nat} {s s' : State} (h : refAcc t j s = .ok s') :
    AddsWindow (s.expOf t) (s.signOf t) s.coeff j 1 s.memR s'.memR := by
  obtain ⟨a, x, -, ha, -, hx, rfl⟩ := refAcc_ok.1 h
  rw [Nat.add_comm] at hx
  refine ⟨fun m hm y hy => ?inside, fun k hk => ?outside⟩
  case inside =>
    obtain rfl : m = 0 := by omega
    obtain rfl : x = y := Option.some.inj (hx.symm.trans hy)
    rw [Nat.add_zero, Nat.add_zero, coeff_of_read ha, Nat.add_comm]
    exact Memory.read_write_same _ _ _
  case outside => exact Memory.read_write_other _ _ (by omega)

/-- A lane that holds A's bytes, byte by byte. -/
theorem State.HoldsLanes.exists_lane {s : State} {count j : Nat} (h : s.HoldsLanes count) (hj : j < count) :
    ∃ lane, s.base[j]? = some lane ∧ lane.length = s.build.l ∧
      ∀ k < s.build.l, lane[k]? = s.memA.read (s.build.l * j + k) := by
  obtain ⟨lane, hlane, heq⟩ := Option.map_eq_some_iff.1 (h j hj)
  have hlen : lane.length = s.build.l := by simpa using congrArg List.length heq
  refine ⟨lane, hlane, hlen, fun k hk => ?_⟩
  have hread := congrArg (·[k]?) heq
  have hget : lane[k]? = some lane[k] := List.getElem?_eq_getElem (hlen ▸ hk)
  simpa only [List.getElem?_map, Memory.getElem?_readBytes, if_pos hk, hget, Option.map_some, Option.some.injEq]
    using hread

/-- Byte m of a lane of BASE that holds A's lane j is the coefficient at L·j + m. -/
theorem State.HoldsLanes.exists_byte {s : State} {count j m : Nat} (h : s.HoldsLanes count) (hj : j < count)
    {lane : List Byte} (hb : s.base[j]? = some lane) (hm : m < s.build.l) :
    ∃ y, lane[m]? = some y ∧ sext8 y = s.coeff (s.build.l * j + m) := by
  obtain ⟨lane', hb', hlen, hread⟩ := h.exists_lane hj
  obtain rfl : lane = lane' := Option.some.inj (hb.symm.trans hb')
  have hget : lane[m]? = some lane[m] := List.getElem?_eq_getElem (hlen ▸ hm)
  exact ⟨_, hget, (coeff_of_read ((hread m hm).symm.trans hget)).symm⟩

theorem vecAcc_addsWindow {op : List Byte → List Byte → List Byte} {sg : Int} (hop : AddsLanes op sg) {t : Fin 20}
    {j : Nat} {s s' : State} (h : vecAcc op t j s = .ok s') (hl : s.LaneShape) {count : Nat}
    (hheld : s.HoldsLanes count) (hj : j < count) :
    AddsWindow (s.expOf t) sg s.coeff (s.build.l * j) s.build.l s.memR s'.memR := by
  obtain ⟨win, lane, hw, hb, -, rfl⟩ := vecAcc_ok.1 h
  have hlen : (op win lane).length = s.build.l := by
    rw [hop.length, loadWindow_length hw, hl.baseWidth lane (List.mem_of_getElem? hb), min_self]
  obtain ⟨hinside, houtside⟩ := read_writeBytes_window s.memR (k := s.build.l * j + s.expOf t) hlen
  have hcomm : s.expOf t + s.build.l * j = s.build.l * j + s.expOf t := Nat.add_comm _ _
  refine ⟨fun m hm x hx => ?inside, fun k hk => houtside k (hcomm ▸ hk)⟩
  case inside =>
    obtain ⟨y, hy, hcoeff⟩ := hheld.exists_byte hj hb hm
    rw [hcomm] at hx ⊢
    rw [loadWindow_getElem hw hm] at hx
    rw [hinside m hm, hop.getElem? _ _ m x y hx hy, hcoeff]

/-- Each half of the table has its lane operation (R52, R76). -/
theorem addsLanes_posTerm (i : Fin 10) : AddsLanes laneAdd (positionSign (posTerm i)) := by
  rw [positionSign, posTerm, if_pos i.isLt]
  exact addsLanes_laneAdd

theorem addsLanes_negTerm (i : Fin 10) : AddsLanes laneSub (positionSign (negTerm i)) := by
  rw [positionSign, negTerm, if_neg (by simp)]
  exact addsLanes_laneSub

/-! ### A command on its way -/

/-- The command a running sequencer is in. -/
def Seq.command : Seq → Option Instr
  | .idle => none
  | .refconv _ => some .refconv
  | .vecconv _ => some .vecconv

/-- `v` is on the way of the command `i` issued in `s`. -/
structure OnTheWay (i : Instr) (s v : State) : Prop where
  same : SameOperands s v
  command : ∀ c, v.seq.command = some c → c = i
  sums : ∀ lim, v.seq.products s.build = some lim → HoldsSums i s lim v.memR
  result : ∀ k < v.seq.folded s.build, v.memC.read k = some (BitVec.ofInt 8 (s.resultOf i k))
  refLanes : i = .refconv → v.base = s.base ∧ v.w = s.w ∧ v.u = s.u
  vecLanes : i = .vecconv → v.seq = .idle → v.HoldsLanes s.build.m

theorem onTheWay_accept (i : Instr) (s : State) : OnTheWay i s (accept i.first s) where
  same := by constructor <;> rfl
  command c hc := by cases i <;> cases hc <;> rfl
  sums lim hlim := by cases i <;> cases hlim
  result k hk := by cases i <;> cases hk
  refLanes _ := ⟨rfl, rfl, rfl⟩
  vecLanes _ hidle := absurd hidle (first_ne_idle i)

theorem coeff_eq_of_same {s v : State} (h : SameOperands s v) : v.coeff = s.coeff := by
  funext j; rw [State.coeff, State.coeff, h.memA]

theorem expOf_eq_of_same {s v : State} (h : SameOperands s v) : v.expOf = s.expOf := by
  funext t; rw [State.expOf, State.expOf, h.term]

theorem signOf_eq_of_same {s v : State} (h : SameOperands s v) : v.signOf = s.signOf := by
  funext t; rw [State.signOf, State.signOf, h.term]

section
variable {s v v' : State}

/-- R after a micro-step of REFCONV. -/
theorem OnTheWay.refSums {p : RefPos} (h : OnTheWay .refconv s v) (hs : v.seq = .refconv p)
    (hm : refMicro p v = .ok v') {lim : Fin 20 → Nat} (hlim : p.productsAfter s.build = some lim) :
    HoldsSums .refconv s lim v'.memR := by
  have hsums := h.sums
  rw [hs] at hsums
  cases p with
  | zero =>
    cases hm
    cases hlim
    show HoldsSums _ s _ (Memory.zeroed (2 * v.build.n))
    rw [h.same.build]
    exact holdsSums_zeroed _ s
  | acc t j =>
    cases hlim
    have hwin := refAcc_addsWindow hm
    rw [expOf_eq_of_same h.same, signOf_eq_of_same h.same, coeff_eq_of_same h.same] at hwin
    exact (hsums _ rfl).addWindow hwin
  | fold i =>
    obtain ⟨x, y, -, -, -, rfl⟩ := refFold_ok.1 hm
    exact hsums lim hlim

/-- C after a micro-step of REFCONV. -/
theorem OnTheWay.refResult {p : RefPos} (h : OnTheWay .refconv s v) (he : s.expsInRange) (hs : v.seq = .refconv p)
    (hm : refMicro p v = .ok v') :
    ∀ k < p.foldedAfter, v'.memC.read k = some (BitVec.ofInt 8 (s.resultOf .refconv k)) := by
  intro k hk
  cases p with
  | zero => cases hk
  | acc t j => cases hk
  | fold i =>
    have hsums := h.sums
    have hresult := h.result
    rw [hs] at hsums hresult
    obtain ⟨x, y, hi, hx, hy, rfl⟩ := refFold_ok.1 hm
    rw [h.same.build] at hi hy
    by_cases hki : k = i
    · subst hki
      rw [Memory.read_write_same, (hsums _ rfl).fold he hi hx hy]
    · rw [Memory.read_write_other _ _ hki]
      have hk' : k < i + 1 := hk
      exact hresult k (by show k < i; omega)

/-- R after a window update whose lane operation carries the term's sign by position. -/
theorem OnTheWay.windowSums (h : OnTheWay .vecconv s v) (hl : v.LaneShape)
    {op : List Byte → List Byte → List Byte} {t : Fin 20} (hop : AddsLanes op (positionSign t)) {j count : Nat}
    (hheld : v.HoldsLanes count) (hj : j < count) (hm : vecAcc op t j v = .ok v')
    (hsums : HoldsSums .vecconv s (limitAt s.build.n t.val (s.build.l * j)) v.memR) :
    HoldsSums .vecconv s (limitAt s.build.n t.val (s.build.l * j + s.build.l)) v'.memR := by
  have hwin := vecAcc_addsWindow hop hm hl hheld hj
  rw [expOf_eq_of_same h.same, coeff_eq_of_same h.same, h.same.build] at hwin
  exact hsums.addWindow hwin

/-- R after a micro-step of VECCONV. -/
theorem OnTheWay.vecSums {p : VecPos} (h : OnTheWay .vecconv s v) (hv : v.Inv) (hs : v.seq = .vecconv p)
    (hm : vecMicro p v = .ok v') {lim : Fin 20 → Nat} (hlim : p.productsAfter s.build = some lim) :
    HoldsSums .vecconv s lim v'.memR := by
  have hr := hv.running (by rw [hs]; simp)
  have hseq := hr.inSequence
  have hheld := hr.lanes
  have hsums := h.sums
  rw [hs] at hsums hseq hheld
  cases p with
  | base j => cases hlim
  | zero =>
    cases hm
    cases hlim
    show HoldsSums _ s _ (Memory.zeroed (2 * v.build.n))
    rw [h.same.build]
    exact holdsSums_zeroed _ s
  | pos i j =>
    cases hlim
    exact h.windowSums hv.lanes (addsLanes_posTerm i) hheld hseq hm (hsums _ rfl)
  | neg i j =>
    cases hlim
    exact h.windowSums hv.lanes (addsLanes_negTerm i) hheld hseq hm (hsums _ rfl)
  | fold j =>
    obtain ⟨lower, upper, -, -, -, rfl⟩ := vecFold_ok.1 hm
    exact hsums lim hlim

/-- A lane difference of two windows of R is `sub8` of each pair of bytes. -/
theorem vecFold_reads {j : Nat} (h : vecFold j v = .ok v') :
    (∀ m < v.build.l, ∀ x y, v.memR.read (v.build.l * j + m) = some x →
      v.memR.read (v.build.l * j + m + v.build.n) = some y →
      v'.memC.read (v.build.l * j + m) = some (sub8 x y)) ∧
    ∀ k < v.build.l * j, v'.memC.read k = v.memC.read k := by
  obtain ⟨lower, upper, hl, hu, -, rfl⟩ := vecFold_ok.1 h
  have hlen : (laneSub lower upper).length = v.build.l := by simp [loadWindow_length hl, loadWindow_length hu]
  obtain ⟨hinside, houtside⟩ := read_writeBytes_window v.memC (k := v.build.l * j) hlen
  refine ⟨fun m hm x y hx hy => ?_, fun k hk => houtside k (.inl hk)⟩
  rw [Nat.add_right_comm, loadWindow_getElem hu hm] at hy
  rw [loadWindow_getElem hl hm] at hx
  rw [hinside m hm, getElem?_laneSub hx hy]

/-- C after a micro-step of VECCONV. -/
theorem OnTheWay.vecResult {p : VecPos} (h : OnTheWay .vecconv s v) (hv : v.Inv) (he : s.expsInRange)
    (hs : v.seq = .vecconv p) (hm : vecMicro p v = .ok v') :
    ∀ k < p.foldedAfter s.build, v'.memC.read k = some (BitVec.ofInt 8 (s.resultOf .vecconv k)) := by
  intro k hk
  cases p with
  | base j => cases hk
  | zero => cases hk
  | pos i j => cases hk
  | neg i j => cases hk
  | fold j =>
    have hr := hv.running (by rw [hs]; simp)
    have hin : v.build.l * j + v.build.l ≤ v.build.n :=
      lane_within (hr.hasLanes (by rw [hs]; rfl)) (by have := hr.inSequence; rwa [hs] at this)
    have hsums := h.sums
    have hresult := h.result
    rw [hs] at hsums hresult
    obtain ⟨hinside, hbelow⟩ := vecFold_reads hm
    rw [h.same.build] at hinside hbelow hin
    have hk' : k < s.build.l * j + s.build.l := hk
    by_cases hlow : k < s.build.l * j
    · rw [hbelow k hlow]
      exact hresult k hlow
    · obtain ⟨m, rfl⟩ := Nat.exists_eq_add_of_le (Nat.not_lt.1 hlow)
      have hx := (hsums _ rfl).scratch (s.build.l * j + m) (by omega)
      have hy := (hsums _ rfl).scratch (s.build.l * j + m + s.build.n) (by omega)
      rw [hinside m (by omega) _ _ hx hy, (hsums _ rfl).fold he (by omega) hx hy]

end

/-- The sequencer's move leaves the memories and the vector registers. -/
theorem advanceRef_stores (p : RefPos) (s : State) :
    (advanceRef p s).memR = s.memR ∧ (advanceRef p s).memC = s.memC := by
  unfold advanceRef; split <;> exact ⟨rfl, rfl⟩

theorem advanceVec_stores (p : VecPos) (s : State) :
    (advanceVec p s).memR = s.memR ∧ (advanceVec p s).memC = s.memC ∧ (advanceVec p s).base = s.base := by
  unfold advanceVec; split <;> exact ⟨rfl, rfl, rfl⟩

theorem advanceRef_command (p : RefPos) (s : State) :
    ∀ c, (advanceRef p s).seq.command = some c → c = .refconv := by
  intro c hc
  unfold advanceRef at hc
  split at hc <;> cases hc
  rfl

theorem advanceVec_command (p : VecPos) (s : State) :
    ∀ c, (advanceVec p s).seq.command = some c → c = .vecconv := by
  intro c hc
  unfold advanceVec at hc
  split at hc <;> cases hc
  rfl

theorem OnTheWay.refStep {s v v' : State} {p : RefPos} (h : OnTheWay .refconv s v) (hv : v.Inv) (he : s.expsInRange)
    (hs : v.seq = .refconv p) (hm : refMicro p v = .ok v') : OnTheWay .refconv s (advanceRef p v') := by
  have hseq := (hv.running (by rw [hs]; simp)).inSequence
  have hsame := h.same.trans (refMicro_same hm).1
  obtain ⟨hR, hC⟩ := advanceRef_stores p v'
  obtain ⟨hbase, hw, hu⟩ := refMicro_lanes hm
  obtain ⟨hbase', hw', hu'⟩ := advanceRef_lanes p v'
  obtain ⟨hbase'', hw'', hu''⟩ := h.refLanes rfl
  rw [hs, ← (refMicro_same hm).1.build] at hseq
  exact
    { same := hsame.trans (advanceRef_same p v')
      command := advanceRef_command p v'
      sums := fun lim hlim => by
        rw [← hsame.build, advanceRef_products hseq, hsame.build] at hlim
        rw [hR]; exact h.refSums hs hm hlim
      result := fun k hk => by
        rw [← hsame.build] at hk
        rw [hC]; exact h.refResult he hs hm k (lt_of_lt_of_le hk (advanceRef_folded p v'))
      refLanes := fun _ => ⟨hbase'.trans (hbase.trans hbase''), hw'.trans (hw.trans hw''), hu'.trans (hu.trans hu'')⟩
      vecLanes := fun hne => by cases hne }

theorem OnTheWay.vecStep {s v v' : State} {p : VecPos} (h : OnTheWay .vecconv s v) (hv : v.Inv) (he : s.expsInRange)
    (hs : v.seq = .vecconv p) (hm : vecMicro p v = .ok v') : OnTheWay .vecconv s (advanceVec p v') := by
  have hr := hv.running (by rw [hs]; simp)
  have hlanes : v.build.hasLanes = true := hr.hasLanes (by rw [hs]; rfl)
  have hseq := hr.inSequence
  have hheld := hr.lanes
  have hcount : v.base.length = v.build.m := by rw [hv.lanes.baseCount, if_pos hlanes]
  have hmicro := (vecMicro_same hm).1
  have hsame := h.same.trans hmicro
  have hmove := advanceVec_same p v'
  obtain ⟨hR, hC, hbase⟩ := advanceVec_stores p v'
  rw [hs] at hseq hheld
  have hloaded := vecMicro_holdsLanes hm hseq hcount hheld
  rw [← hmicro.build] at hseq hlanes
  exact
    { same := hsame.trans hmove
      command := advanceVec_command p v'
      sums := fun lim hlim => by
        rw [← hsame.build, advanceVec_products hseq hlanes, hsame.build] at hlim
        rw [hR]; exact h.vecSums hv hs hm hlim
      result := fun k hk => by
        rw [← hsame.build] at hk
        have hk' := lt_of_lt_of_le hk (advanceVec_folded hseq hlanes)
        rw [hsame.build] at hk'
        rw [hC]; exact h.vecResult hv he hs hm k hk'
      refLanes := fun hne => by cases hne
      vecLanes := fun _ hidle j hj => by
        rw [hbase, hmove.memA, hmove.build]
        refine hloaded j ?_
        rw [h.same.build]
        cases p with
        | base k =>
          rw [advanceVec_base] at hidle
          dsimp only at hidle
          split_ifs at hidle
        | zero | pos | neg | fold => exact hj }

/-- Every micro-step of a command keeps it on its way. -/
theorem OnTheWay.engineStep {i : Instr} {s v t : State} (he : s.expsInRange) (hv : v.Inv) (hrun : v.seq ≠ .idle)
    (h : OnTheWay i s v) (ht : engineStep v = .next t) : OnTheWay i s t := by
  rcases engineStep_next ht with ⟨hs, -⟩ | ⟨p, v', hs, hm, rfl⟩ | ⟨p, v', hs, hm, rfl⟩
  · exact absurd hs hrun
  · obtain rfl := h.command .refconv (by rw [hs]; rfl)
    exact h.refStep hv he hs hm
  · obtain rfl := h.command .vecconv (by rw [hs]; rfl)
    exact h.vecStep hv he hs hm

/-! ### The closed form -/

/-- A command issued in a ready state completes, and every micro-step kept it on its way. -/
theorem State.Ready.exists_result {i : Instr} {s : State} (h : s.Ready i) :
    ∃ u, Completes i s u ∧ HoldsResult i s u ∧ OnTheWay i s u ∧ u.seq = .idle ∧ u.done = true := by
  obtain ⟨u, hu, hway⟩ := h.exists_run (fun v t hv hrun hway ht => hway.engineStep h.exps hv hrun ht)
    (onTheWay_accept i s)
  have hsums := hway.sums
  have hresult := hway.result
  rw [hu.idle] at hsums hresult
  exact ⟨u, h.completes hu, ⟨(hsums _ rfl).scratch, hresult⟩, hway, hu.idle, hu.done (first_ne_idle i)⟩

/-- Settles O47: REFCONV's micro-steps keep BASE, W and U, and with the operands the error record. -/
theorem refconvClosedForm : Obligations.RefconvClosedForm := by
  unfold Obligations.RefconvClosedForm
  intro s h
  obtain ⟨u, hcompletes, hresult, hway, hidle, hdone⟩ := h.exists_result
  obtain ⟨hbase, hw, hu⟩ := hway.refLanes rfl
  obtain ⟨hbuild, herr, hcode, hinfo, hterm, hA, hin, hresp, hfree⟩ := hway.same
  exact ⟨u, hcompletes, hresult, hA, hterm, hbase, hw, hu, hidle, hdone, herr, hcode, hinfo, hbuild, hin, hresp, hfree⟩

/-- Settles O48: with every lane loaded before the completing fold. -/
theorem vecconvClosedForm : Obligations.VecconvClosedForm := by
  unfold Obligations.VecconvClosedForm
  intro s h
  obtain ⟨u, hcompletes, hresult, hway, hidle, hdone⟩ := h.exists_result
  obtain ⟨hbuild, herr, hcode, hinfo, hterm, hA, hin, hresp, hfree⟩ := hway.same
  refine ⟨u, hcompletes, hresult, hA, hterm, fun j hj => ?lane, hidle, hdone, herr, hcode, hinfo, hbuild, hin, hresp,
    hfree⟩
  case lane =>
    have hlane := (hway.vecLanes rfl hidle).exists_lane hj
    rwa [hbuild, hA] at hlane

end Sys2Proof.Machine
end

