-- ==== Sys2Proof/Proofs/ResultAlgebra.lean ====
section
/-! PROOF. What follows from the closed form (R84): the two engines agree (R88), the order of terms does not matter
(R91), results are linear (R89), small ones are exact (R86, R92), and C is a product in Z[x]/(x^N + 1) (R85). -/

namespace Sys2Proof.Machine

/-! ### Ready states with another table -/

theorem State.Ready.withTable {i i' : Instr} {s : State} (h : s.Ready i) {tbl : Vector Term 20}
    (hsup : i'.supported s.build = true) (he : ∀ t : Fin 20, tbl[t].exp.toNat < s.build.n) :
    State.Ready i' { s with term := tbl } where
  inv := h.inv.withTable h.idle tbl
  idle := h.idle
  exps := he
  aWritten := h.aWritten
  supported := hsup

/-- Two commands whose closed forms agree leave the same R and C. -/
theorem exists_same_result {i i' : Instr} {s s' : State} (h : s.Ready i) (h' : s'.Ready i')
    (hb : s'.build = s.build) (hscratch : ∀ k, s'.scratchOf i' k = s.scratchOf i k)
    (hresult : ∀ k, s'.resultOf i' k = s.resultOf i k) :
    ∃ u v, Completes i s u ∧ Completes i' s' v ∧
      (∀ k < 2 * s.build.n, u.memR.read k = v.memR.read k) ∧ (∀ k < s.build.n, u.memC.read k = v.memC.read k) := by
  obtain ⟨u, hu, hru, -⟩ := h.exists_result
  obtain ⟨v, hv, hrv, -⟩ := h'.exists_result
  exact ⟨u, v, hu, hv,
    fun k hk => by rw [hru.scratch k hk, hrv.scratch k (hb ▸ hk), hscratch],
    fun k hk => by rw [hru.result k hk, hrv.result k (hb ▸ hk), hresult]⟩

/-! ### Canonical tables (R88) -/

/-- On a table with the canonical SIGN bits REFCONV's signs are those by position (R52). -/
theorem signOf_of_canonical {s : State} {t : Fin 20} (h : s.term[t].sign = decide (10 ≤ t.val)) :
    s.signOf t = positionSign t := by
  simp only [State.signOf, positionSign, h, decide_eq_true_eq]
  split_ifs <;> omega

theorem table_eq_of_fields {tbl tbl' : Vector Term 20}
    (h : ∀ t : Fin 20, tbl[t].exp = tbl'[t].exp ∧ tbl[t].sign = tbl'[t].sign) : tbl = tbl' := by
  refine Vector.ext fun k hk => ?_
  obtain ⟨hexp, hsign⟩ := h ⟨k, hk⟩
  have heq (x y : Term) (he : x.exp = y.exp) (hs : x.sign = y.sign) : x = y := by
    cases x; cases y; simp_all
  exact heq _ _ hexp hsign

/-- Settles O49: the two closed forms differ in the signs only, and there by nothing. -/
theorem enginesAgreeOnCanonicalTables : Obligations.EnginesAgreeOnCanonicalTables := by
  unfold Obligations.EnginesAgreeOnCanonicalTables
  intro s tbl h htbl
  refine ⟨fun hcanon => table_eq_of_fields fun t => ⟨(htbl t).1, (htbl t).2.trans (hcanon t).symm⟩, ?_⟩
  have hexp : State.expOf { s with term := tbl } = s.expOf := funext fun t => congrArg _ (htbl t).1
  have hsign : Instr.sign .refconv { s with term := tbl } = Instr.sign .vecconv s :=
    funext fun t => signOf_of_canonical (htbl t).2
  have hready : State.Ready .refconv { s with term := tbl } := h.withTable rfl fun t => by
    rw [(htbl t).1]; exact h.exps t
  refine exists_same_result h hready rfl (fun k => ?_) fun k => ?_
  · simp only [State.scratchOf, hexp, hsign]; rfl
  · simp only [State.resultOf, hexp, hsign]; rfl

/-! ### The order of terms (R91) -/

/-- A permutation that keeps each half keeps the signs by position. -/
theorem positionSign_perm {σ : Equiv.Perm (Fin 20)} (h : ∀ t, (σ t).val < 10 ↔ t.val < 10) (t : Fin 20) :
    positionSign (σ t) = positionSign t := by
  simp only [positionSign, h t]

/-- Settles O50: both sums of R84 run over the same terms in another order. -/
theorem resultIgnoresTermOrder : Obligations.ResultIgnoresTermOrder := by
  unfold Obligations.ResultIgnoresTermOrder
  intro i s tbl σ h htbl hhalf
  have hexp : ∀ t, State.expOf { s with term := tbl } t = s.expOf (σ t) := fun t => by
    simp only [State.expOf, htbl t]
  have hsign : ∀ t, i.sign { s with term := tbl } t = i.sign s (σ t) := fun t => by
    cases i with
    | refconv => simp only [Instr.sign, State.signOf, htbl t]
    | vecconv => exact (positionSign_perm (hhalf rfl) t).symm
  have hready : State.Ready i { s with term := tbl } := h.withTable h.supported fun t => by
    rw [htbl t]; exact h.exps (σ t)
  refine exists_same_result h hready rfl (fun k => ?scratch) fun k => ?result
  case scratch =>
    simp only [State.scratchOf, scratchSum, hexp, hsign]
    exact Equiv.sum_comp σ fun t => if s.expOf t ≤ k ∧ k - s.expOf t < s.build.n then
      i.sign s t * s.coeff (k - s.expOf t) else 0
  case result =>
    simp only [State.resultOf, resultSum, hexp, hsign]
    exact Equiv.sum_comp σ fun t => contrib s.build.n s.coeff (s.expOf t) (i.sign s t) k

/-! ### Bounds (R86, R92) -/

/-- Twenty terms, each in [−B, B]. -/
theorem abs_sum_terms_le {f : Fin 20 → Int} {B : Int} (h : ∀ t, |f t| ≤ B) : |∑ t, f t| ≤ 20 * B :=
  calc |∑ t, f t| ≤ ∑ t, |f t| := Finset.abs_sum_le_sum_abs _ _
    _ ≤ Finset.univ.card • B := Finset.sum_le_card_nsmul _ _ _ fun t _ => h t
    _ = 20 * B := by simp

theorem abs_sign_mul {sg : Int} (hs : sg = 1 ∨ sg = -1) (x : Int) : |sg * x| = |x| := by
  obtain rfl | rfl := hs <;> simp

theorem abs_scratchOf_le {s : State} {B : Int} (hB : 0 ≤ B) (h : ∀ j < s.build.n, |s.coeff j| ≤ B) (i : Instr)
    (k : Nat) : |s.scratchOf i k| ≤ 20 * B := by
  unfold State.scratchOf scratchSum
  refine abs_sum_terms_le fun t => ?_
  split_ifs with hin
  · rw [abs_sign_mul (sign_eq i s t)]
    exact h _ hin.2
  · simpa using hB

theorem abs_resultOf_le {s : State} {B : Int} (h : ∀ j < s.build.n, |s.coeff j| ≤ B) (he : s.expsInRange) (i : Instr)
    {k : Nat} (hk : k < s.build.n) : |s.resultOf i k| ≤ 20 * B := by
  unfold State.resultOf resultSum
  refine abs_sum_terms_le fun t => ?_
  have := he t
  unfold contrib
  split_ifs with hle
  · rw [abs_sign_mul (sign_eq i s t)]
    exact h _ (by omega)
  · rw [neg_mul, abs_neg, abs_sign_mul (sign_eq i s t)]
    exact h _ (by omega)

/-- Settles O51: twenty products of at most 6 stay below 128, so each byte read signed is the sum itself. -/
theorem smallCoefficientsAreExact : Obligations.SmallCoefficientsAreExact := by
  unfold Obligations.SmallCoefficientsAreExact
  intro i s h
  obtain ⟨u, hu, hr, -⟩ := h.exists_result
  refine ⟨fun hsmall => ⟨u, hu, fun k hk => ?exact⟩, fun hbinary => ⟨u, hu, ?binary⟩⟩
  case exact =>
    have hbound := abs_le.1 (abs_resultOf_le (B := 6) (fun j hj => abs_le.2 (hsmall j hj)) h.exps i hk)
    have hread : (BitVec.ofInt 8 (s.resultOf i k)).toInt = s.resultOf i k := ofInt8_toInt (by omega)
    exact ⟨_, hr.result k hk, hread, by omega, by omega⟩
  case binary =>
    have hone : ∀ j < s.build.n, |s.coeff j| ≤ 1 := fun j hj => by
      obtain h0 | h1 := hbinary j hj <;> simp [*]
    refine ⟨fun k hk => ⟨_, hr.scratch k hk, ?_⟩, fun k hk => ⟨_, hr.result k hk, ?_⟩⟩
    · have hbound := abs_le.1 (abs_scratchOf_le (by decide) hone i k)
      rw [ofInt8_toInt (by omega)]
      omega
    · have hbound := abs_le.1 (abs_resultOf_le hone h.exps i hk)
      rw [ofInt8_toInt (by omega)]
      omega

/-- Settles O52: with every coefficient 0 both sums are bounded by 0. -/
theorem zeroOperandGivesZero : Obligations.ZeroOperandGivesZero := by
  unfold Obligations.ZeroOperandGivesZero
  intro i s h hzero
  have hcoeff : ∀ j < s.build.n, |s.coeff j| ≤ 0 := fun j hj => by
    rw [coeff_of_read (hzero j hj)]; decide
  obtain ⟨u, hu, hr, -⟩ := h.exists_result
  refine ⟨u, hu, fun k hk => ?_, fun k hk => ?_⟩
  · rw [hr.scratch k hk, abs_nonpos_iff.1 (abs_scratchOf_le le_rfl hcoeff i k)]; rfl
  · rw [hr.result k hk, abs_nonpos_iff.1 (abs_resultOf_le hcoeff h.exps i hk)]; rfl

/-! ### Linearity (R89) -/

theorem ofInt8_sub (x y : Int) : BitVec.ofInt 8 x - BitVec.ofInt 8 y = BitVec.ofInt 8 (x - y) := by
  rw [Int.sub_eq_add_neg, BitVec.ofInt_add, BitVec.ofInt_neg, BitVec.sub_eq_add_neg]

/-- Two tables that agree but at term t have sums that differ by that term's contributions. -/
theorem resultSum_sub_of_eq_off {n : Nat} {a : Nat → Int} {e e' : Fin 20 → Nat} {sg sg' : Fin 20 → Int} {t : Fin 20}
    (he : ∀ t' ≠ t, e' t' = e t') (hs : ∀ t' ≠ t, sg' t' = sg t') (k : Nat) :
    resultSum n e sg a k - resultSum n e' sg' a k = contrib n a (e t) (sg t) k - contrib n a (e' t) (sg' t) k := by
  unfold resultSum
  rw [← Finset.sum_sub_distrib]
  refine Finset.sum_eq_single t (fun t' _ hne => ?_) (fun hno => absurd (Finset.mem_univ t) hno)
  rw [he t' hne, hs t' hne, sub_self]

theorem table_set_self (tbl : Vector Term 20) (t : Fin 20) (x : Term) : (tbl.set t x)[t] = x := by simp

theorem table_set_other (tbl : Vector Term 20) {t t' : Fin 20} (h : t' ≠ t) (x : Term) :
    (tbl.set t x)[t'] = tbl[t'] := by
  have : t.val ≠ t'.val := fun heq => h (Fin.ext heq.symm)
  simp [this]

/-- Settles O53: by the closed forms, whose sums differ at one term. -/
theorem resultIsLinearInTheTerms : Obligations.ResultIsLinearInTheTerms := by
  unfold Obligations.ResultIsLinearInTheTerms
  intro i s t x h hx
  have hexp : ∀ t' ≠ t, State.expOf { s with term := s.term.set t x } t' = s.expOf t' := fun t' hne => by
    simp only [State.expOf, table_set_other s.term hne]
  have hexpt : State.expOf { s with term := s.term.set t x } t = x.exp.toNat := by
    simp only [State.expOf, table_set_self]
  have hsign : ∀ t' ≠ t, i.sign { s with term := s.term.set t x } t' = i.sign s t' := fun t' hne => by
    cases i with
    | refconv => simp only [Instr.sign, State.signOf, table_set_other s.term hne]
    | vecconv => rfl
  have hready : State.Ready i { s with term := s.term.set t x } := h.withTable h.supported fun t' => by
    by_cases heq : t' = t
    · subst heq; rw [table_set_self]; exact hx
    · rw [table_set_other s.term heq]; exact h.exps t'
  obtain ⟨u, hu, hru, -⟩ := h.exists_result
  obtain ⟨v, hv, hrv, -⟩ := hready.exists_result
  refine ⟨u, v, hu, hv, fun k hk => ⟨_, _, hru.result k hk, hrv.result k hk, ?_⟩⟩
  rw [ofInt8_sub, ← hexpt]
  exact congrArg _ (resultSum_sub_of_eq_off hexp hsign k)

/-- The byte an integer leaves, as a map of sums. -/
def byteOf : ℤ →+ Byte where
  toFun := BitVec.ofInt 8
  map_zero' := rfl
  map_add' := BitVec.ofInt_add

@[simp] theorem byteOf_apply (z : Int) : byteOf z = BitVec.ofInt 8 z := rfl

theorem byteOf_contrib_add {n : Nat} {a b c : Nat → Int} (h : ∀ j < n, byteOf (a j) = byteOf (b j) + byteOf (c j))
    {e k : Nat} (he : e < n) (hk : k < n) (sg : Int) :
    byteOf (contrib n a e sg k) = byteOf (contrib n b e sg k) + byteOf (contrib n c e sg k) := by
  have hscale (x : Int) {j : Nat} (hj : j < n) : byteOf (x * a j) = byteOf (x * b j) + byteOf (x * c j) := by
    have hsum := h j hj
    simp only [byteOf_apply] at hsum ⊢
    rw [BitVec.ofInt_mul, BitVec.ofInt_mul, BitVec.ofInt_mul, hsum, BitVec.mul_add]
  unfold contrib
  split_ifs with hle
  · exact hscale sg (by omega)
  · exact hscale (-sg) (by omega)

theorem byteOf_resultSum_add {n : Nat} {a b c : Nat → Int} (h : ∀ j < n, byteOf (a j) = byteOf (b j) + byteOf (c j))
    {e : Fin 20 → Nat} (he : ∀ t, e t < n) (sg : Fin 20 → Int) {k : Nat} (hk : k < n) :
    byteOf (resultSum n e sg a k) = byteOf (resultSum n e sg b k) + byteOf (resultSum n e sg c k) := by
  unfold resultSum
  rw [map_sum, map_sum, map_sum, ← Finset.sum_add_distrib]
  exact Finset.sum_congr rfl fun t _ => byteOf_contrib_add h (he t) hk (sg t)

/-- A coefficient leaves the byte it was read from. -/
theorem byteOf_coeff {s : State} {j : Nat} {a : Byte} (h : s.memA.read j = some a) : byteOf (s.coeff j) = a := by
  rw [coeff_of_read h]; exact BitVec.ofInt_toInt

/-- Settles O54: every contribution is linear in the operand's bytes, and `byteOf` keeps sums. -/
theorem resultIsLinearInTheOperand : Obligations.ResultIsLinearInTheOperand := by
  unfold Obligations.ResultIsLinearInTheOperand
  intro i s mem mem' h h₁ h₂ hsum
  have hcoeff : ∀ j < s.build.n, byteOf (s.coeff j) =
      byteOf (State.coeff { s with memA := mem } j) + byteOf (State.coeff { s with memA := mem' } j) := fun j hj => by
    obtain ⟨a, a', ha, ha', hs⟩ := hsum j hj
    rw [byteOf_coeff hs, byteOf_coeff (s := { s with memA := mem }) ha,
      byteOf_coeff (s := { s with memA := mem' }) ha']
  have hsign (m : Memory) : i.sign { s with memA := m } = i.sign s := by cases i <;> rfl
  obtain ⟨u, hu, hru, -⟩ := h.exists_result
  obtain ⟨v, hv, hrv, -⟩ := h₁.exists_result
  obtain ⟨v', hv', hrv', -⟩ := h₂.exists_result
  refine ⟨u, v, v', hu, hv, hv', fun k hk => ⟨_, _, hrv.result k hk, hrv'.result k hk, ?_⟩⟩
  rw [hru.result k hk]
  simp only [State.resultOf, hsign]
  exact congrArg some (byteOf_resultSum_add hcoeff h.exps (i.sign s) hk)

/-! ### The ring product (R85) -/

open Polynomial in
/-- The polynomial of degree below n with the coefficients `f`. -/
noncomputable def polyOf (n : Nat) (f : Nat → Int) : Polynomial ℤ := ∑ j ∈ Finset.range n, C (f j) * X ^ j

theorem coeff_polyOf (n : Nat) (f : Nat → Int) (d : Nat) : (polyOf n f).coeff d = if d < n then f d else 0 := by
  simp [polyOf, Polynomial.coeff_X_pow]

theorem degree_polyOf_lt (n : Nat) (f : Nat → Int) : (polyOf n f).degree < n := by
  refine (Polynomial.degree_lt_iff_coeff_zero _ _).2 fun d hd => ?_
  rw [coeff_polyOf, if_neg (Nat.not_lt.2 hd)]

/-- The unreduced product's coefficients are R84's sums for R. -/
theorem coeff_product (n : Nat) (e : Fin 20 → Nat) (sg : Fin 20 → Int) (a : Nat → Int) (d : Nat) :
    (polyOf n a * ∑ t, Polynomial.C (sg t) * Polynomial.X ^ e t).coeff d = scratchSum n e sg a d := by
  rw [Finset.mul_sum, Polynomial.finsetSum_coeff]
  refine Finset.sum_congr rfl fun t _ => ?_
  rw [← mul_assoc, Polynomial.coeff_mul_X_pow', Polynomial.coeff_mul_C, coeff_polyOf]
  by_cases hle : e t ≤ d <;> by_cases hlt : d - e t < n <;> simp [hle, hlt, mul_comm]

theorem scratchSum_beyond {n : Nat} {e : Fin 20 → Nat} (he : ∀ t, e t < n) (sg : Fin 20 → Int) (a : Nat → Int) {d : Nat}
    (hd : 2 * n ≤ d) : scratchSum n e sg a d = 0 :=
  Finset.sum_eq_zero fun t _ => if_neg (by have := he t; omega)

/-- Folding the upper N coefficients below subtracts them: the difference is a multiple of x^N + 1. -/
theorem product_sub_result {n : Nat} {e : Fin 20 → Nat} (he : ∀ t, e t < n) (sg : Fin 20 → Int) (a : Nat → Int) :
    polyOf n a * (∑ t, Polynomial.C (sg t) * Polynomial.X ^ e t) - polyOf n (resultSum n e sg a) =
      (Polynomial.X ^ n + 1) * polyOf n (fun k => scratchSum n e sg a (k + n)) := by
  ext d
  rw [Polynomial.coeff_sub, coeff_product, add_mul, one_mul, Polynomial.coeff_add, mul_comm (Polynomial.X ^ n),
    Polynomial.coeff_mul_X_pow', coeff_polyOf, coeff_polyOf, coeff_polyOf]
  by_cases hlow : d < n
  · rw [if_pos hlow, if_neg (by omega), if_pos hlow, ← scratchSum_fold sg a he hlow]
    ring
  · rw [if_neg hlow, if_pos (by omega), if_neg hlow, sub_zero, add_zero, Nat.sub_add_cancel (by omega)]
    split_ifs with hhigh
    · rfl
    · exact scratchSum_beyond he sg a (by omega)

/-- Settles O55: with R84's sums for C as the coefficients of the reduced polynomial. -/
theorem resultIsTheRingProduct : Obligations.ResultIsTheRingProduct := by
  unfold Obligations.ResultIsTheRingProduct
  intro i s h
  obtain ⟨u, hu, hr, -⟩ := h.exists_result
  refine ⟨u, polyOf s.build.n (s.resultOf i), hu, degree_polyOf_lt _ _, ⟨_, product_sub_result h.exps _ _⟩,
    fun k hk => ?_⟩
  rw [hr.result k hk, coeff_polyOf, if_pos hk]

end Sys2Proof.Machine
end

