-- ==== Sys2Proof/Proofs/TermWindows.lean ====
section
/-! PROOF. The M windows of one VECCONV term (R83): side by side, they add the whole operand shifted by the term's
exponent, once, and nothing else. -/

namespace Sys2Proof.Machine

theorem engineSteps_succ {k : Nat} {s t u : State} (h : engineSteps k s = .next t) (ht : engineStep t = .next u) :
    engineSteps (k + 1) s = .next u := by
  rw [engineSteps_add k 1 s h, engineSteps, ht]
  rfl

/-- `pos 0`, `pos 1`, … are the micro-steps of the window update `op` for term t, one for each lane (R77). -/
structure WindowsOf (t : Fin 20) (op : List Byte → List Byte → List Byte) (pos : Nat → VecPos) : Prop where
  micro : ∀ j s, vecMicro (pos j) s = vecAcc op t j s
  next : ∀ m j, j + 1 < m → vecNext m (pos j) = some (pos (j + 1))
  loaded : ∀ b j, (Seq.vecconv (pos j)).lanesLoaded b = b.m

theorem windowsOf_pos (i : Fin 10) : WindowsOf (posTerm i) laneAdd (.pos i) where
  micro _ _ := rfl
  next m j hj := by simp [vecNext, hj]
  loaded _ _ := rfl

theorem windowsOf_neg (i : Fin 10) : WindowsOf (negTerm i) laneSub (.neg i) where
  micro _ _ := rfl
  next m j hj := by simp [vecNext, hj]
  loaded _ _ := rfl

/-- A window of no products changes nothing. -/
theorem addsWindow_zero (e : Nat) (sg : Int) (a : Nat → Int) (mem : Memory) : AddsWindow e sg a 0 0 mem mem :=
  ⟨fun _ hm => absurd hm (Nat.not_lt_zero _), fun _ _ => rfl⟩

/-- Two windows side by side are one. -/
theorem AddsWindow.append {e j w : Nat} {sg : Int} {a : Nat → Int} {mem mem' mem'' : Memory}
    (h : AddsWindow e sg a 0 j mem mem') (h' : AddsWindow e sg a j w mem' mem'') :
    AddsWindow e sg a 0 (j + w) mem mem'' := by
  refine ⟨fun m hm x hx => ?inside, fun k hk => ?outside⟩
  case inside =>
    by_cases hlow : m < j
    · rw [h'.outside _ (by omega)]
      exact h.inside m hlow x hx
    · obtain ⟨d, rfl⟩ := Nat.exists_eq_add_of_le (Nat.not_lt.1 hlow)
      have hindex : e + 0 + (j + d) = e + j + d := by omega
      rw [hindex] at hx ⊢
      rw [← h.outside _ (by omega)] at hx
      rw [h'.inside d (by omega) x hx, Nat.zero_add]
  case outside => rw [h'.outside k (by omega), h.outside k (by omega)]

/-- After `j` windows of a term, the first L·j products stand in R. -/
theorem engineSteps_windows {t : Fin 20} {op : List Byte → List Byte → List Byte} {pos : Nat → VecPos} {sg : Int}
    (hop : AddsLanes op sg) (hw : WindowsOf t op pos) {s : State} (h : s.Inv) (ha : s.aWritten)
    (hs : s.seq = .vecconv (pos 0)) {j : Nat} (hj : j ≤ s.build.m) :
    ∃ v, engineSteps j s = .next v ∧ v.Inv ∧ SameOperands s v ∧ (j < s.build.m → v.seq = .vecconv (pos j)) ∧
      AddsWindow (s.expOf t) sg s.coeff 0 (s.build.l * j) s.memR v.memR := by
  induction j with
  | zero => exact ⟨s, rfl, h, by constructor <;> rfl, fun _ => hs, addsWindow_zero _ _ _ _⟩
  | succ j ih =>
    obtain ⟨v, hv, hinv, hsame, hseq, hadds⟩ := ih (by omega)
    have hvs := hseq (by omega)
    obtain ⟨u, hu⟩ := engineStep_exists hinv (hsame.aWritten ha)
    have hstep := engineStep_same hu
    refine ⟨u, engineSteps_succ hv hu, hinv.engineStep hu, hsame.trans hstep, ?_⟩
    rcases engineStep_next hu with ⟨hs', -⟩ | ⟨p, v', hs', -⟩ | ⟨p, v', hs', hm, rfl⟩
    · rw [hvs] at hs'; cases hs'
    · rw [hvs] at hs'; cases hs'
    · rw [hvs] at hs'
      obtain rfl : pos j = p := Seq.vecconv.inj hs'
      have hheld : v.HoldsLanes v.build.m := by
        have hlanes := (hinv.running (by rw [hvs]; simp)).lanes
        rwa [hvs, hw.loaded] at hlanes
      have hbuild : v'.build = s.build := (vecMicro_same hm).1.build.trans hsame.build
      refine ⟨fun hj' => ?next, ?adds⟩
      case next => simp only [advanceVec, hbuild, hw.next _ _ hj']
      case adds =>
        rw [hw.micro] at hm
        have hwin := vecAcc_addsWindow hop hm hinv.lanes hheld (j := j) (by rw [hsame.build]; omega)
        rw [expOf_eq_of_same hsame, coeff_eq_of_same hsame, hsame.build] at hwin
        rw [(advanceVec_stores _ _).1, Nat.mul_succ]
        exact hadds.append hwin

/-- All M windows of a term, as R83 states them. -/
theorem engineSteps_term {t : Fin 20} {op : List Byte → List Byte → List Byte} {pos : Nat → VecPos} {sg : Int}
    (hop : AddsLanes op sg) (hw : WindowsOf t op pos) {s : State} (h : s.Inv) (ha : s.aWritten)
    (hs : s.seq = .vecconv (pos 0)) (hfull : s.memR.full (2 * s.build.n)) :
    ∃ v, engineSteps s.build.m s = .next v ∧ ∀ k < 2 * s.build.n, ∃ x, s.memR.read k = some x ∧
      v.memR.read k = some (if s.expOf t ≤ k ∧ k - s.expOf t < s.build.n
        then add8 x (sg * s.coeff (k - s.expOf t)) else x) := by
  have hlanes : s.build.hasLanes = true := (h.running (by rw [hs]; simp)).hasLanes (by rw [hs]; rfl)
  obtain ⟨v, hv, -, -, -, hadds⟩ := engineSteps_windows hop hw h ha hs le_rfl
  rw [lanes_cover hlanes] at hadds
  refine ⟨v, hv, fun k hk => ?_⟩
  obtain ⟨x, hx⟩ := Option.isSome_iff_exists.1 (hfull k hk)
  refine ⟨x, hx, ?_⟩
  split_ifs with hin
  · obtain ⟨m, rfl⟩ := Nat.exists_eq_add_of_le hin.1
    rw [Nat.add_sub_cancel_left]
    simpa only [Nat.add_zero, Nat.zero_add] using hadds.inside m (by omega) x hx
  · rw [hadds.outside k (by omega), hx]

/-- Settles O56: the positive terms' windows add, the negative ones' subtract. -/
theorem oneTermsWindowsCoverTheShiftOnce : Obligations.OneTermsWindowsCoverTheShiftOnce := by
  unfold Obligations.OneTermsWindowsCoverTheShiftOnce
  intro s i h ha
  have hfull {p : VecPos} (hs : s.seq = .vecconv p) (hz : (Seq.vecconv p).afterZero = true) :
      s.memR.full (2 * s.build.n) := (h.running (by rw [hs]; simp)).scratch (by rw [hs]; exact hz)
  refine ⟨fun hs => ?positive, fun hs => ?negative⟩
  case positive =>
    simpa only [one_mul] using engineSteps_term addsLanes_laneAdd (windowsOf_pos i) h ha hs (hfull hs rfl)
  case negative =>
    simpa only [neg_one_mul] using engineSteps_term addsLanes_laneSub (windowsOf_neg i) h ha hs (hfull hs rfl)

end Sys2Proof.Machine
end

