-- ==== Sys2Proof/Proofs/StepEvents.lean ====
section
/-! PROOF. Whole-machine rules over a step's events (R13, R45): what a command, a turn of the ENGINE, a STATUS write,
a reset and a transaction outside the aperture do, and which events can set DONE and ERR. -/

namespace Sys2Proof.Machine

/-! ### Commands (R50, R54, R55) -/

/-- A write of a command's word to CMD is exec of that command, with the write answered. -/
theorem step_cmd_exec {s : State} {v : Word} {i : Instr} {rest : List Input}
    (h : s.inputs = .write (s.build.baseAddr + 0x00004) 4 v :: rest) (hd : decode v = .ok i) :
    step s = exec i (s.afterWrite rest) := by
  rw [step_cmd_command h hd]
  exact (exec_eq_issue i (s.afterWrite rest)).symm

/-- A table number that decodes is the command's word in its low 32 bits. -/
theorem decode_of_tableWord {w : Nat} {i : Instr} (h : decodeTableWord 32 w = some i) :
    decode (BitVec.ofNat 32 (w % 2 ^ 32)) = .ok i := by
  rw [decodeTableWord, if_pos (Nat.mod_lt _ (by decide)), decodeBytes_wordBytes] at h
  cases hd : decode (BitVec.ofNat 32 (w % 2 ^ 32)) with
  | ok j => rw [hd] at h; exact congrArg Except.ok (Option.some.inj h)
  | error r => rw [hd] at h; cases h

/-- Settles O8: the CMD write that both clauses place is the one of `step_cmd_exec`. -/
theorem stepRunsTheIssuedCommand : Obligations.StepRunsTheIssuedCommand := by
  unfold Obligations.StepRunsTheIssuedCommand
  refine ⟨fun s v i rest h hd _ => step_cmd_exec h hd, fun s w i h => ?_⟩
  exact step_cmd_exec (s := s.withFetchWord 32 w) rfl (decode_of_tableWord h)

/-- What an issue leaves of SEQ, DONE and the error record: SEQ and DONE as they were, or those of acceptance with the
error record as it was. -/
theorem issueCommand_sequencer (first : Seq) (sup : Bool) (s : State) :
    let t := issueCommand first sup s
    (t.seq = s.seq ∧ t.done = s.done) ∨
      (s.seq = .idle ∧ t.seq = first ∧ t.done = false ∧ t.err = s.err ∧ t.errCode = s.errCode ∧
        t.errInfo = s.errInfo) := by
  rcases issueCommand_cases first sup s with ⟨-, h⟩ | ⟨-, -, h⟩ | ⟨-, -, t, -, h⟩ | ⟨hidle, -, -, h⟩ <;>
    simp only [h]
  · exact .inl ⟨by simp, by simp⟩
  · exact .inl ⟨by simp, by simp⟩
  · exact .inl ⟨by simp, by simp⟩
  · exact .inr ⟨hidle, rfl, rfl, rfl, rfl, rfl⟩

/-- Settles O13: an issue changes none of the stores, and of the sequencer what acceptance does. -/
theorem commandFrame : Obligations.CommandFrame := by
  unfold Obligations.CommandFrame
  intro i s
  obtain ⟨hbuild, hA, hterm, hR, hC, hbase, hw, hu, hin, hfree⟩ :=
    sameStores_issue i.first (i.supported s.build) s
  exact ⟨_, exec_eq_issue i s, hA, hterm, hR, hC, hbase, hw, hu, hbuild, hin, issueCommand_response _ _ s, hfree,
    issueCommand_sequencer _ _ s⟩

/-- Settles O60: the lines write the command's word to CMD, whatever the fresh label. -/
theorem scriptCommandsIssueTheCommand : Obligations.ScriptCommandsIssueTheCommand := by
  unfold Obligations.ScriptCommandsIssueTheCommand
  intro p i op fresh hop hline
  have hwrite : op = .wr 0x00004 4 (encode i) := by
    cases i <;> exact (List.singleton_inj.1 hop).symm
  have hstep :
      step { p.block with
        inputs := .write (p.block.build.baseAddr + 0x00004) 4 (encode i) :: p.block.inputs } =
      exec i { p.block with response := some .okayWrite } :=
    step_cmd_exec rfl (decode_encode i)
  rw [exec_eq_issue] at hstep ⊢
  subst hwrite
  refine ⟨_, by simp only [Platform.hostTurn, hline, HostOp.input, hstep]; rfl, rfl, rfl⟩

/-! ### Turns of the ENGINE (R13, R45) -/

/-- Settles O9: an `engine` input and no input are the ENGINE's, and IDLE is its branch that does nothing. -/
theorem stepGivesTheEngineItsTurn : Obligations.StepGivesTheEngineItsTurn := by
  unfold Obligations.StepGivesTheEngineItsTurn
  exact ⟨fun _ => step_of_no_input, fun _ _ => step_engine, fun _ => engineStep_idle⟩

/-! ### What no step changes, and what sets a flag -/

/-- Settles O10: no event of the step's inversion lemma changes the build. -/
theorem buildNeverChanges : Obligations.BuildNeverChanges := by
  unfold Obligations.BuildNeverChanges
  intro s t ht
  rcases step_cases s with ⟨-, he⟩ | ⟨rest, -, he⟩ | ⟨addr, size, rest, t', -, he, heff⟩ |
    ⟨addr, size, v, rest, t', -, he, heff⟩ <;> rw [he] at ht
  · exact (engineStep_same ht).build
  · cases ht; rfl
  · cases ht; rw [heff]
  · cases ht; exact heff.sameResults.build

/-- Settles O18: a reset clears both flags, a read changes neither, a write cannot set DONE, and a step of the ENGINE
keeps ERR and sets DONE only where its command completes. -/
theorem flagsAreSetOnlyByTheirEvents : Obligations.FlagsAreSetOnlyByTheirEvents := by
  unfold Obligations.FlagsAreSetOnlyByTheirEvents
  intro s t ht
  rcases step_cases s with ⟨hin, he⟩ | ⟨rest, -, he⟩ | ⟨addr, size, rest, t', -, he, heff⟩ |
    ⟨addr, size, v, rest, t', hin, he, heff⟩ <;> rw [he] at ht
  · refine ⟨fun hd hd' => ?_, fun hclear hset => ?_⟩
    · obtain ⟨hrun, hidle⟩ := engineStep_sets_done ht hd hd'
      exact ⟨hrun, hidle, hin⟩
    · have herr : t.err = s.err := (engineStep_same ht).err
      exact absurd (herr.trans hclear) (by simp [hset])
  · cases ht
    exact ⟨fun _ hset => (by cases hset), fun _ hset => (by cases hset)⟩
  · cases ht
    rw [heff]
    exact ⟨fun hclear hset => absurd hset (by simp [hclear]), fun hclear hset => absurd hset (by simp [hclear])⟩
  · cases ht
    exact ⟨fun hclear hset => absurd hset (by simp [heff.done_of hclear]), fun _ _ => ⟨addr, size, v, rest, hin⟩⟩

/-! ### STATUS writes (R27) -/

/-- Settles O16: the write's step lemma, and each flag by its own bit. -/
theorem statusWriteOneToClear : Obligations.StatusWriteOneToClear := by
  unfold Obligations.StatusWriteOneToClear
  intro s v rest h
  rw [step_write_status h, writeStatus_eq]
  rfl

/-! ### Outside the aperture (R34) -/

/-- Below BASE_ADDR there is no offset, and from 0x40000 up none is mapped. -/
theorem hostTarget_outside {b : Build} (hl : b.legal = true) {addr size : Nat}
    (h : addr < b.baseAddr ∨ b.baseAddr + 0x40000 ≤ addr) : hostTarget b addr size = none := by
  obtain ⟨-, hn, -⟩ := legal_bounds hl
  cases hg : hostTarget b addr size with
  | none => rfl
  | some g =>
    obtain ⟨hbase, hbus⟩ := hostTarget_some.1 hg
    have hmapped := byteTarget_isSome.1 (Option.isSome_of_eq_some (busTarget_some.1 hbus).2)
    omega

/-- Settles O20: nothing is reached there. -/
theorem outsideTheApertureIsError : Obligations.OutsideTheApertureIsError := by
  unfold Obligations.OutsideTheApertureIsError
  intro s addr size rest hl houtside
  have hnone := hostTarget_outside hl houtside (size := size)
  refine ⟨fun v h => ?write, fun h => ?read⟩
  case write =>
    simp only [step, nextMove, h, hnone, busWrite]
    rfl
  case read => exact ⟨_, _, step_read h, by rw [hnone]; rfl⟩

/-! ### Reset (R31, R112) -/

theorem resetOf_term (b : Build) (t : Fin 20) : (State.resetOf b).term[t].toWord = 0x00000000#32 := by
  have h : (State.resetOf b).term[t] = { exp := 0#16, sign := false } := by simp [State.resetOf]
  rw [h]
  rfl

theorem statusWord_of_clear {s : State} (hs : s.seq = .idle) (hd : s.done = false) (he : s.err = false)
    (hc : s.errCode = .none) : statusWord s = 0x00000000#32 := by
  rw [statusWord, busy_eq_false.2 hs, hd, he, hc]
  rfl

theorem errInfoWord_of_zero {s : State} (h : s.errInfo = 0#18) : errInfoWord s = 0x00000000#32 := by
  rw [errInfoWord, h]
  rfl

/-- Settles O31: by evaluation of the reset values. -/
theorem resetValues : Obligations.ResetValues := by
  unfold Obligations.ResetValues
  exact fun b => ⟨rfl, statusWord_of_clear rfl rfl rfl rfl, errInfoWord_of_zero rfl, rfl, resetOf_term b,
    fun k => ⟨rfl, rfl, rfl⟩⟩

/-- Settles O32: the event gives the block its reset values and keeps the build and the inputs. -/
theorem resetEventAbandonsTheCommand : Obligations.ResetEventAbandonsTheCommand := by
  unfold Obligations.ResetEventAbandonsTheCommand
  exact fun s rest h =>
    ⟨_, step_reset h, rfl, rfl, rfl, rfl, statusWord_of_clear rfl rfl rfl rfl, errInfoWord_of_zero rfl,
      resetOf_term s.build, fun k => ⟨rfl, rfl, rfl⟩⟩

end Sys2Proof.Machine
end

