-- ==== Sys2Proof/Proofs/HostAccess.lean ====
section
/-! PROOF. What each host read answers and each write stores (R37, R39, R40), while IDLE and while a command runs. -/

namespace Sys2Proof.Machine

section
variable {s : State} {off size : Nat} {v : Word} {rest : List Input} {g : Target}

theorem step_read_at (h : s.inputs = .read (s.build.baseAddr + off) size :: rest)
    (hg : busTarget s.build off size = some g) :
    step s = .next (busRead (some g) size { s with inputs := rest }) := by
  rw [step_read h, hostTarget_at, hg]

theorem step_write_term_idle {t : Fin 20} (h : s.inputs = .write (s.build.baseAddr + off) size v :: rest)
    (hg : busTarget s.build off size = some (.term t)) (hidle : s.seq = .idle) :
    step s = .next { s.afterWrite rest with term := s.term.set t (Term.ofWord v) } := by
  have heff := writeTerm_of_idle (s := s.afterWrite rest) hidle t off v
  rw [step, nextMove_write h, hg]
  exact congrArg Host.Outcome.next heff

theorem step_write_a_idle {i : Nat} (h : s.inputs = .write (s.build.baseAddr + off) size v :: rest)
    (hg : busTarget s.build off size = some (.a i)) (hidle : s.seq = .idle) :
    step s = .next { s.afterWrite rest with memA := s.memA.writeBytes i (dataBytes size v) } := by
  have heff := writeA_of_idle (s := s.afterWrite rest) hidle i size off v
  rw [step, nextMove_write h, hg]
  exact congrArg Host.Outcome.next heff

end

/-! ### The bytes of a word (R37) -/

theorem length_dataBytes {size : Nat} (hs : size ≤ 4) (v : Word) : (dataBytes size v).length = size := by
  simp [dataBytes, wordBytes, hs]

theorem getElem?_wordBytes (v : Word) {m : Nat} (hm : m < 4) : (wordBytes v)[m]? = some (v.extractLsb' (8 * m) 8) := by
  match m, hm with
  | 0, _ | 1, _ | 2, _ | 3, _ => rfl

theorem getElem?_dataBytes {size m : Nat} (hs : size ≤ 4) (v : Word) (hm : m < size) :
    (dataBytes size v)[m]? = some (v.extractLsb' (8 * m) 8) := by
  rw [dataBytes, List.getElem?_take, if_pos hm, getElem?_wordBytes v (by omega)]

/-- A word's bytes are the digits of its value to base 256. -/
theorem wordBytes_eq_digits (v : Word) :
    wordBytes v = [BitVec.ofNat 8 v.toNat, BitVec.ofNat 8 (v.toNat / 256), BitVec.ofNat 8 (v.toNat / 65536),
      BitVec.ofNat 8 (v.toNat / 16777216)] := by
  simp only [wordBytes, BitVec.extractLsb', Nat.shiftRight_eq_div_pow, Nat.pow_zero, Nat.div_one, Nat.reducePow]

/-! ### The registers (R25 to R29) -/

theorem ofNat8_congr {a b : Nat} (h : a % 256 = b % 256) : BitVec.ofNat 8 a = BitVec.ofNat 8 b := by
  apply BitVec.eq_of_toNat_eq
  simpa using h

theorem wordBytes_configWord {b : Build} (hl : b.legal = true) :
    wordBytes (configWord b) =
      [BitVec.ofNat 8 (b.n % 256), BitVec.ofNat 8 (b.n / 256), BitVec.ofNat 8 b.l, 20#8] := by
  obtain ⟨-, hn, -, hl', -⟩ := legal_bounds hl
  rw [wordBytes_eq_digits, configWord_toNat hl]
  simp only [List.cons.injEq, and_true]
  refine ⟨ofNat8_congr ?_, ofNat8_congr ?_, ofNat8_congr ?_, ofNat8_congr (b := 20) ?_⟩ <;> omega

theorem errInfoWord_eq_ofNat (s : State) : errInfoWord s = BitVec.ofNat 32 s.errInfo.toNat := by
  apply BitVec.eq_of_toNat_eq
  have := s.errInfo.isLt
  rw [errInfoWord, toNat_append_eq_add, BitVec.toNat_ofNat, BitVec.toNat_ofNat]
  omega

/-- Settles O21: each register's offset reaches it, and its word's bytes are answered in every sequencer state. -/
theorem registerReads : Obligations.RegisterReads := by
  unfold Obligations.RegisterReads
  intro s rest hl
  refine ⟨fun h => ?config, fun h => ?cmd, fun h => ?status, fun h => ?errInfo⟩
  case config => rw [step_read_config h, wordBytes_configWord hl]
  case cmd => exact step_read_at h (busTarget_cmd_at _)
  case status => exact step_read_at h (busTarget_status_at _)
  case errInfo =>
    rw [← errInfoWord_eq_ofNat]
    exact step_read_at h (busTarget_errInfo_at _)

/-! ### Writes while IDLE (R39) -/

/-- Settles O23: the region that the offset reaches, and there the bytes of the data word. -/
theorem idleWriteEffects : Obligations.IdleWriteEffects := by
  unfold Obligations.IdleWriteEffects
  intro s off size v rest hl hidle h
  obtain ⟨-, hn, -⟩ := legal_bounds hl
  refine ⟨?term, ?operand, ?register, ?results⟩
  case term =>
    rintro t rfl rfl
    exact step_write_term_idle h (busTarget_term_at s.build t) hidle
  case operand =>
    intro hs ha hlo hhi
    obtain ⟨i, rfl⟩ := Nat.exists_eq_add_of_le hlo
    have hg := busTarget_a_at s.build hs (index_aligned (by decide) hs ha) (by omega)
    have hsize : size ≤ 4 := by omega
    refine ⟨_, step_write_a_idle h hg hidle, fun k => ?_⟩
    rw [Memory.read_writeBytes, length_dataBytes hsize, Nat.add_sub_cancel_left]
    split_ifs with hk
    · exact getElem?_dataBytes hsize v (by omega)
    · rfl
  case register =>
    rintro (rfl | rfl) rfl
    · exact step_write_ignored h (busTarget_config_at s.build) rfl
    · exact step_write_ignored h (busTarget_errInfo_at s.build) rfl
  case results =>
    intro hs ha hrange
    obtain ⟨g, hg, hi⟩ := exists_busTarget_results hn hs ha hrange
    exact step_write_ignored h hg hi

/-! ### Reads while IDLE (R40) -/

/-- Settles O24: a memory whose bytes are all written answers them, and TERM its word. -/
theorem idleReadsReturnWhatIsStored : Obligations.IdleReadsReturnWhatIsStored := by
  unfold Obligations.IdleReadsReturnWhatIsStored
  intro s i size rest bytes hl hidle hs ha hlen
  obtain ⟨-, hn, -⟩ := legal_bounds hl
  have hlocal {mem : Memory} (hr : ∀ m < size, mem.read (i + m) = bytes[m]?) :
      readLocal mem i size { s with inputs := rest } =
        { s with inputs := rest, response := some (.okayRead bytes) } :=
    readLocal_of_idle (s := { s with inputs := rest }) hidle (by omega) hlen hr
  refine ⟨fun h hin hr => ?a, fun h hin hr => ?c, fun h hin hr => ?r, fun t h => ?term⟩
  case a => exact (step_read_at h (busTarget_a_at _ hs ha hin)).trans (congrArg _ (hlocal hr))
  case c => exact (step_read_at h (busTarget_c_at _ hn hs ha hin)).trans (congrArg _ (hlocal hr))
  case r => exact (step_read_at h (busTarget_r_at _ hn hs ha hin)).trans (congrArg _ (hlocal hr))
  case term =>
    rw [step_read_at h (busTarget_term_at _ t)]
    simp only [busRead, busy_eq_false.2 (show State.seq { s with inputs := rest } = .idle from hidle)]
    rfl

/-- A read of which some byte is not written draws a free word for those bytes. -/
theorem readLocal_of_unwritten {mem : Memory} {i size : Nat} {s : State} (hidle : s.seq = .idle) (hs : size ≤ 4)
    (hun : ∃ m < size, mem.read (i + m) = none) :
    ∃ data, readLocal mem i size s = { s with response := some (.okayRead data), free := s.free + 1 } ∧
      data.length = size ∧
      ∀ m < size, data[m]? = some ((mem.read (i + m)).getD ((Config.freeData s.free).extractLsb' (8 * m) 8)) := by
  have hlen : (mem.readBytes i size).length ≤ (wordBytes (Config.freeData s.free)).length := by
    simpa [wordBytes] using hs
  have hnot : ¬(mem.readBytes i size).all Option.isSome = true := by
    obtain ⟨m, hm, hnone⟩ := hun
    have hget : (mem.readBytes i size)[m]? = some none := by rw [Memory.getElem?_readBytes, if_pos hm, hnone]
    intro hall
    have := List.all_eq_true.1 hall none (List.mem_of_getElem? hget)
    cases this
  refine ⟨fillBytes (mem.readBytes i size) (wordBytes (Config.freeData s.free)), ?answer, ?length, fun m hm => ?byte⟩
  case answer =>
    rw [readLocal, if_neg (by simp [hidle]), readMem, if_neg hnot]
    rfl
  case length => rw [length_fillBytes _ _ hlen, Memory.length_readBytes]
  case byte =>
    have hm' : m < (mem.readBytes i size).length := by simpa using hm
    have hbyte : (mem.readBytes i size)[m] = mem.read (i + m) := by
      have := Memory.getElem?_readBytes mem i size m
      rwa [if_pos hm, List.getElem?_eq_getElem hm', Option.some.injEq] at this
    have hfree := getElem?_wordBytes (Config.freeData s.free) (m := m) (by omega)
    rw [List.getElem?_eq_getElem (by simp [wordBytes]; omega), Option.some.injEq] at hfree
    rw [getElem?_fillBytes _ _ hlen, dif_pos hm', hbyte, hfree]

/-- Settles O26: the same for A, C and R. -/
theorem unwrittenByteReadsAsFree : Obligations.UnwrittenByteReadsAsFree := by
  unfold Obligations.UnwrittenByteReadsAsFree
  intro s i size rest hl hidle hs ha answers
  obtain ⟨-, hn, -⟩ := legal_bounds hl
  have hlocal {mem : Memory} (hstep : step s = .next (readLocal mem i size { s with inputs := rest })) :
      answers mem := fun hun => by
    obtain ⟨data, hread, hlen, hbytes⟩ :=
      readLocal_of_unwritten (s := { s with inputs := rest }) hidle (by omega) hun
    exact ⟨data, by rw [hstep, hread], hlen, hbytes⟩
  exact ⟨fun h hin => hlocal (step_read_at h (busTarget_a_at _ hs ha hin)),
    fun h hin => hlocal (step_read_at h (busTarget_c_at _ hn hs ha hin)),
    fun h hin => hlocal (step_read_at h (busTarget_r_at _ hn hs ha hin))⟩

/-! ### Reads while a command runs (R30, R40) -/

/-- The regions whose reads are unspecified while a command runs: TERM, A, C and R. -/
def Target.hiddenWhileBusy : Target → Bool
  | .term _ | .a _ | .c _ | .r _ => true
  | .config | .cmd | .status | .errInfo => false

theorem busRead_of_busy {g : Target} (hg : g.hiddenWhileBusy = true) (size : Nat) {s : State} (hb : s.seq ≠ .idle) :
    busRead (some g) size s = readMem (List.replicate size none) s := by
  cases g with
  | term | a | c | r => simp only [busRead, readLocal, busy_eq_true.2 hb, if_true]
  | config | cmd | status | errInfo => cases hg

/-- Settles O25: each of the four regions is reached, and there no byte is specified. -/
theorem busyReadsReturnAFreshFreeValue : Obligations.BusyReadsReturnAFreshFreeValue := by
  unfold Obligations.BusyReadsReturnAFreshFreeValue
  intro s off size rest hl hb h hs ha hregion
  obtain ⟨-, hn, -⟩ := legal_bounds hl
  have hreached : ∃ g, busTarget s.build off size = some g ∧ g.hiddenWhileBusy = true := by
    obtain ⟨⟨t, rfl⟩, rfl⟩ | ⟨hlo, hhi⟩ | ⟨hlo, hhi⟩ | ⟨hlo, hhi⟩ := hregion
    · exact ⟨.term t, busTarget_term_at _ t, rfl⟩
    · obtain ⟨i, rfl⟩ := Nat.exists_eq_add_of_le hlo
      exact ⟨.a i, busTarget_a_at _ hs (index_aligned (by decide) hs ha) (by omega), rfl⟩
    · obtain ⟨i, rfl⟩ := Nat.exists_eq_add_of_le hlo
      exact ⟨.c i, busTarget_c_at _ hn hs (index_aligned (by decide) hs ha) (by omega), rfl⟩
    · obtain ⟨k, rfl⟩ := Nat.exists_eq_add_of_le hlo
      exact ⟨.r k, busTarget_r_at _ hn hs (index_aligned (by decide) hs ha) (by omega), rfl⟩
  obtain ⟨g, hg, hhidden⟩ := hreached
  rw [step_read_at h hg, busRead_of_busy hhidden size (s := { s with inputs := rest }) hb,
    readMem_replicate_none { s with inputs := rest } (by omega) (by omega)]

theorem busyView_eq_iff {s s' : State} :
    s.busyView = s'.busyView ↔ s.build = s'.build ∧ s.busy = s'.busy ∧ s.done = s'.done ∧ s.err = s'.err ∧
      s.errCode = s'.errCode ∧ s.errInfo = s'.errInfo := by
  simp only [State.busyView, Prod.mk.injEq]

theorem OnlyAnswers.busyView {s t : State} (h : OnlyAnswers s t) : t.busyView = s.busyView := by
  rw [h]; rfl

/-- A read of the same bytes with the same counter answers the same. -/
theorem readMem_alike {s s' : State} (hf : s.free = s'.free) (bs : List (Option Byte)) :
    (readMem bs s).response = (readMem bs s').response ∧ (readMem bs s).free = (readMem bs s').free := by
  unfold readMem
  split <;> simp [hf]

/-- Two states alike to the host answer a read alike: a register by what is alike, a hidden region by the counter. -/
theorem busRead_alike {s s' : State} (hb : s.seq ≠ .idle) (hv : s.busyView = s'.busyView) (hf : s.free = s'.free)
    (g : Option Target) (size : Nat) :
    (busRead g size s).response = (busRead g size s').response ∧
      (busRead g size s).free = (busRead g size s').free := by
  obtain ⟨hbuild, hbusy, hdone, herr, hcode, hinfo⟩ := busyView_eq_iff.1 hv
  have hb' : s'.seq ≠ .idle := busy_eq_true.1 (hbusy ▸ busy_eq_true.2 hb)
  have hhidden {t : Target} (ht : t.hiddenWhileBusy = true) :
      (busRead (some t) size s).response = (busRead (some t) size s').response ∧
        (busRead (some t) size s).free = (busRead (some t) size s').free := by
    rw [busRead_of_busy ht size hb, busRead_of_busy ht size hb']
    exact readMem_alike hf _
  cases g with
  | none => simp [busRead, hf]
  | some t =>
    cases t with
    | config => simp [busRead, readWord, hbuild, hf]
    | cmd => simp [busRead, readWord, hf]
    | status => simp [busRead, readWord, statusWord, hbusy, hdone, herr, hcode, hf]
    | errInfo => simp [busRead, readWord, errInfoWord, hinfo, hf]
    | term | a | c | r => exact hhidden rfl

/-- Settles O28: the two states reach the same region, and answer it alike. -/
theorem busyReadsLeakNothing : Obligations.BusyReadsLeakNothing := by
  unfold Obligations.BusyReadsLeakNothing
  intro s s' t t' addr size rest rest' hb hv hf h h' ht ht'
  have hreach : hostTarget s'.build addr size = hostTarget s.build addr size := by rw [(busyView_eq_iff.1 hv).1]
  rw [step_read h] at ht
  rw [step_read h', hreach] at ht'
  cases ht
  cases ht'
  obtain ⟨hresponse, hfree⟩ := busRead_alike (s := { s with inputs := rest }) (s' := { s' with inputs := rest' })
    hb hv hf (hostTarget s.build addr size) size
  refine ⟨hresponse, ?view, hfree⟩
  case view => rw [(onlyAnswers_busRead _ _ _).busyView, (onlyAnswers_busRead _ _ _).busyView]; exact hv

end Sys2Proof.Machine
end

