-- ==== Sys2Proof/Proofs/Interleaving.lean ====
section
/-! PROOF. Host transactions between the ENGINE's micro-steps (R45, R119, R120): a simulation over `engineView`, since
the ENGINE reads and writes nothing else and a transaction while a command runs leaves it. -/

namespace Sys2Proof.Machine

/-- `s`, with all that the ENGINE does not work on as it is in `v`. -/
def State.withHostSide (s v : State) : State :=
  { s with done := v.done, err := v.err, errCode := v.errCode, errInfo := v.errInfo, inputs := v.inputs,
           response := v.response, free := v.free }

theorem eq_withHostSide {s v : State} (h : v.engineView = s.engineView) : v = s.withHostSide v := by
  obtain ⟨hb, hseq, hterm, hA, hR, hC, hbase, hw, hu⟩ := engineView_eq_iff.1 h
  cases v
  cases s
  simp_all [State.withHostSide]

/-! ### The ENGINE does the same to equal views -/

theorem refMicro_withHostSide {p : RefPos} {s t : State} (h : refMicro p s = .ok t) (v : State) :
    refMicro p (s.withHostSide v) = .ok (t.withHostSide v) := by
  cases p with
  | zero => cases h; rfl
  | acc i j =>
    obtain ⟨a, x, hj, ha, hk, hx, rfl⟩ := refAcc_ok.1 h
    exact refAcc_ok.2 ⟨a, x, hj, ha, hk, hx, rfl⟩
  | fold i =>
    obtain ⟨x, y, hi, hx, hy, rfl⟩ := refFold_ok.1 h
    exact refFold_ok.2 ⟨x, y, hi, hx, hy, rfl⟩

theorem vecMicro_withHostSide {p : VecPos} {s t : State} (h : vecMicro p s = .ok t) (v : State) :
    vecMicro p (s.withHostSide v) = .ok (t.withHostSide v) := by
  cases p with
  | base j =>
    obtain ⟨lane, hl, rfl⟩ := vecBase_ok.1 h
    exact vecBase_ok.2 ⟨lane, hl, rfl⟩
  | zero => cases h; rfl
  | pos i j =>
    obtain ⟨win, lane, hw, hb, hin, rfl⟩ := vecAcc_ok.1 h
    exact vecAcc_ok.2 ⟨win, lane, hw, hb, hin, rfl⟩
  | neg i j =>
    obtain ⟨win, lane, hw, hb, hin, rfl⟩ := vecAcc_ok.1 h
    exact vecAcc_ok.2 ⟨win, lane, hw, hb, hin, rfl⟩
  | fold j =>
    obtain ⟨lower, upper, hl, hu, hin, rfl⟩ := vecFold_ok.1 h
    exact vecFold_ok.2 ⟨lower, upper, hl, hu, hin, rfl⟩

theorem engineView_advanceRef (p : RefPos) (s v : State) :
    (advanceRef p (s.withHostSide v)).engineView = (advanceRef p s).engineView := by
  have hb : (s.withHostSide v).build = s.build := rfl
  unfold advanceRef
  rw [hb]
  split <;> rfl

theorem engineView_advanceVec (p : VecPos) (s v : State) :
    (advanceVec p (s.withHostSide v)).engineView = (advanceVec p s).engineView := by
  have hb : (s.withHostSide v).build = s.build := rfl
  unfold advanceVec
  rw [hb]
  split <;> rfl

/-- The commuting step of the simulation, at a turn of the ENGINE. -/
theorem engineStep_of_engineView {s t v : State} (h : engineStep s = .next t) (hv : v.engineView = s.engineView) :
    ∃ u, engineStep v = .next u ∧ u.engineView = t.engineView := by
  have heq := eq_withHostSide hv
  have hseq : v.seq = s.seq := (engineView_eq_iff.1 hv).2.1
  rcases engineStep_next h with ⟨hs, rfl⟩ | ⟨p, s', hs, hm, rfl⟩ | ⟨p, s', hs, hm, rfl⟩
  · exact ⟨v, engineStep_idle (hseq.trans hs), hv⟩
  · have hmicro := refMicro_withHostSide hm v
    rw [← heq] at hmicro
    exact ⟨_, engineStep_ref (hseq.trans hs) hmicro, engineView_advanceRef p s' v⟩
  · have hmicro := vecMicro_withHostSide hm v
    rw [← heq] at hmicro
    exact ⟨_, engineStep_vec (hseq.trans hs) hmicro, engineView_advanceVec p s' v⟩

/-! ### The run -/

/-- A command that is running after `k` micro-steps was running before them. -/
theorem busy_of_engineSteps {k : Nat} {s v : State} (h : engineSteps k s = .next v) (hv : v.seq ≠ .idle) :
    s.seq ≠ .idle := fun hidle => by
  rw [engineSteps_idle k hidle] at h
  cases h
  exact hv hidle

theorem engineSteps_succ_next {k : Nat} {s v : State} (h : engineSteps (k + 1) s = .next v) :
    ∃ t, engineStep s = .next t ∧ engineSteps k t = .next v := by
  rw [engineSteps] at h
  cases ht : engineStep s with
  | next t => rw [ht] at h; exact ⟨t, rfl, h⟩
  | fault f => rw [ht] at h; cases h
  | refused r => rw [ht] at h; cases h

theorem run_succ {k : Nat} {s t : State} (h : step s = .next t) :
    Host.Core.run Sys2Proof.core (k + 1) s = Host.Core.run Sys2Proof.core k t := by
  have hstep : Sys2Proof.core.step s = .next t := h
  simp only [Host.Core.run, hstep]

/-- The simulation: `x` has the inputs to take, `s` has only the ENGINE's micro-steps among them. -/
theorem run_of_engineView {ins : List Input} (hreset : .reset ∉ ins) {s v x : State} (hx : x.inputs = ins)
    (hview : x.engineView = s.engineView)
    (hv : engineSteps (ins.countP fun i => decide (i = .engine)) s = .next v) (hrun : v.seq ≠ .idle) :
    ∃ u, Host.Core.run Sys2Proof.core ins.length x = .next u ∧ u.engineView = v.engineView := by
  induction ins generalizing s x with
  | nil => cases hv; exact ⟨x, rfl, hview⟩
  | cons i rest ih =>
    have hrest : .reset ∉ rest := fun hmem => hreset (List.mem_cons_of_mem _ hmem)
    have hbusy : x.seq ≠ .idle := by
      rw [(engineView_eq_iff.1 hview).2.1]
      exact busy_of_engineSteps hv hrun
    have htransaction (hat : x.AtTransaction rest) (hi : i ≠ .engine) :
        ∃ u, Host.Core.run Sys2Proof.core (i :: rest).length x = .next u ∧ u.engineView = v.engineView := by
      obtain ⟨y, hstep, hview', hy⟩ := step_transaction_busy hbusy hat
      rw [List.countP_cons_of_neg (by simpa using hi)] at hv
      rw [List.length_cons, run_succ hstep]
      exact ih hrest hy (hview'.trans hview) hv
    cases i with
    | reset => exact absurd List.mem_cons_self hreset
    | read addr size => exact htransaction (.inl ⟨addr, size, hx⟩) (by simp)
    | write addr size w => exact htransaction (.inr ⟨addr, size, w, hx⟩) (by simp)
    | engine =>
      rw [List.countP_cons_of_pos (by simp)] at hv
      obtain ⟨t, ht, hv'⟩ := engineSteps_succ_next hv
      have hview' : State.engineView { x with inputs := rest } = s.engineView := hview
      obtain ⟨y, hy, hyt⟩ := engineStep_of_engineView ht hview'
      rw [List.length_cons, run_succ ((step_engine hx).trans hy)]
      exact ih hrest (engineStep_same hy).inputs hyt hv'

/-- Settles O57: the simulation, from the state with the inputs put before it. -/
theorem hostTransactionsDoNotDisturbACommand : Obligations.HostTransactionsDoNotDisturbACommand := by
  unfold Obligations.HostTransactionsDoNotDisturbACommand
  intro ins s v hreset hv hrun
  exact run_of_engineView (s := s) hreset rfl rfl hv hrun

end Sys2Proof.Machine
end

