-- ==== Sys2Proof/Proofs/Loading.lean ====
section
/-! PROOF. A host that loads A byte by byte and then TERM word by word from reset (R114) leaves the block ready for its
commands. -/

namespace Sys2Proof.Machine

/-! ### Runs -/

/-- A run is a run of its first steps and then of the rest. -/
theorem run_add {m : Nat} (k : Nat) {s t : State} (h : Host.Core.run Sys2Proof.core m s = .next t) :
    Host.Core.run Sys2Proof.core (m + k) s = Host.Core.run Sys2Proof.core k t := by
  induction m generalizing s with
  | zero => cases h; rw [Nat.zero_add]
  | succ m ih =>
    cases hs : step s with
    | next s' =>
      rw [run_succ hs] at h
      rw [Nat.succ_add, run_succ hs, ih h]
    | fault f =>
      have hstep : Sys2Proof.core.step s = .fault f := hs
      simp only [Host.Core.run, hstep] at h
      cases h
    | refused r =>
      have hstep : Sys2Proof.core.step s = .refused r := hs
      simp only [Host.Core.run, hstep] at h
      cases h

/-- The invariant holds along every run (R31, R112 and every step after). -/
theorem State.Inv.run {m : Nat} {s t : State} (hs : s.Inv) (h : Host.Core.run Sys2Proof.core m s = .next t) :
    t.Inv := by
  induction m generalizing s with
  | zero => cases h; exact hs
  | succ m ih =>
    obtain ⟨s', hs'⟩ | ⟨-, j, -, -, hf⟩ := step_goesOn hs
    · rw [run_succ hs'] at h
      exact ih (stepKeepsTheInvariant s s' hs hs') h
    · have hstep : Sys2Proof.core.step s = .fault (.unwrittenRead .a j) := hf
      simp only [Host.Core.run, hstep] at h
      cases h

/-! ### The host's writes -/

/-- One 8-bit write for each index of A. -/
def operandWrites (b : Build) (a : Nat → Byte) (js : List Nat) : List Input :=
  js.map fun j => .write (b.baseAddr + (0x10000 + j)) 1 ((a j).setWidth 32)

/-- One 32-bit write for each term. -/
def tableWrites (b : Build) (tbl : Fin 20 → Term) (ts : List (Fin 20)) : List Input :=
  ts.map fun t => .write (b.baseAddr + (0x100 + 4 * t.val)) 4 (tbl t).toWord

/-- A, and then TERM. -/
def loadingWrites (b : Build) (a : Nat → Byte) (tbl : Fin 20 → Term) : List Input :=
  operandWrites b a (List.range b.n) ++ tableWrites b tbl (List.finRange 20)

theorem length_loadingWrites (b : Build) (a : Nat → Byte) (tbl : Fin 20 → Term) :
    (loadingWrites b a tbl).length = (List.range b.n).length + (List.finRange 20).length := by
  simp [loadingWrites, operandWrites, tableWrites]

theorem loadingWrites_are_writes {b : Build} {a : Nat → Byte} {tbl : Fin 20 → Term} {x : Input}
    (hx : x ∈ loadingWrites b a tbl) : ∃ addr size v, x = .write addr size v := by
  simp only [loadingWrites, operandWrites, tableWrites, List.mem_append, List.mem_map] at hx
  obtain ⟨j, -, rfl⟩ | ⟨t, -, rfl⟩ := hx
  · exact ⟨_, _, _, rfl⟩
  · exact ⟨_, _, _, rfl⟩

/-- An idle block after a run of writes: idle still, in the same build, with the inputs that follow. -/
structure IdleWith (b : Build) (rest : List Input) (s : State) : Prop where
  build : s.build = b
  idle : s.seq = .idle
  inputs : s.inputs = rest

theorem dataBytes_byte (a : Byte) : dataBytes 1 (a.setWidth 32) = [a] := by
  have hlow : (a.setWidth 32).extractLsb' 0 8 = a := by
    apply BitVec.eq_of_toNat_eq
    have := a.isLt
    simp only [BitVec.extractLsb'_toNat, BitVec.toNat_setWidth, Nat.shiftRight_zero]
    omega
  simp [dataBytes, wordBytes, hlow]

theorem run_operandWrites {b : Build} (a : Nat → Byte) {js : List Nat} (hjs : ∀ j ∈ js, j < b.n) {rest : List Input}
    {s : State} (hs : IdleWith b (operandWrites b a js ++ rest) s) :
    ∃ t, Host.Core.run Sys2Proof.core js.length s = .next t ∧ IdleWith b rest t ∧ t.term = s.term ∧
      ∀ k, t.memA.read k = if k ∈ js then some (a k) else s.memA.read k := by
  induction js generalizing s with
  | nil => exact ⟨s, rfl, hs, rfl, fun k => by simp⟩
  | cons j js ih =>
    obtain ⟨rfl, hidle, hin⟩ := hs
    have hj : j + 1 ≤ s.build.n := hjs j List.mem_cons_self
    have hstep := step_write_a_idle hin (busTarget_a_at s.build (.inl rfl) (Nat.mod_one j) hj) hidle
    rw [dataBytes_byte] at hstep
    obtain ⟨t, hrun, ht, hterm, hread⟩ := ih (fun k hk => hjs k (List.mem_cons_of_mem _ hk))
      (s := { s.afterWrite (operandWrites s.build a js ++ rest) with memA := s.memA.writeBytes j [a j] })
      ⟨rfl, hidle, rfl⟩
    refine ⟨t, by rw [List.length_cons, run_succ hstep]; exact hrun, ht, hterm, fun k => ?_⟩
    have hwrite : (s.memA.writeBytes j [a j]).read k = if k = j then some (a j) else s.memA.read k :=
      Memory.read_write s.memA j k (a j)
    rw [hread k, hwrite]
    by_cases hkj : k = j
    · simp [hkj]
    · simp [hkj]

theorem run_tableWrites {b : Build} (tbl : Fin 20 → Term) {ts : List (Fin 20)} {rest : List Input} {s : State}
    (hs : IdleWith b (tableWrites b tbl ts ++ rest) s) :
    ∃ t, Host.Core.run Sys2Proof.core ts.length s = .next t ∧ IdleWith b rest t ∧ t.memA = s.memA ∧
      ∀ i : Fin 20, t.term[i] = if i ∈ ts then tbl i else s.term[i] := by
  induction ts generalizing s with
  | nil => exact ⟨s, rfl, hs, rfl, fun k => by simp⟩
  | cons i ts ih =>
    obtain ⟨rfl, hidle, hin⟩ := hs
    have hstep := step_write_term_idle hin (busTarget_term_at s.build i) hidle
    rw [ofWord_toWord] at hstep
    obtain ⟨t, hrun, ht, hA, hread⟩ := ih
      (s := { s.afterWrite (tableWrites s.build tbl ts ++ rest) with term := s.term.set i (tbl i) }) ⟨rfl, hidle, rfl⟩
    refine ⟨t, by rw [List.length_cons, run_succ hstep]; exact hrun, ht, hA, fun k => ?_⟩
    rw [hread k]
    by_cases hki : k = i
    · subst hki; simp
    · have hset : (s.term.set i (tbl i))[k] = s.term[k] := table_set_other s.term hki _
      simp only [hset, List.mem_cons, hki, false_or]

/-- Settles O58: the two runs of writes, and the invariant along them. -/
theorem hostCanLoadAnyOperands : Obligations.HostCanLoadAnyOperands := by
  unfold Obligations.HostCanLoadAnyOperands
  intro b a tbl hl hexp
  obtain ⟨s₁, hrun₁, hs₁, -, hA₁⟩ := run_operandWrites a (b := b) (js := List.range b.n) (by simp)
    (s := { State.resetOf b with inputs := loadingWrites b a tbl }) ⟨rfl, rfl, rfl⟩
  obtain ⟨s₂, hrun₂, ⟨hbuild, hidle, -⟩, hA₂, hterm⟩ :=
    run_tableWrites (rest := []) tbl ((List.append_nil (tableWrites b tbl _)).symm ▸ hs₁)
  have hA : ∀ j < b.n, s₂.memA.read j = some (a j) := fun j hj => by
    rw [hA₂, hA₁, if_pos (List.mem_range.2 hj)]
  have htable : ∀ t : Fin 20, s₂.term[t] = tbl t := fun t => by rw [hterm, if_pos (List.mem_finRange t)]
  have hinv : s₂.Inv := (((resetOf_inv hl).inputs _).run hrun₁).run hrun₂
  refine ⟨loadingWrites b a tbl, s₂, fun x => loadingWrites_are_writes, ?run, fun i hsup => ?ready, hA, htable⟩
  case run => rw [length_loadingWrites, run_add _ hrun₁, hrun₂]
  case ready =>
    exact
      { inv := hinv
        idle := hidle
        exps := fun t => by
          show s₂.term[t].exp.toNat < s₂.build.n
          rw [htable, hbuild]
          exact hexp t
        aWritten := fun j hj => by rw [hA j (hbuild ▸ hj)]; rfl
        supported := hbuild ▸ hsup }

end Sys2Proof.Machine
end

