-- ==== Sys2Proof/Proofs/Poll.lean ====
section
/-! PROOF. `poll` (R47, R61): its two lines in an assembled script, what the host's turn does at each, and that under
weak fairness (R121) a running command completes and the poll is passed. -/

namespace Sys2Proof.Machine

/-! ### The lines of a poll (R61) -/

/-- A poll's two lines stand at `k` and `k + 1`, with no earlier line on its label. -/
structure PollAt (lines : List HostOp) (name k : Nat) : Prop where
  label : lines[k]? = some (.label name)
  branch : lines[k + 1]? = some (.bnz32 0x00008 0x00000001#32 name)
  first : ∀ j < k, lines[j]? ≠ some (.label name)

/-- A number at or above every label a part names is on no line of that part, assembled from below or above it. -/
theorem label_not_mem_assembleFrom {f n : Nat} {src : List ScriptLine} (hbound : firstFresh src ≤ n)
    (hfresh : f + pseudoCount src ≤ n ∨ n < f) : HostOp.label n ∉ assembleFrom f src := fun hmem => by
  have := label_mem_assembleFrom hmem
  omega

/-- An assembled poll between its script's other lines, which do not stand on its label. -/
theorem assemble_poll (pre post : List ScriptLine) :
    ∃ before after name, assemble (pre ++ .pseudo .poll :: post) =
        before ++ .label name :: .bnz32 0x00008 0x00000001#32 name :: after ∧
      before.length = (assemble pre).length ∧ HostOp.label name ∉ before ∧ HostOp.label name ∉ after := by
  have hfresh := firstFresh_append pre (.pseudo .poll :: post)
  have hpre : firstFresh pre ≤ firstFresh (pre ++ .pseudo .poll :: post) := hfresh ▸ le_max_left _ _
  have hpost : firstFresh post ≤ firstFresh (pre ++ .pseudo .poll :: post) := by
    rw [hfresh]
    exact le_trans (le_max_right _ _) (le_max_right _ _)
  refine ⟨_, _, _, (assembleFrom_append _ pre _).trans rfl, length_assembleFrom _ _ pre,
    label_not_mem_assembleFrom (by omega) (.inl le_rfl), label_not_mem_assembleFrom (by omega) (.inr (by omega))⟩

theorem assembled_poll_lines (pre post : List ScriptLine) :
    ∃ k name, (assemble (pre ++ .pseudo .poll :: post))[k]? = some (.label name) ∧
      (assemble (pre ++ .pseudo .poll :: post))[k + 1]? = some (.bnz32 0x00008 0x00000001#32 name) ∧
      k = (assemble pre).length ∧ ∀ j, j ≠ k → (assemble (pre ++ .pseudo .poll :: post))[j]? ≠ some (.label name) := by
  obtain ⟨before, after, name, heq, hlen, hbefore, hafter⟩ := assemble_poll pre post
  rw [heq]
  refine ⟨before.length, name, by simp, by simp, hlen, fun j hj hline => ?_⟩
  obtain hlow | hhigh := Nat.lt_or_gt_of_ne hj
  · rw [List.getElem?_append_left hlow] at hline
    exact hbefore (List.mem_of_getElem? hline)
  · obtain ⟨d, rfl⟩ := Nat.exists_eq_add_of_lt hhigh
    rw [List.getElem?_append_right (by omega)] at hline
    have hd : before.length + d + 1 - before.length = d + 1 := by omega
    rw [hd, List.getElem?_cons_succ] at hline
    cases d with
    | zero => cases hline
    | succ d => exact hafter (List.mem_of_getElem? hline)

/-! ### The host's turn at a poll (R47) -/

theorem bytesNat_wordBytes (v : Word) : bytesNat (wordBytes v) = v.toNat := by
  have := v.isLt
  rw [wordBytes_eq_digits]
  simp only [bytesNat, BitVec.toNat_ofNat]
  omega

/-- A word's AND with 1 is its bit 0. -/
theorem and_one_ne_zero_iff (v : Word) : v &&& 0x00000001#32 ≠ 0#32 ↔ v.getLsbD 0 = true := by
  constructor
  · intro h
    by_contra hbit
    refine h (BitVec.eq_of_getLsbD_eq fun k hk => ?_)
    cases k with
    | zero => simpa using hbit
    | succ k => simp
  · intro hbit h
    have hzero : (v &&& 0x00000001#32).getLsbD 0 = false := by rw [h]; rfl
    rw [BitVec.getLsbD_and, hbit] at hzero
    cases hzero

/-- The block after a read of STATUS. -/
def State.afterStatusRead (s : State) : State :=
  { s with response := some (.okayRead (wordBytes (statusWord s))) }

theorem step_status_read (s : State) :
    step { s with inputs := .read (s.build.baseAddr + 0x00008) 4 :: s.inputs } = .next s.afterStatusRead :=
  step_read_at (s := { s with inputs := .read (s.build.baseAddr + 0x00008) 4 :: s.inputs }) rfl
    (busTarget_status_at s.build)

/-- The `bnz32` jumps exactly while a command runs. -/
theorem take_bnz32 (h : ScriptHost) (s : State) (name : Nat) :
    h.take (.bnz32 0x00008 0x00000001#32 name) (responseData s.afterStatusRead.response) =
      { h with next := if s.seq = .idle then h.next + 1 else labelLine h.lines name } := by
  have hdata : responseData s.afterStatusRead.response = (statusWord s).toNat := bytesNat_wordBytes _
  have hbusy : statusWord s &&& 0x00000001#32 ≠ 0#32 ↔ s.seq ≠ .idle := by
    rw [and_one_ne_zero_iff, statusWord_bit_zero, busy_eq_true]
  simp only [ScriptHost.take, hdata, BitVec.ofNat_toNat, BitVec.setWidth_eq, hbusy]
  by_cases hidle : s.seq = .idle <;> simp [hidle]

theorem hostTurn_branch {p : Platform} {name k : Nat} (hpoll : PollAt p.host.lines name k)
    (hnext : p.host.next = k + 1) :
    p.hostTurn = .next { host := { p.host with next := if p.block.seq = .idle then k + 2 else k },
                         block := p.block.afterStatusRead } := by
  simp only [Platform.hostTurn, hnext, hpoll.branch, HostOp.input, step_status_read, take_bnz32,
    labelLine_eq hpoll.label hpoll.first]

theorem hostTurn_label {p : Platform} {name k : Nat} (hpoll : PollAt p.host.lines name k) (hnext : p.host.next = k) :
    p.hostTurn = .next { p with host := { p.host with next := k + 1 } } := by
  simp only [Platform.hostTurn, hnext, hpoll.label, HostOp.input, ScriptHost.take]

/-! ### Turns while a command runs -/

/-- A line's input is a read or a write. -/
theorem HostOp.input_cases {b : Build} {op : HostOp} {x : Input} (h : op.input b = some x) :
    (∃ addr size, x = .read addr size) ∨ ∃ addr size v, x = .write addr size v := by
  cases op with
  | label name => cases h
  | wr off size d => cases h; exact .inr ⟨_, _, _, rfl⟩
  | rd off size => cases h; exact .inl ⟨_, _, rfl⟩
  | bnz32 off mask name => cases h; exact .inl ⟨_, _, rfl⟩
  | expect off d => cases h; exact .inl ⟨_, _, rfl⟩

/-- Whatever the script, the host's turn leaves a running command as it was. -/
theorem hostTurn_busy {p : Platform} (h : p.block.Inv) (hb : p.block.seq ≠ .idle) :
    ∃ q, p.hostTurn = .next q ∧ q.block.Inv ∧ q.block.engineView = p.block.engineView := by
  unfold Platform.hostTurn
  cases p.host.lines[p.host.next]? with
  | none => exact ⟨p, rfl, h, rfl⟩
  | some op =>
    cases hin : op.input p.block.build with
    | none => exact ⟨{ p with host := p.host.take op 0 }, by simp only [hin], h, rfl⟩
    | some x =>
      have hat : State.AtTransaction { p.block with inputs := x :: p.block.inputs } p.block.inputs := by
        obtain ⟨addr, size, rfl⟩ | ⟨addr, size, v, rfl⟩ := HostOp.input_cases hin
        · exact .inl ⟨addr, size, rfl⟩
        · exact .inr ⟨addr, size, v, rfl⟩
      obtain ⟨t, ht, hview, -⟩ :=
        step_transaction_busy (s := { p.block with inputs := x :: p.block.inputs }) hb hat
      exact ⟨{ host := p.host.take op (responseData t.response), block := t }, by simp only [hin, ht],
        stepKeepsTheInvariant _ t (h.inputs _) ht, hview⟩

/-- A platform whose block runs a command that nothing will stop. -/
structure Platform.Running (p : Platform) : Prop where
  inv : p.block.Inv
  aWritten : p.block.aWritten
  busy : p.block.seq ≠ .idle

/-- The micro-steps a platform's command still has. -/
def Platform.left (p : Platform) : Nat := p.block.seq.left p.block.build

theorem Platform.Running.hostTurn {p : Platform} (h : p.Running) :
    ∃ q, p.hostTurn = .next q ∧ q.Running ∧ q.left = p.left := by
  obtain ⟨q, hq, hinv, hview⟩ := hostTurn_busy h.inv h.busy
  obtain ⟨hbuild, hseq, -, hA, -⟩ := engineView_eq_iff.1 hview
  refine ⟨q, hq, ⟨hinv, ?_, hseq ▸ h.busy⟩, by rw [Platform.left, hseq, hbuild, Platform.left]⟩
  unfold State.aWritten
  rw [hA, hbuild]
  exact h.aWritten

/-- The ENGINE's turn completes the command or leaves one micro-step fewer. -/
theorem Platform.Running.engineTurn {p : Platform} (h : p.Running) :
    ∃ t, p.engineTurn = .next { p with block := t } ∧
      ((t.seq = .idle ∧ t.done = true) ∨
        (Platform.Running { p with block := t } ∧ Platform.left { p with block := t } + 1 = p.left)) := by
  obtain ⟨t, ht⟩ := engineStep_exists h.inv h.aWritten
  refine ⟨t, engineTurn_eq ht, ?_⟩
  by_cases hidle : t.seq = .idle
  · exact .inl ⟨hidle, (engineStep_done ht).1 h.busy hidle⟩
  · exact .inr ⟨⟨h.inv.engineStep ht, (engineStep_same ht).aWritten h.aWritten, hidle⟩,
      engineStep_left h.inv h.busy ht⟩

theorem turns_cons {p r : Platform} {a : Turn} (h : p.turn a = .next r) (rest : List Turn) :
    p.turns (a :: rest) = r.turns rest := by
  simp only [Platform.turns, h]

/-- The schedule brings the command to its completion, and `J` holds there; before, the command is running. -/
def CompletesUnder (J : Platform → Prop) (schedule : Nat → Turn) (p : Platform) : Prop :=
  ∃ n q, p.turns (firstTurns schedule n) = .next q ∧ q.block.seq = .idle ∧ q.block.done = true ∧ J q ∧
    ∀ m < n, ∃ r, p.turns (firstTurns schedule m) = .next r ∧ r.block.seq ≠ .idle

theorem CompletesUnder.cons {J : Platform → Prop} {schedule : Nat → Turn} {p r : Platform}
    (hb : p.block.seq ≠ .idle) (ht : p.turn (schedule 0) = .next r)
    (h : CompletesUnder J (fun k => schedule (k + 1)) r) : CompletesUnder J schedule p := by
  obtain ⟨n, q, hq, hidle, hdone, hJ, hbefore⟩ := h
  refine ⟨n + 1, q, (turns_cons ht _).trans hq, hidle, hdone, hJ, fun m hm => ?_⟩
  cases m with
  | zero => exact ⟨p, rfl, hb⟩
  | succ m =>
    obtain ⟨v, hv, hrun⟩ := hbefore m (by omega)
    exact ⟨v, (turns_cons ht _).trans hv, hrun⟩

/-- What every turn of the host keeps while a command runs, and every turn of the ENGINE. -/
structure KeptWhileRunning (J : Platform → Prop) : Prop where
  host : ∀ p q : Platform, J p → p.block.seq ≠ .idle → p.hostTurn = .next q → J q
  engine : ∀ (p : Platform) (t : State), J p → J { p with block := t }

/-- By induction on the micro-steps left, and within one micro-step on the turns before the ENGINE's next. -/
theorem exists_completion {J : Platform → Prop} (hJ : KeptWhileRunning J) {left : Nat} {schedule : Nat → Turn}
    {p : Platform} (hfair : FairTo .engine schedule) (h : p.Running) (hleft : p.left = left) (hp : J p) :
    CompletesUnder J schedule p := by
  induction left using Nat.strong_induction_on generalizing schedule p with
  | _ left ih =>
    have hengine {schedule : Nat → Turn} {p : Platform} (hfair : FairTo .engine schedule) (h : p.Running)
        (hleft : p.left = left) (hp : J p) (hnow : schedule 0 = .engine) : CompletesUnder J schedule p := by
      obtain ⟨t, ht, hafter⟩ := h.engineTurn
      refine .cons h.busy (by rw [hnow]; exact ht) ?_
      obtain ⟨hidle, hdone⟩ | ⟨hrun, hless⟩ := hafter
      · exact ⟨0, _, rfl, hidle, hdone, hJ.engine p t hp, fun _ hlt => absurd hlt (Nat.not_lt_zero _)⟩
      · exact ih _ (by omega) (fairTo_later hfair 1) hrun rfl (hJ.engine p t hp)
    obtain ⟨m, -, hm⟩ := hfair 0
    induction m generalizing schedule p with
    | zero => exact hengine hfair h hleft hp hm
    | succ m ihm =>
      cases hnow : schedule 0 with
      | engine => exact hengine hfair h hleft hp hnow
      | host =>
        obtain ⟨q, hq, hrun, hsame⟩ := h.hostTurn
        exact .cons h.busy (by rw [hnow]; exact hq)
          (ihm (fairTo_later hfair 1) hrun (hsame.trans hleft) (hJ.host p q hp h.busy hq) hm)

/-! ### Turns while IDLE -/

/-- Two runs of turns under one schedule are one. -/
theorem turns_then {schedule : Nat → Turn} {m n : Nat} {p q r : Platform}
    (h : p.turns (firstTurns schedule m) = .next q)
    (h' : q.turns (firstTurns (fun k => schedule (k + m)) n) = .next r) :
    p.turns (firstTurns schedule (m + n)) = .next r := by
  rw [firstTurns_add, turns_append _ h, h']

/-- While IDLE the ENGINE's turns change nothing, so a host that is fairly scheduled has its turn in the same
platform. -/
theorem exists_hostTurn {schedule : Nat → Turn} {p q : Platform} (hfair : FairTo .host schedule)
    (hidle : p.block.seq = .idle) (hq : p.hostTurn = .next q) :
    ∃ n, p.turns (firstTurns schedule n) = .next q := by
  obtain ⟨m, -, hm⟩ := hfair 0
  induction m generalizing schedule with
  | zero =>
    have hturn : p.turn (schedule 0) = .next q := by rw [hm]; exact hq
    exact ⟨1, turns_cons hturn []⟩
  | succ m ih =>
    cases hnow : schedule 0 with
    | host =>
      have hturn : p.turn (schedule 0) = .next q := by rw [hnow]; exact hq
      exact ⟨1, turns_cons hturn []⟩
    | engine =>
      have hturn : p.turn (schedule 0) = .next p := by rw [hnow]; exact engineTurn_eq (engineStep_idle hidle)
      obtain ⟨n, hn⟩ := ih (fairTo_later hfair 1) hm
      exact ⟨n + 1, (turns_cons hturn _).trans hn⟩

/-- The host stands at its poll. -/
structure AtPoll (name k : Nat) (p : Platform) : Prop where
  poll : PollAt p.host.lines name k
  next : p.host.next = k ∨ p.host.next = k + 1

theorem keptWhileRunning_atPoll (name k : Nat) : KeptWhileRunning (AtPoll name k) where
  host p q hp hb hq := by
    obtain hnext | hnext := hp.next
    · rw [hostTurn_label hp.poll hnext] at hq
      cases hq
      exact ⟨hp.poll, .inr rfl⟩
    · rw [hostTurn_branch hp.poll hnext] at hq
      cases hq
      exact ⟨hp.poll, .inl (if_neg hb)⟩
  engine p t hp := ⟨hp.poll, hp.next⟩

/-- A poll of an idle block is passed, and leaves DONE. -/
theorem exists_passed {name k : Nat} {schedule : Nat → Turn} {p : Platform} (hfair : FairTo .host schedule)
    (hp : AtPoll name k p) (hidle : p.block.seq = .idle) :
    ∃ n q, p.turns (firstTurns schedule n) = .next q ∧ q.host.next = k + 2 ∧ q.block.seq = .idle ∧
      q.block.done = p.block.done := by
  have hbranch {schedule : Nat → Turn} {p : Platform} (hfair : FairTo .host schedule)
      (hpoll : PollAt p.host.lines name k) (hnext : p.host.next = k + 1) (hidle : p.block.seq = .idle) :
      ∃ n q, p.turns (firstTurns schedule n) = .next q ∧ q.host.next = k + 2 ∧ q.block.seq = .idle ∧
        q.block.done = p.block.done := by
    obtain ⟨n, hn⟩ := exists_hostTurn hfair hidle (hostTurn_branch hpoll hnext)
    exact ⟨n, _, hn, if_pos hidle, hidle, rfl⟩
  obtain hnext | hnext := hp.next
  · obtain ⟨m, hm⟩ := exists_hostTurn hfair hidle (hostTurn_label hp.poll hnext)
    obtain ⟨n, q, hq, hpast, hidle', hdone⟩ :=
      hbranch (p := { p with host := { p.host with next := k + 1 } }) (fairTo_later hfair m) hp.poll rfl hidle
    exact ⟨m + n, q, turns_then hm hq, hpast, hidle', hdone⟩
  · exact hbranch hfair hp.poll hnext hidle

/-- Under weak fairness to both agents a poll is passed: the command completes with the host still at its poll, and then
the poll sees the block idle. -/
theorem exists_past_poll {name k : Nat} {schedule : Nat → Turn} {p : Platform} (hengine : FairTo .engine schedule)
    (hhost : FairTo .host schedule) (h : p.block.Inv) (ha : p.block.aWritten) (hp : AtPoll name k p) :
    ∃ n q, p.turns (firstTurns schedule n) = .next q ∧ q.host.next = k + 2 ∧ q.block.seq = .idle ∧
      (p.block.seq ≠ .idle → q.block.done = true) := by
  by_cases hidle : p.block.seq = .idle
  · obtain ⟨n, q, hq, hpast, hidle', -⟩ := exists_passed hhost hp hidle
    exact ⟨n, q, hq, hpast, hidle', fun hb => absurd hidle hb⟩
  · obtain ⟨m, r, hr, hridle, hrdone, hratPoll, -⟩ :=
      exists_completion (keptWhileRunning_atPoll name k) hengine ⟨h, ha, hidle⟩ rfl hp
    obtain ⟨n, q, hq, hpast, hidle', hdone⟩ := exists_passed (fairTo_later hhost m) hratPoll hridle
    exact ⟨m + n, q, turns_then hr hq, hpast, hidle', fun _ => hdone.trans hrdone⟩

/-- Settles O59: the assembled lines, the two turns at them, and the two liveness clauses from `exists_completion`. -/
theorem pollWaitsForIdle : Obligations.PollWaitsForIdle := by
  unfold Obligations.PollWaitsForIdle
  refine ⟨assembled_poll_lines, fun p name k hlabel hbranch hfirst => ?atPoll,
    fun p schedule hfair h ha hb => ?completes⟩
  case atPoll =>
    have hpoll : PollAt p.host.lines name k := ⟨hlabel, hbranch, hfirst⟩
    exact ⟨fun hnext => ⟨_, hostTurn_branch hpoll hnext, rfl, rfl, rfl⟩, hostTurn_label hpoll,
      fun schedule hengine hhost h ha hnext => exists_past_poll hengine hhost h ha ⟨hpoll, hnext⟩⟩
  case completes =>
    have hall : KeptWhileRunning fun _ => True := ⟨fun _ _ _ _ _ => trivial, fun _ _ _ => trivial⟩
    obtain ⟨n, q, hq, hidle, hdone, -, hbefore⟩ := exists_completion hall hfair ⟨h, ha, hb⟩ rfl trivial
    exact ⟨n, q, hq, hidle, hdone, hbefore⟩

end Sys2Proof.Machine
end
